-- ==== Sys2Proof/Word.lean ====
section
/-! DEFINITION. The word types of the block (rules R9, R10): a byte on the bus, a 32-bit register word. -/

namespace Sys2Proof

/-- One byte: a bus byte (R12), a byte of host memory (R50). -/
abbrev Byte := BitVec 8

/-- One register of the host interface, one command word, one host address (10_state.md section 2). -/
abbrev Word := BitVec 32

/-- A 2-bit colour code (R130): the value of the `COLOR` field, of `BG` and of one slot of a packed byte. -/
abbrev Color := BitVec 2

end Sys2Proof
end

