-- ==== Sys2Proof/Config.lean ====
section
/-! DEFINITION. What one instance of the block fixes: the parameters of rule R6 with the variant record of rule R100,
and the free values of rules R14, R15 and R63. -/

namespace Sys2Proof

/-- A frame: one command byte and the data bytes that follow it (R93, R100). -/
structure Frame where
  cmd  : Byte
  data : List Byte
deriving DecidableEq, Repr, Inhabited

/-- `VARIANT`, the parameter record of one controller chip family (R100). -/
structure Variant where
  /-- `K_RAMX` -/
  kRamX : Byte
  /-- `K_RAMY` -/
  kRamY : Byte
  /-- `K_XCNT` -/
  kXCnt : Byte
  /-- `K_YCNT` -/
  kYCnt : Byte
  /-- `K_WRAM` -/
  kWRam : Byte
  /-- `F_DEM` -/
  fDem : List Frame
  /-- `F_VCOM` -/
  fVcom : List Frame
  /-- `F_BORDER` -/
  fBorder : List Frame
  /-- `F_ENABLE` -/
  fEnable : List Frame
  /-- `F_LUT` -/
  fLut : List Frame
  /-- `F_DISABLE` -/
  fDisable : List Frame
  /-- `F_SLEEP` -/
  fSleep : List Frame
  /-- `F_ACTIVATE` -/
  fActivate : List Frame
deriving DecidableEq, Repr, Inhabited

/-- One row of the predicate `HostMemAdmits` written as data: reads of `width` bytes are admitted at every first
address from `first` to `last`. Every predicate on (address, width) is a list of such rows.
DESIGN CHOICE (log 8), safe. -/
structure AdmitRow where
  width : Nat
  first : Nat
  last  : Nat
deriving DecidableEq, Repr, Inhabited

/-- The parameters of rule R6. Times are in microseconds: DESIGN CHOICE (log 12), safe. A level is `true` when high. -/
structure Params where
  /-- `SOURCES`, the RAM x extent in pixels -/
  sources : Nat
  /-- `GATES`, the RAM y extent -/
  gates : Nat
  /-- `VARIANT` -/
  variant : Variant
  /-- `T_RST_LOW` -/
  tRstLow : Nat
  /-- `T_RST_HIGH` -/
  tRstHigh : Nat
  /-- `POLL_INTERVAL` -/
  pollInterval : Nat
  /-- `BUSY_ACTIVE_LEVEL` -/
  busyActiveLevel : Bool
  /-- `DC_CMD_LEVEL` -/
  dcCmdLevel : Bool
  /-- `SHARED_BUS` -/
  sharedBus : Bool
  /-- `HostMemAdmits`, as rows -/
  admitRows : List AdmitRow
  /-- `REG_BASE`, the host address of the register block -/
  regBase : Word
deriving DecidableEq, Repr, Inhabited

/-- The parameters of the instance that `State.reset` is about. No body: every value is possible (log 1). -/
opaque Config.params : Params

/-- The level of the busy line at a sample for which `State.busyLine` holds none (R15, U7). No body (log 5). -/
opaque Config.freeLevel : Nat → Bool

/-- The host's answer to a sample request for which `State.samples` holds none (R14, U8). No body (log 5). -/
opaque Config.freeSample : Nat → Bool

/-- The value of a host-memory read of bytes that the host changed under the running command (R63, U4). No body (log 5, log 7). -/
opaque Config.freeRead : Nat → Word

end Sys2Proof
end

