-- ==== Sys2Proof/Syntax.lean ====
section
/-! DEFINITION. The 17 commands of the opcode map (rule R88), each with the fields of the command word it uses
(rule R92). A field that rule R88 marks "-" for an opcode is ignored by it (rule R90) and is no part of the command. -/

namespace Sys2Proof

/-- The values of the `ALIGN` field (R86). -/
inductive Align where
  | left
  | center
  | right
  /-- the value 3, illegal in DRAW_TEXT (R89) -/
  | reserved
deriving DecidableEq, Repr

/-- The values of the `SRC` field (R87). -/
inductive Src where
  | solid
  | mem
  | host
  /-- the value 3, illegal in DRAW_BITMAP (R89) -/
  | reserved
deriving DecidableEq, Repr

/-- The commands (R88). -/
inductive Instr where
  | nop
  | start
  | stop
  | update
  | select
  | unselect
  | sendCmd
  | sendData
  | setAddress
  | panelInit
  | setBg (color : Color)
  | fillDisplay (color : Color)
  | drawBitmap (color : Color) (src : Src)
  | drawFilledRect (color : Color)
  | setFont
  | getTextWidth
  | drawText (color : Color) (align : Align)
deriving DecidableEq, Repr

end Sys2Proof
end

