-- ==== Sys2Proof/WellFormed.lean ====
section
/-! DEFINITION. Which commands have a legal encoding (rule R89, items 3 and 4) and which parameter records are legal
instances (rules R7 and R100). -/

namespace Sys2Proof

/-- A command is well formed when no field it uses holds a reserved value (R86, R87, R89). -/
def Instr.wellFormed : Instr → Bool
  | .drawBitmap _ src => src != .reserved
  | .drawText _ align => align != .reserved
  | .nop | .start | .stop | .update | .select | .unselect | .sendCmd | .sendData | .setAddress | .panelInit => true
  | .setBg _ | .fillDisplay _ | .drawFilledRect _ | .setFont | .getTextWidth => true

/-- The five addressing command bytes of a variant (R100). -/
def Variant.addressing (v : Variant) : List Byte := [v.kRamX, v.kRamY, v.kXCnt, v.kYCnt, v.kWRam]

/-- All the frames of a variant's frame lists (R100). -/
def Variant.frames (v : Variant) : List Frame :=
  v.fDem ++ v.fVcom ++ v.fBorder ++ v.fEnable ++ v.fLut ++ v.fDisable ++ v.fSleep ++ v.fActivate

/-- The constraints of rule R100: the five `K_*` bytes are pairwise distinct and no frame's command byte is one of them. -/
def Variant.wellFormed (v : Variant) : Bool :=
  decide v.addressing.Nodup && v.frames.all fun f => !(v.addressing.contains f.cmd)

/-- The constraints of rule R7 (10 ms is 10000 microseconds) and of rule R100. -/
def Params.wellFormed (p : Params) : Bool :=
  decide (4 ≤ p.sources) && decide (p.sources ≤ 1024) && decide (1 ≤ p.gates) && decide (p.gates ≤ 65536) &&
  decide (10000 ≤ p.tRstLow) && decide (10000 ≤ p.tRstHigh) && decide (0 < p.pollInterval) && p.variant.wellFormed

end Sys2Proof
end

