-- ==== Sys2Proof/Decode.lean ====
section
/-! DEFINITION. The command word (rules R83 to R91, R96): its fields, the decoder, total and independent of any state,
and the encoder. -/

namespace Sys2Proof

/-- Why a command word is illegal, in the order of rule R89. -/
inductive Illegal where
  /-- `OPC` is not in the table of rule R88 -/
  | unassignedOpcode
  /-- `RSVD` is not 0 -/
  | reservedBits
  /-- DRAW_BITMAP with `SRC` = 3 -/
  | reservedSrc
  /-- DRAW_TEXT with `ALIGN` = 3 -/
  | reservedAlign
deriving DecidableEq, Repr

/-- The `DETAIL` that an illegal word records (R89). -/
def Illegal.detail : Illegal → Nat
  | .unassignedOpcode => 0
  | .reservedBits => 1
  | .reservedSrc => 2
  | .reservedAlign => 3

/-- `OPC`, bits 7:0 (R83). -/
def opcField (w : Word) : Byte := w.extractLsb' 0 8

/-- `COLOR`, bits 9:8 (R83). -/
def colorField (w : Word) : Color := w.extractLsb' 8 2

/-- `ALIGN`, bits 11:10 (R83). -/
def alignField (w : Word) : BitVec 2 := w.extractLsb' 10 2

/-- `SRC`, bits 13:12 (R83). -/
def srcField (w : Word) : BitVec 2 := w.extractLsb' 12 2

/-- `RSVD`, bits 31:14 (R83). -/
def rsvdField (w : Word) : BitVec 18 := w.extractLsb' 14 18

/-- The values of the `ALIGN` field (R86). -/
def Align.ofField (f : BitVec 2) : Align :=
  match f.toNat with
  | 0 => .left
  | 1 => .center
  | 2 => .right
  | _ => .reserved

/-- The `ALIGN` field of an alignment (R86). -/
def Align.field : Align → BitVec 2
  | .left => 0
  | .center => 1
  | .right => 2
  | .reserved => 3

/-- The values of the `SRC` field (R87). -/
def Src.ofField (f : BitVec 2) : Src :=
  match f.toNat with
  | 0 => .solid
  | 1 => .mem
  | 2 => .host
  | _ => .reserved

/-- The `SRC` field of a pixel source (R87). -/
def Src.field : Src → BitVec 2
  | .solid => 0
  | .mem => 1
  | .host => 2
  | .reserved => 3

/-- The command an opcode names, with the fields it uses (R88, R92). -/
def instrOfOpcode (opc : Byte) (color : Color) (align : Align) (src : Src) : Option Instr :=
  match opc.toNat with
  | 0x00 => some .nop
  | 0x10 => some .start
  | 0x11 => some .stop
  | 0x12 => some .update
  | 0x13 => some .select
  | 0x14 => some .unselect
  | 0x15 => some .sendCmd
  | 0x16 => some .sendData
  | 0x17 => some .setAddress
  | 0x20 => some .panelInit
  | 0x21 => some (.setBg color)
  | 0x22 => some (.fillDisplay color)
  | 0x23 => some (.drawBitmap color src)
  | 0x24 => some (.drawFilledRect color)
  | 0x25 => some .setFont
  | 0x26 => some .getTextWidth
  | 0x27 => some (.drawText color align)
  | _ => none

/-- The reserved-value checks of the fields a command uses (R89, items 3 and 4). -/
def checkFields (i : Instr) : Except Illegal Instr :=
  match i with
  | .drawBitmap _ .reserved => .error .reservedSrc
  | .drawText _ .reserved => .error .reservedAlign
  | i => .ok i

/-- The decoder (R89, R96): the checks in the order of rule R89. -/
def decode (w : Word) : Except Illegal Instr :=
  match instrOfOpcode (opcField w) (colorField w) (Align.ofField (alignField w)) (Src.ofField (srcField w)) with
  | none => .error .unassignedOpcode
  | some i => if rsvdField w ≠ 0 then .error .reservedBits else checkFields i

/-- The opcode of a command (R88). -/
def Instr.opcode : Instr → Byte
  | .nop => 0x00
  | .start => 0x10
  | .stop => 0x11
  | .update => 0x12
  | .select => 0x13
  | .unselect => 0x14
  | .sendCmd => 0x15
  | .sendData => 0x16
  | .setAddress => 0x17
  | .panelInit => 0x20
  | .setBg _ => 0x21
  | .fillDisplay _ => 0x22
  | .drawBitmap _ _ => 0x23
  | .drawFilledRect _ => 0x24
  | .setFont => 0x25
  | .getTextWidth => 0x26
  | .drawText _ _ => 0x27

/-- The word of the four fields (R95): `{18'b0, SRC, ALIGN, COLOR, OPC}`. -/
def commandWord (src align : BitVec 2) (color : Color) (opc : Byte) : Word := 0#18 ++ src ++ align ++ color ++ opc

/-- The encoder: the word that names a command, with every field the command ignores 0 (R88, R90, R95). -/
def encode (i : Instr) : Word :=
  match i with
  | .setBg color => commandWord 0 0 color i.opcode
  | .fillDisplay color => commandWord 0 0 color i.opcode
  | .drawBitmap color src => commandWord src.field 0 color i.opcode
  | .drawFilledRect color => commandWord 0 0 color i.opcode
  | .drawText color align => commandWord 0 align.field color i.opcode
  | .nop | .start | .stop | .update | .select | .unselect => commandWord 0 0 0 i.opcode
  | .sendCmd | .sendData | .setAddress | .panelInit | .setFont | .getTextWidth => commandWord 0 0 0 i.opcode

/-- The word of `nbits` bits whose number is `w`: the one word of a command, every bit above `nbits` 0 (R83, R91). -/
def tableWord (nbits w : Nat) : Word := BitVec.ofNat 32 (w % 2 ^ nbits)

/-- What the decoder reads from the word that spec/opcode_table.json numbers `w`. -/
def decodeTableWord (nbits w : Nat) : Option Instr :=
  match decode (tableWord nbits w) with
  | .ok i => some i
  | .error _ => none

end Sys2Proof
end

