-- ==== Sys2Proof/Machine/State.lean ====
section
/-! DEFINITION. The state of the block (10_state.md, rule R20) as plain data, the host and environment it meets at its
interface (rules R12 to R15), the state after reset (rule R45), and the form of a command's effect. -/

namespace Sys2Proof.Machine

/-- The controller power state `CState` (R32). -/
inductive CState where
  | uninit
  | started
  | stopped
deriving DecidableEq, Repr

/-- The fault causes (R180). A fault of the block is a state it enters (R185), not an outcome that stops the machine. -/
inductive Cause where
  | none
  | illegal
  | windowRange
  | panelExtent
  | fontHeader
  | bracket
  | config
  | noFont
  | bgUnset
  | cmdOverrun
  | memError
  | unspecified
deriving DecidableEq, Repr

/-- The bus events (R12). -/
inductive Event where
  /-- `XON`: power up the bus transport -/
  | xon
  /-- `XOFF`: power down the bus transport -/
  | xoff
  /-- `ACQ` -/
  | acq
  /-- `REL` -/
  | rel
  /-- `BEGIN` -/
  | bgn
  /-- `END` -/
  | fin
  /-- `CMD(b)` -/
  | cmd (b : Byte)
  /-- `DAT(b)` -/
  | dat (b : Byte)
  /-- `RST(0)` when `released` is false, `RST(1)` when it is true -/
  | rst (released : Bool)
  /-- `DLY(t)`, in microseconds (log 12) -/
  | dly (t : Nat)
  /-- `BUSY(v)` -/
  | busy (level : Bool)
deriving DecidableEq, Repr

/-- The output lines (R38): the level last driven, `none` where the spec gives no level. A level is `true` when high,
`select` is `true` when the controller is selected, `power` when the transport is up.
DEDUCED (log 10), safe. -/
structure Pins where
  reset  : Option Bool
  dc     : Option Bool
  select : Option Bool
  power  : Option Bool
deriving DecidableEq, Repr

/-- The arguments of a sample request `Sample(width, height, w, h)` (R14). -/
structure SampleReq where
  width  : Nat
  height : Nat
  w      : Nat
  h      : Nat
deriving DecidableEq, Repr

/-- A performed host-memory read `MemRead(a, n)` (R13). -/
structure MemReq where
  addr  : Nat
  width : Nat
deriving DecidableEq, Repr

/-- What the host and the platform do at the block's interface (R94, R217). A register access names its byte offset in
the `0x80` bytes of the register block (R80) and its size in bytes. -/
inductive HostAction where
  /-- write a register: `WR` (R94) -/
  | write (off : BitVec 7) (size : Nat) (value : Word)
  /-- read a register: `RD` (R94) -/
  | read (off : BitVec 7) (size : Nat)
  /-- read `STATUS` until `BUSY` = 0: `WAITIDLE` (R94) -/
  | waitIdle
  /-- do nothing while the block takes one step (log 2) -/
  | pause
  /-- write a byte of host memory (R63) -/
  | poke (addr : Word) (value : Byte)
  /-- the platform's reset of the block (R200) -/
  | reset
deriving DecidableEq, Repr

/-- Host memory: the bytes that differ from the value an unlisted address reads as, by strictly rising address (R50, log 6). -/
abbrev Memory := List Host.Cell

/-- The state of the block and of what it meets at its interface. INVENTORY.md gives each field's rule and reset value. -/
structure State where
  /-- `A0` .. `A6` (R21) -/
  args : Vector Word 7
  /-- `STATUS.BUSY` (R23) -/
  busy : Bool
  /-- `STATUS.FAULT`, the same bit as `Halted` (R23, R34) -/
  fault : Bool
  /-- `Sel`, mirrored as `STATUS.SEL` (R33) -/
  sel : Bool
  /-- `CState`, mirrored as `STATUS.CSTATE` (R32) -/
  cstate : CState
  /-- `STATUS.PINIT` (R35) -/
  panelInit : Bool
  /-- `STATUS.BGV` (R35) -/
  bgValid : Bool
  /-- `STATUS.FONTV` (R35) -/
  fontValid : Bool
  /-- the cause that fault entry records; `STATUS.CAUSE` while `FAULT` = 1 (R180, R185) -/
  cause : Cause
  /-- `FAULT_INFO` (R24) -/
  faultInfo : Word
  /-- `FAULT_ADDR` (R25) -/
  faultAddr : Word
  /-- `RESULT` (R26) -/
  result : Word
  /-- `PANEL_W[15:0]` (R28) -/
  panelW : BitVec 16
  /-- `PANEL_H[15:0]` (R28) -/
  panelH : BitVec 16
  /-- `BG.COLOR` (R29) -/
  bg : Color
  /-- `FONT_BASE` (R30) -/
  fontBase : Word
  /-- `CmdL` (R36) -/
  cmdL : Word
  /-- `OpL[0]` .. `OpL[6]` (R36) -/
  opL : Vector Word 7
  /-- the command in progress is an UPDATE in its poll loop (R37, R106, log 14) -/
  poll : Bool
  /-- the host's pending `Sample` request (R14, R200) -/
  sampleReq : Option SampleReq
  /-- the host-memory addresses the host wrote under the running command (R63, log 7) -/
  racy : List Nat
  /-- the output lines (R38) -/
  pins : Pins
  /-- the bus events emitted so far (R12, R20) -/
  trace : List Event
  /-- the parameters of the instance, constant (R6, log 1) -/
  params : Params
  /-- host memory (R50) -/
  mem : Memory
  /-- the actions the host has still to do, first one first (log 11) -/
  host : List HostAction
  /-- the levels the busy line will read next (R15, log 5) -/
  busyLine : List Bool
  /-- the answers the host will give next to sample requests (R14, log 5) -/
  samples : List Bool
  /-- how many free values have been drawn (log 5) -/
  draws : Nat
  /-- the host-memory reads performed so far (log 13) -/
  memReads : List MemReq
  /-- the sample requests made so far (log 13) -/
  sampleLog : List SampleReq
  /-- the values the host's register reads returned so far (log 13) -/
  regReads : List Word
deriving DecidableEq, Repr

/-- The machine right after reset, before anything was emitted (R45): the registers at their reset values, no command
in progress, no line driven. The parameters are the opaque instance. Host memory, the host's actions and its inputs
are the model's own choice (log 5, log 6, log 11). -/
def State.reset : State where
  args := Vector.replicate 7 0
  busy := false
  fault := false
  sel := false
  cstate := .uninit
  panelInit := false
  bgValid := false
  fontValid := false
  cause := .none
  faultInfo := 0
  faultAddr := 0
  result := 0
  panelW := 0
  panelH := 0
  bg := 0
  fontBase := 0
  cmdL := 0
  opL := Vector.replicate 7 0
  poll := false
  sampleReq := none
  racy := []
  pins := { reset := none, dc := none, select := none, power := none }
  trace := []
  params := Config.params
  mem := []
  host := []
  busyLine := []
  samples := []
  draws := 0
  memReads := []
  sampleLog := []
  regReads := []

/-- No reason: nothing the spec describes stops the machine. The faults of rule R180 are states the block enters by
`enterFault`, so a step that records one answers a next state (log 20). Nobody raises a `Fault`: safe. -/
inductive Fault where
deriving DecidableEq, Repr

/-- Why a step is refused. -/
inductive Refusal where
  /-- An instruction without a meaning, by its mnemonic in spec/opcode_table.json. Only an arm of `exec` answers it: safe. -/
  | notModelled (mnemonic : String)
  /-- A register access that is not an aligned 32-bit access has no step (R81, U11). Raised by `takeHost`: safe. -/
  | badAccess (off : BitVec 7) (size : Nat)
deriving DecidableEq, Repr

/-- A piece of a command's effect: it ends with `ok` when the command goes on, and with `error` when the command has
ended at that point, by a fault (R16) or by a reset (R200). The state at that point comes with either. -/
abbrev Act := EStateM Unit State

end Sys2Proof.Machine
end

