-- ==== Sys2Proof/Machine/Flags.lean ====
section
/-! DEFINITION. The codes and bit layout of the host-visible status registers (rules R23, R24, R180). The block has no
condition codes (rule R41). -/

namespace Sys2Proof.Machine

/-- The low 16 bits of an integer (R10): a negative value `v` gives `v mod 65536`. -/
def low16 (v : Int) : BitVec 16 := BitVec.ofInt 16 v

/-- The `CSTATE` code of a power state (R23). -/
def CState.code : CState → BitVec 2
  | .uninit => 0
  | .started => 1
  | .stopped => 2

/-- The `CAUSE` code of a fault cause (R180). -/
def Cause.code : Cause → Byte
  | .none => 0
  | .illegal => 1
  | .windowRange => 2
  | .panelExtent => 3
  | .fontHeader => 4
  | .bracket => 5
  | .config => 6
  | .noFont => 7
  | .bgUnset => 8
  | .cmdOverrun => 9
  | .memError => 10
  | .unspecified => 11

/-- The `STATUS` register (R23), from bit 31 down to bit 0: `CAUSE` reads 0 while `FAULT` = 0 (R23, R180). -/
def statusWord (s : State) : Word :=
  0#8 ++ (if s.fault then s.cause.code else 0) ++ 0#7 ++ BitVec.ofBool s.fontValid ++ BitVec.ofBool s.bgValid ++
    BitVec.ofBool s.panelInit ++ s.cstate.code ++ 0#1 ++ BitVec.ofBool s.sel ++ BitVec.ofBool s.fault ++ BitVec.ofBool s.busy

/-- The `FAULT_INFO` value of a fault (R24, R185): `OPC`, `DETAIL`, `VALUE`. -/
def faultInfoWord (opc : Byte) (detail : Nat) (value : Int) : Word := opc ++ BitVec.ofNat 8 detail ++ low16 value

end Sys2Proof.Machine
end

