-- ==== Sys2Proof/Machine/Instance.lean ====
section
/-! DEFINITION. What the rules derive from the parameters of an instance: the RAM extents (rule R8), the admitted
host-memory reads (rule R13), the place of the register block (rules R43, R80). -/

namespace Sys2Proof

/-- `XBYTES` (R8). -/
def Params.xbytes (p : Params) : Nat := p.sources / 4

/-- `YWIDE` (R8). -/
def Params.ywide (p : Params) : Bool := decide (p.gates > 255)

/-- The number of bytes of a y address on the bus (R113). -/
def Params.yCount (p : Params) : Nat := if p.ywide then 2 else 1

/-- `HostMemAdmits(a, n)` (R6), read from its rows (log 8). -/
def Params.admits (p : Params) (a n : Nat) : Bool :=
  p.admitRows.any fun r => decide (r.width = n) && decide (r.first ≤ a) && decide (a ≤ r.last)

/-- A read of `n` bytes at `a` is performed (R13): it lies in the 32-bit space and is admitted. -/
def Params.readable (p : Params) (a n : Nat) : Bool := decide (a + n ≤ 2 ^ 32) && p.admits a n

/-- The offset in the register block of a host address, if it lies in the block (R43, R80). A block whose `REG_BASE` is
within `0x80` bytes of the top of the 32-bit space goes on at address 0: DESIGN CHOICE (log 22), unsafe there. -/
def Params.regOffset (p : Params) (addr : Word) : Option (BitVec 7) :=
  if (addr - p.regBase).toNat < 0x80 then some ((addr - p.regBase).extractLsb' 0 7) else none

end Sys2Proof
end

