-- ==== Sys2Proof/Machine/Memory.lean ====
section
/-! DEFINITION. Host memory (rules R50, R51): one byte's read and write in the canonical form, and the little-endian
read of several bytes. -/

namespace Sys2Proof.Machine

/-- What a byte of host memory that is not listed reads as. DESIGN CHOICE (log 6), unsafe for `State.reset` only. -/
def Memory.unlisted : Byte := 0

/-- The byte at an address. -/
def Memory.read : Memory → Nat → Byte
  | [], _ => Memory.unlisted
  | (b, v) :: rest, a => if b = a then v else Memory.read rest a

/-- The memory with one byte changed. -/
def Memory.write : Memory → Nat → Byte → Memory
  | [], a, v => if v = Memory.unlisted then [] else [(a, v)]
  | (b, u) :: rest, a, v =>
    if a < b then (if v = Memory.unlisted then (b, u) :: rest else (a, v) :: (b, u) :: rest)
    else if a = b then (if v = Memory.unlisted then rest else (a, v) :: rest)
    else (b, u) :: Memory.write rest a v

/-- The canonical form above an address: strictly rising addresses of 32 bits, no listed byte equal to an unlisted one. -/
def Memory.wfFrom : Nat → Memory → Bool
  | _, [] => true
  | lo, (a, v) :: rest => decide (lo ≤ a) && decide (a < 2 ^ 32) && v != Memory.unlisted && Memory.wfFrom (a + 1) rest

/-- The canonical form of host memory. -/
def Memory.wf (m : Memory) : Bool := Memory.wfFrom 0 m

/-- The `n` bytes from an address as an unsigned number, the byte at the lowest address least significant (R13, R51). -/
def Memory.readLE (m : Memory) (a : Nat) : Nat → Nat
  | 0 => 0
  | n + 1 => (Memory.read m a).toNat + 256 * Memory.readLE m (a + 1) n

end Sys2Proof.Machine
end

