-- ==== Sys2Proof/Machine/Operands.lean ====
section
/-! DEFINITION. The operand forms (rules R84, R92). Every operand is read from the latched registers `OpL` (rule R36). -/

namespace Sys2Proof.Machine

/-- A coordinate or size operand in its register: `A[i][15:0]` (R84). -/
def coordBits (s : State) (i : Fin 7) : BitVec 16 := s.opL[i].extractLsb' 0 16

/-- A coordinate or size operand as the unsigned number it is (R84). -/
def coord (s : State) (i : Fin 7) : Nat := (coordBits s i).toNat

/-- An address operand: `A[i][31:0]` (R84). -/
def addrBits (s : State) (i : Fin 7) : Word := s.opL[i]

/-- An address operand as a number (R84). -/
def addrOperand (s : State) (i : Fin 7) : Nat := (addrBits s i).toNat

/-- The length operand: `A6[15:0]` (R84). -/
def lengthOperand (s : State) : Nat := (s.opL[(6 : Fin 7)].extractLsb' 0 16).toNat

/-- The byte operand: `A0[7:0]` (R84). -/
def byteOperand (s : State) : Byte := s.opL[(0 : Fin 7)].extractLsb' 0 8

end Sys2Proof.Machine
end

