-- ==== Sys2Proof/Machine/Ops.lean ====
section
/-! DEFINITION. The named operations over the state: bus events, the register block, reset, the host's turn between two
steps of a command, fault entry, host-memory reads, samples, brackets, frames and the address window. -/

namespace Sys2Proof.Machine

/-! ### Events and lines -/

/-- The output lines after an event (R12, R38). -/
def Pins.drive (p : Params) (e : Event) (q : Pins) : Pins :=
  match e with
  | .xon => { q with power := some true }
  | .xoff => { q with power := some false }
  | .bgn => { q with select := some true }
  | .fin => { q with select := some false }
  | .cmd _ => { q with dc := some p.dcCmdLevel }
  | .dat _ => { q with dc := some (!p.dcCmdLevel) }
  | .rst released => { q with reset := some released }
  | .acq | .rel | .dly _ | .busy _ => q

/-- Between commands no level of the reset, select and data/command lines is given (U5).
DEDUCED (log 10), safe. -/
def Pins.release (q : Pins) : Pins := { q with reset := none, dc := none, select := none }

/-- A run of events joins the trace, in order (R12). -/
def State.emitted (s : State) (es : List Event) : State :=
  { s with trace := s.trace ++ es, pins := es.foldl (fun q e => q.drive s.params e) s.pins }

/-- One event joins the trace (R12). -/
def pushEvent (e : Event) (s : State) : State := s.emitted [e]

/-! ### The end of a command -/

/-- The command in progress is over: `BUSY` falls and the transient state goes (R37, R183, R185). -/
def endCommand (s : State) : State :=
  { s with busy := false, poll := false, sampleReq := none, racy := [], pins := s.pins.release }

/-- `STATUS.CAUSE <- cause` (R185). -/
def setCause (cause : Cause) (s : State) : State := { s with cause := cause }

/-- `FAULT_INFO <- {CmdL[7:0], low8(detail), low16(value)}` (R185). -/
def setFaultInfo (detail : Nat) (value : Int) (s : State) : State :=
  { s with faultInfo := faultInfoWord (opcField s.cmdL) detail value }

/-- `FAULT_ADDR <- a mod 2^32` (R185). -/
def setFaultAddr (a : Nat) (s : State) : State := { s with faultAddr := BitVec.ofNat 32 a }

/-- `STATUS.FAULT <- 1` (R185). -/
def setFault (s : State) : State := { s with fault := true }

/-- `Sel` and its mirror `STATUS.SEL` (R33). -/
def setSel (b : Bool) (s : State) : State := { s with sel := b }

/-- The registers that commands write, as they are in `r` (R26, R28, R29, R30, R32, R35). -/
def State.withRegisters (s r : State) : State :=
  { s with
    cstate := r.cstate
    panelInit := r.panelInit
    bgValid := r.bgValid
    fontValid := r.fontValid
    result := r.result
    panelW := r.panelW
    panelH := r.panelH
    bg := r.bg
    fontBase := r.fontBase }

/-- Reset of the block (R200, R45), the only return from a fault (R186): every register and the transient state at its
reset value, no event. What is outside the block stays: the trace already emitted, the parameters, host memory, the
host's pending actions and inputs. -/
def applyReset (s : State) : State :=
  { State.reset with
    trace := s.trace
    params := s.params
    mem := s.mem
    host := s.host
    busyLine := s.busyLine
    samples := s.samples
    draws := s.draws
    memReads := s.memReads
    sampleLog := s.sampleLog
    regReads := s.regReads }

/-! ### The register block -/

/-- An access the block has a meaning for: 32 bits, aligned (R81). -/
def accessOk (off : BitVec 7) (size : Nat) : Bool := size == 4 && off.toNat % 4 == 0

/-- The argument register at an offset (R80). -/
def argAt (off : BitVec 7) : Option (Fin 7) :=
  match off.toNat with
  | 0x40 => some 0
  | 0x44 => some 1
  | 0x48 => some 2
  | 0x4C => some 3
  | 0x50 => some 4
  | 0x54 => some 5
  | 0x58 => some 6
  | _ => none

/-- The value a register read returns (R80, R21 to R31): no read has a side effect (R54). -/
def readReg (off : BitVec 7) (s : State) : Word :=
  match off.toNat with
  | 0x00 => 0
  | 0x04 => statusWord s
  | 0x08 => s.faultInfo
  | 0x0C => s.faultAddr
  | 0x10 => s.result
  | 0x14 => BitVec.ofNat 32 s.params.sources
  | 0x18 => BitVec.ofNat 32 s.params.gates
  | 0x1C => s.panelW.setWidth 32
  | 0x20 => s.panelH.setWidth 32
  | 0x24 => s.bg.setWidth 32
  | 0x28 => s.fontBase
  | _ => match argAt off with
    | some i => s.args[i]
    | none => 0

/-- A register write other than of `CMD` (R82, R47): an argument register stores all 32 bits, any other offset ignores it. -/
def writeReg (off : BitVec 7) (value : Word) (s : State) : State :=
  { s with
    args := match argAt off with
      | some i => s.args.set i value
      | none => s.args }

/-- A host read of a register, its value kept as returned (R82). -/
def hostRead (off : BitVec 7) (s : State) : State := { s with regReads := s.regReads ++ [readReg off s] }

/-- A host write of a byte of its own memory. Under a running command the byte's reads become any value (R63, log 7). -/
def hostPoke (a : Word) (v : Byte) (s : State) : State :=
  { s with
    mem := Memory.write s.mem a.toNat v
    racy := if s.busy then a.toNat :: s.racy else s.racy }

/-! ### The host's turn between two steps of a running command -/

/-- Look at the state. -/
def peek {α : Type} (f : State → α) : Act α := fun s => .ok (f s) s

/-- Change the state. -/
def update (f : State → State) : Act Unit := fun s => .ok () (f s)

/-- The host's actions that fall before the next effect of the running command, in order (R17, R47, R200), with `onCommand`
what a `CMD` write does. The turn passes to the block at a `pause`, which is used up, at a `WAITIDLE`, which waits, and at
an access that has no step (log 9). -/
def turnFrom (onCommand : Word → Act Unit) : List HostAction → Act Unit
  | [], s => .ok () { s with host := [] }
  | .pause :: rest, s => .ok () { s with host := rest }
  | .waitIdle :: rest, s => .ok () { s with host := .waitIdle :: rest }
  | .reset :: rest, s => .error () (applyReset { s with host := rest })
  | .poke a v :: rest, s => turnFrom onCommand rest (hostPoke a v s)
  | .read off size :: rest, s =>
    if accessOk off size then turnFrom onCommand rest (hostRead off s)
    else .ok () { s with host := .read off size :: rest }
  | .write off size value :: rest, s =>
    if accessOk off size then
      if off = 0 then onCommand value { s with host := .write off size value :: rest }
      else turnFrom onCommand rest (writeReg off value s)
    else .ok () { s with host := .write off size value :: rest }

/-- Changes of the state in order, the host's turn after each. -/
def inTurn (turn : Act Unit) : List (State → State) → Act Unit
  | [] => pure ()
  | f :: rest => do
    update f
    turn
    inTurn turn rest

/-- A `CMD` write that waits. -/
def hold (_ : Word) : Act Unit := fun s => .ok () s

/-- The host may act here, inside fault entry, but a `CMD` write is taken only after it (R182). -/
def heldTurn : Act Unit := fun s => turnFrom hold s.host s

/-- The changes of fault entry, in order (R185). `addr` is the failed read's address for `MEM_ERROR`. -/
def faultSteps (cause : Cause) (detail : Nat) (value : Int) (addr : Option Nat) (s : State) : List (State → State) :=
  [setCause cause, setFaultInfo detail value] ++
  (match addr with
    | some a => [setFaultAddr a]
    | none => []) ++
  (if s.sel then pushEvent .fin :: (if s.params.sharedBus then [pushEvent .rel] else []) ++ [setSel false] else []) ++
  [setFault]

/-- `STATUS.BUSY <- 0`, and the faulted command ends (R185). -/
def halt {α : Type} : Act α := fun s => .error () (endCommand s)

/-- Fault entry (R185), the one way a fault is taken: its changes, with the host's turn after each, then the halt. -/
def enterFault {α : Type} (cause : Cause) (detail : Nat) (value : Int) (addr : Option Nat) : Act α := do
  let steps ← peek (faultSteps cause detail value addr)
  inTurn heldTurn steps
  halt

/-- A `CMD` write taken while a command runs (R183): it is used up, and raises `CMD_OVERRUN` against the running command. -/
def overrun (value : Word) : Act Unit := do
  update fun s => { s with host := s.host.tail }
  heldTurn
  enterFault .cmdOverrun 0 (value.extractLsb' 0 16).toNat none

/-- The host may act here (R17): it stands before every step of a command. -/
def hostTurn : Act Unit := fun s => turnFrom overrun s.host s

/-- The host may act here (R17), and a `CMD` write finds the state as `f` makes it: its `CMD_OVERRUN` is raised from there. -/
def hostTurnFrom (f : State → State) : Act Unit := fun s => turnFrom (fun value => update f >>= fun _ => overrun value) s.host s

/-- An effect that only a shared bus has (R102, R103). -/
def whenShared (x : Act Unit) : Act Unit := do
  let shared ← peek fun s => s.params.sharedBus
  if shared then x else pure ()

/-! ### The steps of a command -/

/-- `raise Fault(cause, detail, value)` (R16): the host may act, then fault entry, and the command ends. -/
def raise {α : Type} (cause : Cause) (detail : Nat) (value : Int) : Act α := do
  hostTurn
  enterFault cause detail value none

/-- An illegal command (R89, R181): `VALUE` is the written word's bits 15:0. -/
def raiseIllegal (k : Illegal) : Act Unit := do
  let value ← peek fun s => s.cmdL.extractLsb' 0 16
  raise .illegal k.detail value.toNat

/-- The state at the end of a piece of a command, however it ended. -/
def endOf (x : Act Unit) (s : State) : State :=
  match x s with
  | .ok _ s' => s'
  | .error _ s' => s'

/-- `Emit(e)` (R12). -/
def emit (e : Event) : Act Unit := do
  hostTurn
  update (pushEvent e)

/-- `Wait(t)` (R15). -/
def wait (t : Nat) : Act Unit := emit (.dly t)

/-- `SendCmd(k)` (R104). -/
def sendCmd (k : Byte) : Act Unit := emit (.cmd k)

/-- `SendData(d)` (R104). -/
def sendData (d : Byte) : Act Unit := emit (.dat d)

/-- The read of an admitted range (R13): the bytes little-endian, or any value if the host changed one of them under
the command (R63, log 7). -/
def performRead (a n : Nat) : Act Nat := fun s =>
  let done := { s with memReads := s.memReads ++ [{ addr := a, width := n }] }
  if s.racy.any fun b => decide (a ≤ b) && decide (b < a + n) then
    .ok ((Config.freeRead s.draws).toNat % 256 ^ n) { done with draws := s.draws + 1 }
  else .ok (Memory.readLE s.mem a n) done

/-- `MemRead(a, n)` (R13): a read that is not admitted raises `MEM_ERROR` with its address. -/
def memRead (a n : Nat) : Act Nat := do
  let p ← peek fun s => s.params
  hostTurn
  if p.readable a n then performRead a n else enterFault .memError 0 n (some a)

/-- The host is asked for a sample (R14). -/
def requestSample (req : SampleReq) (s : State) : State :=
  { s with sampleReq := some req, sampleLog := s.sampleLog ++ [req] }

/-- The host's answer to the pending request (R14): the next one it has ready, else a free value (U8, log 5). -/
def answerSample : Act Bool := fun s =>
  match s.samples with
  | b :: rest => .ok b { s with sampleReq := none, samples := rest }
  | [] => .ok (Config.freeSample s.draws) { s with sampleReq := none, draws := s.draws + 1 }

/-- `Sample(width, height, w, h)` (R14): the request, then its answer (log 17). -/
def sample (req : SampleReq) : Act Bool := do
  hostTurn
  update (requestSample req)
  hostTurn
  answerSample

/-- One reading of the busy line (R15): the next level it has, else a free value (U7, log 5). -/
def readBusyLevel : Act Bool := fun s =>
  match s.busyLine with
  | v :: rest => .ok v (pushEvent (.busy v) { s with busyLine := rest })
  | [] => .ok (Config.freeLevel s.draws) (pushEvent (.busy (Config.freeLevel s.draws)) { s with draws := s.draws + 1 })

/-- `ReadBusy()` (R15): true when the panel is busy. -/
def readBusy : Act Bool := do
  hostTurn
  let v ← readBusyLevel
  let active ← peek fun s => s.params.busyActiveLevel
  pure (v == active)

/-! ### Brackets -/

/-- `Select()` (R102). The `CMD_OVERRUN` of a `CMD` write between `BEGIN` and `Sel <- true` closes the bracket, as fault entry
closes any open one (R122, R183): DEDUCED (log 3), unsafe. -/
def select : Act Unit := do
  whenShared (emit .acq)
  emit .bgn
  hostTurnFrom (setSel true)
  update (setSel true)

/-- `Unselect()` (R103). -/
def unselect : Act Unit := do
  emit .fin
  whenShared (emit .rel)
  hostTurn
  update (setSel false)

/-- A command of the host's own protocol traffic needs an open bracket (R116, R117, R118). -/
def needBracket : Act Unit := do
  let sel ← peek fun s => s.sel
  if sel then pure () else raise .bracket 2 0

/-! ### Frames and the address window -/

/-- The data bytes of a frame, in order (R93). -/
def sendDataList : List Byte → Act Unit
  | [] => pure ()
  | d :: rest => do
    sendData d
    sendDataList rest

/-- One frame: the command byte, then its data bytes (R93). -/
def sendFrame (f : Frame) : Act Unit := do
  sendCmd f.cmd
  sendDataList f.data

/-- `Frames(F)` (R93). -/
def sendFrames : List Frame → Act Unit
  | [] => pure ()
  | f :: rest => do
    sendFrame f
    sendFrames rest

/-- The check part of `SetAddressInternal` (R111): the first value out of range is reported. -/
def checkWindow (xs xe ys ye : Int) : Act Unit := do
  let p ← peek fun s => s.params
  if ¬(0 ≤ xs ∧ xs < p.xbytes) then raise .windowRange 0 xs
  else if ¬(0 ≤ xe ∧ xe < p.xbytes) then raise .windowRange 1 xe
  else if ¬(0 ≤ ys ∧ ys < p.gates) then raise .windowRange 2 ys
  else if ¬(0 ≤ ye ∧ ye < p.gates) then raise .windowRange 3 ye
  else pure ()

/-- `low8(v)` (R10). -/
def low8 (v : Int) : Byte := BitVec.ofInt 8 v

/-- `YBytes(v)` (R113). -/
def yBytes (p : Params) (v : Int) : List Byte := if p.ywide then [low8 v, low8 (v / 256)] else [low8 v]

/-- The five frames of `SetAddressInternal`, in order (R112, R113, R114). -/
def windowFrames (p : Params) (xs xe ys ye : Int) : List Frame :=
  [ { cmd := p.variant.kRamX, data := [low8 xs, low8 xe] },
    { cmd := p.variant.kRamY, data := yBytes p ys ++ yBytes p ye },
    { cmd := p.variant.kXCnt, data := [low8 xs] },
    { cmd := p.variant.kYCnt, data := yBytes p ys },
    { cmd := p.variant.kWRam, data := [] } ]

/-- `SetAddressInternal(xs, xe, ys, ye)` (R111 to R114). -/
def setAddressInternal (xs xe ys ye : Int) : Act Unit := do
  checkWindow xs xe ys ye
  let p ← peek fun s => s.params
  sendFrames (windowFrames p xs xe ys ye)

/-! ### The run of one command -/

/-- The acceptance checks that depend on the command (R183): a command that opens its own bracket raises `BRACKET` 3
while one is open, a command that needs a panel raises `CONFIG` 0 before PANEL_INIT. -/
def acceptance (ownBracket needsPanel : Bool) : Act Unit := do
  let sel ← peek fun s => s.sel
  let panel ← peek fun s => s.panelInit
  if ownBracket && sel then raise .bracket 3 0
  else if needsPanel && !panel then raise .config 0 0
  else pure ()

/-- The last of some changes, none where there are none. -/
def lastOf (changes : List (State → State)) : State → State := changes.getLast?.getD id

/-- The register writes of a command, in order, with the host's turn between any two (R17). The `CMD_OVERRUN` of a `CMD`
write there, `BUSY` being 1 (R183, R204), leaves the registers as they were before the first (R185): DEDUCED (log 4), unsafe.
No turn stands between the last write, of `CState` or a valid bit where the command has one, and completion: a `CMD` write
there would have to fault (R204), and could neither leave the bit set (R185) nor clear it (R35): DEDUCED (log 4), unsafe. -/
def commit (writes : List (State → State)) : Act Unit := do
  let before ← peek id
  inTurn (hostTurnFrom fun s => s.withRegisters before) writes.dropLast
  update (lastOf writes)

/-- A command from acceptance to its end (R183): the checks, the steps of its rule, its register writes, completion. -/
def runCommand {α : Type} (ownBracket needsPanel : Bool) (body : Act α) (writes : α → List (State → State)) (s : State) :
    State :=
  let whole : Act Unit := do
    acceptance ownBracket needsPanel
    let a ← body
    hostTurn
    commit (writes a)
  match whole s with
  | .ok _ s' => endCommand s'
  | .error _ s' => s'

/-- A command that writes no register. -/
def noWrites (_ : Unit) : List (State → State) := []

end Sys2Proof.Machine
end

