-- ==== Sys2Proof/Machine/Controller.lean ====
section
/-! DEFINITION. The controller commands (40_controller.md): NOP, START, STOP, UPDATE, SELECT, UNSELECT, SEND_CMD,
SEND_DATA, SET_ADDRESS, one meaning each. -/

namespace Sys2Proof.Machine

/-- `NOP` (R108). -/
def execNop (s : State) : Host.Outcome State Fault Refusal :=
  .next (runCommand false false (pure ()) noWrites s)

/-- The steps of START (R105). -/
def startBody : Act Unit := do
  let p ← peek fun s => s.params
  emit .xon
  select
  emit (.rst false)
  wait p.tRstLow
  emit (.rst true)
  wait p.tRstHigh
  sendFrames p.variant.fDem
  sendFrames p.variant.fVcom
  sendFrames p.variant.fBorder
  sendFrames p.variant.fEnable
  sendFrames p.variant.fLut
  unselect

/-- `START` (R105). -/
def execStart (s : State) : Host.Outcome State Fault Refusal :=
  .next (runCommand true false startBody (fun _ => [fun t => { t with cstate := .started }]) s)

/-- The steps of STOP (R107). -/
def stopBody : Act Unit := do
  let p ← peek fun s => s.params
  select
  sendFrames p.variant.fDisable
  sendFrames p.variant.fSleep
  unselect
  emit .xoff

/-- `STOP` (R107). -/
def execStop (s : State) : Host.Outcome State Fault Refusal :=
  .next (runCommand true false stopBody (fun _ => [fun t => { t with cstate := .stopped }]) s)

/-- One pass of UPDATE's poll loop (R106): true when the panel is busy and the block has waited. -/
def pollOnce : Act Bool := do
  let p ← peek fun s => s.params
  let busy ← readBusy
  if busy then do
    wait p.pollInterval
    pure true
  else pure false

/-- The steps of UPDATE before its poll loop (R106). -/
def updateBody : Act Unit := do
  let p ← peek fun s => s.params
  select
  sendFrames p.variant.fActivate
  unselect

/-- The state after a pass of the poll loop (R106): the loop goes on, or UPDATE completes, or it has ended by a fault or
a reset in between (R183, R200). -/
def afterPoll (r : EStateM.Result Unit State Bool) : State :=
  match r with
  | .ok true s => s
  | .ok false s =>
    match hostTurn s with
    | .ok _ s' => endCommand s'
    | .error _ s' => s'
  | .error _ s => s

/-- A pass of the poll loop of the UPDATE in progress (R106, R209). -/
def pollTurn (s : State) : State := afterPoll (pollOnce s)

/-- `UPDATE` (R106): the activate frames, then the poll loop, a state of the block (log 14), with its first pass. -/
def execUpdate (s : State) : Host.Outcome State Fault Refusal :=
  let first : Act Bool := do
    acceptance true false
    updateBody
    update fun t => { t with poll := true }
    pollOnce
  .next (afterPoll (first s))

/-- The steps of SELECT (R109). -/
def selectBody : Act Unit := do
  let sel ← peek fun s => s.sel
  if sel then raise .bracket 0 0 else select

/-- `SELECT` (R109). -/
def execSelect (s : State) : Host.Outcome State Fault Refusal :=
  .next (runCommand false false selectBody noWrites s)

/-- The steps of UNSELECT (R110). -/
def unselectBody : Act Unit := do
  let sel ← peek fun s => s.sel
  if sel then unselect else raise .bracket 1 0

/-- `UNSELECT` (R110). -/
def execUnselect (s : State) : Host.Outcome State Fault Refusal :=
  .next (runCommand false false unselectBody noWrites s)

/-- The steps of SEND_CMD (R117). -/
def sendCmdBody : Act Unit := do
  let b ← peek byteOperand
  needBracket
  sendCmd b

/-- `SEND_CMD` (R117). -/
def execSendCmd (s : State) : Host.Outcome State Fault Refusal :=
  .next (runCommand false false sendCmdBody noWrites s)

/-- The steps of SEND_DATA (R118). -/
def sendDataBody : Act Unit := do
  let b ← peek byteOperand
  needBracket
  sendData b

/-- `SEND_DATA` (R118). -/
def execSendData (s : State) : Host.Outcome State Fault Refusal :=
  .next (runCommand false false sendDataBody noWrites s)

/-- The steps of SET_ADDRESS (R116). -/
def setAddressBody : Act Unit := do
  let xs ← peek fun s => coord s 0
  let xe ← peek fun s => coord s 1
  let ys ← peek fun s => coord s 2
  let ye ← peek fun s => coord s 3
  needBracket
  setAddressInternal xs xe ys ye

/-- `SET_ADDRESS` (R116). -/
def execSetAddress (s : State) : Host.Outcome State Fault Refusal :=
  .next (runCommand false false setAddressBody noWrites s)

end Sys2Proof.Machine
end

