-- ==== Sys2Proof/Machine/Packetizer.lean ====
section
/-! DEFINITION. The packetizer (41_packetizer.md): colours and packed bytes, the window transform, the pixel sources,
`DrawBitmapCore`, and PANEL_INIT, SET_BG, FILL_DISPLAY, DRAW_BITMAP, DRAW_FILLED_RECT, one meaning each. -/

namespace Sys2Proof.Machine

/-! ### Packed bytes and windows -/

/-- `ColorByte(c) = c * 0x55` (R131). -/
def colorByte (c : Color) : Byte := BitVec.ofNat 8 (c.toNat * 0x55)

/-- `SlotMask(r) = 0xC0 >> (2*r)` (R133). -/
def slotMask (r : Nat) : Byte := (0xC0#8) >>> (2 * r)

/-- The colour in slot `r` of a packed byte: `(b >> (6 - 2*r)) & 0b11` (R146). -/
def slotColor (b : Byte) (r : Nat) : Color := (b >>> (6 - 2 * r)).setWidth 2

/-- A RAM address window, in integers that may be out of range (R132, R111). -/
structure Window where
  xs : Int
  xe : Int
  ys : Int
  ye : Int
deriving DecidableEq, Repr

/-- `WindowOf(x, y, width, height)` for a panel of width `panelW` (R132). -/
def windowOf (panelW x y width height : Int) : Window where
  xs := y / 4
  xe := (y + height + 3) / 4 - 1
  ys := panelW - 1 - x
  ye := panelW - 1 - (x - 1 + width)

/-! ### Pixel sources -/

/-- What answers the per-pixel sample of a draw (R135, R136, R137). -/
inductive PixelSource where
  | solid
  | mem (base : Nat)
  | host
deriving DecidableEq, Repr

/-- `GlyphBit(g, stride, w, h)` (R59). -/
def glyphBit (g stride w h : Nat) : Act Bool := do
  let b ← memRead (g + h * stride + w / 8) 1
  pure (b.testBit (w % 8))

/-- `SrcSample(src, width, height, w, h)` (R135, R136, R137). -/
def srcSample (src : PixelSource) (width height w h : Nat) : Act Bool :=
  match src with
  | .solid => pure true
  | .mem base => glyphBit base ((width + 7) / 8) w h
  | .host => sample { width := width, height := height, w := w, h := h }

/-- The colour byte of one pixel (R138): the drawing colour for a true sample, else the background, which must be set. -/
def pick (fg : Byte) (src : PixelSource) (width height w h : Nat) : Act Byte := do
  let b ← srcSample src width height w h
  let valid ← peek fun s => s.bgValid
  let bg ← peek fun s => s.bg
  if b then pure fg
  else if valid then pure (colorByte bg)
  else raise .bgUnset 0 0

/-! ### The draw procedure -/

/-- The last `left` rows of column `w`, with the accumulator `acc` (R134): a byte is sent after the row in slot 3 or
after the column's last row. -/
def packRows (fg : Byte) (src : PixelSource) (y width height w : Nat) : (left : Nat) → (acc : Byte) → Act Unit
  | 0, _ => pure ()
  | left + 1, acc => do
    let h := height - (left + 1)
    let r := (y + h) % 4
    let c ← pick fg src width height w h
    let acc := acc ||| (c &&& slotMask r)
    if r = 3 ∨ h + 1 = height then do
      sendData acc
      packRows fg src y width height w left 0
    else packRows fg src y width height w left acc

/-- The last `left` columns of a draw, left to right (R138). -/
def packColumns (fg : Byte) (src : PixelSource) (y width height : Nat) : (left : Nat) → Act Unit
  | 0 => pure ()
  | left + 1 => do
    packRows fg src y width height (width - (left + 1)) height 0
    packColumns fg src y width height left

/-- `DrawBitmapCore(color, x, y, width, height, src)` (R138). -/
def drawBitmapCore (color : Color) (x y width height : Nat) (src : PixelSource) : Act Unit := do
  let panelW ← peek fun s => s.panelW.toNat
  let win := windowOf panelW x y width height
  select
  setAddressInternal win.xs win.xe win.ys win.ye
  packColumns (colorByte color) src y width height width
  unselect

/-! ### The commands -/

/-- The checks of PANEL_INIT (R140). -/
def panelInitBody : Act Unit := do
  let p ← peek fun s => s.params
  let inited ← peek fun s => s.panelInit
  let width ← peek fun s => coord s 0
  let height ← peek fun s => coord s 1
  if inited then raise .config 1 0
  else if width > p.gates then raise .panelExtent 0 width
  else if height > p.sources then raise .panelExtent 1 height
  else pure ()

/-- `PANEL_INIT` (R140). -/
def execPanelInit (s : State) : Host.Outcome State Fault Refusal :=
  .next (runCommand false false panelInitBody
    (fun _ => [fun t => { t with panelW := coordBits t 0 }, fun t => { t with panelH := coordBits t 1 },
      fun t => { t with panelInit := true }]) s)

/-- `SET_BG` (R141). -/
def execSetBg (color : Color) (s : State) : Host.Outcome State Fault Refusal :=
  .next (runCommand false false (pure ()) (fun _ => [fun t => { t with bg := color }, fun t => { t with bgValid := true }]) s)

/-- `SendData(b)`, `n` times. -/
def sendRepeated (b : Byte) : Nat → Act Unit
  | 0 => pure ()
  | n + 1 => do
    sendData b
    sendRepeated b n

/-- The steps of FILL_DISPLAY (R142). -/
def fillDisplayBody (color : Color) : Act Unit := do
  let w ← peek fun s => s.panelW.toNat
  let h ← peek fun s => s.panelH.toNat
  if h % 4 ≠ 0 then raise .unspecified 0 h
  else do
    select
    setAddressInternal 0 ((h : Int) / 4 - 1) ((w : Int) - 1) 0
    sendRepeated (colorByte color) (w * (h / 4))
    unselect

/-- `FILL_DISPLAY` (R142). -/
def execFillDisplay (color : Color) (s : State) : Host.Outcome State Fault Refusal :=
  .next (runCommand true true (fillDisplayBody color) noWrites s)

/-- The pixel source the `SRC` field names (R143); none for the reserved value. -/
def pixelSource (src : Src) (s : State) : Option PixelSource :=
  match src with
  | .solid => some .solid
  | .mem => some (.mem (addrOperand s 4))
  | .host => some .host
  | .reserved => none

/-- A draw whose rectangle is the operands `A0` .. `A3` (R143, R144). -/
def drawOperands (color : Color) (src : PixelSource) : Act Unit := do
  let x ← peek fun s => coord s 0
  let y ← peek fun s => coord s 1
  let width ← peek fun s => coord s 2
  let height ← peek fun s => coord s 3
  drawBitmapCore color x y width height src

/-- `DRAW_BITMAP` (R143). The reserved source is illegal (R89): DEDUCED for a command that no word decodes to (log 18), safe. -/
def execDrawBitmap (color : Color) (src : Src) (s : State) : Host.Outcome State Fault Refusal :=
  match pixelSource src s with
  | some source => .next (runCommand true true (drawOperands color source) noWrites s)
  | none => .next (endOf (raiseIllegal .reservedSrc) s)

/-- `DRAW_FILLED_RECT` (R144). -/
def execDrawFilledRect (color : Color) (s : State) : Host.Outcome State Fault Refusal :=
  .next (runCommand true true (drawOperands color .solid) noWrites s)

end Sys2Proof.Machine
end

