-- ==== Sys2Proof/Machine/Text.lean ====
section
/-! DEFINITION. The text compositor (42_text.md): font access, the width of a text, and SET_FONT, GET_TEXT_WIDTH,
DRAW_TEXT, one meaning each. -/

namespace Sys2Proof.Machine

/-! ### Font access -/

/-- The header fields of a font that a command has read (R57, R160). -/
structure FontHeader where
  first : Nat
  last  : Nat
  gh    : Nat
deriving DecidableEq, Repr

/-- The header reads, in the order `first`, `last`, `gh` (R57, R160). -/
def readHeader (f : Nat) : Act FontHeader := do
  let first ← memRead (f + 2) 2
  let last ← memRead (f + 4) 2
  let gh ← memRead (f + 6) 1
  pure { first := first, last := last, gh := gh }

/-- `Entry(f, first, c)` (R58, R161). -/
def readEntry (f first c : Nat) : Act Nat := memRead (f + 8 + 4 * (c - first)) 4

/-- The glyph width of an entry: bits 7:0 (R58). -/
def entryWidth (e : Nat) : Nat := e % 256

/-- The glyph offset of an entry: bits 31:8 (R58). -/
def entryOffset (e : Nat) : Nat := e / 256

/-- The representable test (R163). -/
def representable (first last c : Nat) : Bool := decide (first ≤ c) && decide (c ≤ last)

/-- `TextWidth` from byte `i` on, `left` bytes to go and `tw` summed so far (R164). -/
def textWidthFrom (f first last t : Nat) : (left : Nat) → (i : Nat) → (tw : Nat) → Act Nat
  | 0, _, tw => pure tw
  | left + 1, i, tw => do
    let c ← memRead (t + i) 1
    if representable first last c then do
      let e ← readEntry f first c
      textWidthFrom f first last t left (i + 1) (tw + entryWidth e)
    else textWidthFrom f first last t left (i + 1) tw

/-- `TextWidth(f, first, last, t, n)` (R164). -/
def textWidth (f first last t n : Nat) : Act Nat := textWidthFrom f first last t n 0 0

/-! ### The commands -/

/-- The steps of SET_FONT (R165). -/
def setFontBody : Act Unit := do
  let f ← peek fun s => addrOperand s 4
  let hdr ← readHeader f
  let panelH ← peek fun s => s.panelH.toNat
  if hdr.first > hdr.last then raise .fontHeader 0 hdr.first
  else if hdr.gh > panelH then raise .fontHeader 1 hdr.gh
  else pure ()

/-- `SET_FONT` (R165). -/
def execSetFont (s : State) : Host.Outcome State Fault Refusal :=
  .next (runCommand false true setFontBody (fun _ => [fun t => { t with fontBase := addrBits t 4 }, fun t => { t with fontValid := true }]) s)

/-- The steps of GET_TEXT_WIDTH (R166): the header's `gh` is not read. -/
def getTextWidthBody : Act Nat := do
  let f ← peek fun s => addrOperand s 4
  let t ← peek fun s => addrOperand s 5
  let n ← peek lengthOperand
  let first ← memRead (f + 2) 2
  let last ← memRead (f + 4) 2
  textWidth f first last t n

/-- `GET_TEXT_WIDTH` (R166). -/
def execGetTextWidth (s : State) : Host.Outcome State Fault Refusal :=
  .next (runCommand false false getTextWidthBody (fun tw => [fun t => { t with result := BitVec.ofNat 32 tw }]) s)

/-- The start column of a text (R167, R168): only `CENTER` and `RIGHT` compute the width. The subtraction stops at 0. -/
def startColumn (align : Align) (x f first last t n : Nat) : Act Nat :=
  match align with
  | .center => do
    let tw ← textWidth f first last t n
    pure (x - tw / 2)
  | .right => do
    let tw ← textWidth f first last t n
    pure (x - tw)
  | .left | .reserved => pure x

/-- The draw pass of DRAW_TEXT from byte `i` on, `left` bytes to go, cursor at `cx` (R167, R169): a code that is not
representable is skipped, and a glyph that would pass the right edge ends the command. -/
def drawGlyphs (color : Color) (y f t panelW : Nat) (hdr : FontHeader) : (left : Nat) → (i : Nat) → (cx : Nat) → Act Unit
  | 0, _, _ => pure ()
  | left + 1, i, cx => do
    let c ← memRead (t + i) 1
    if representable hdr.first hdr.last c then do
      let e ← readEntry f hdr.first c
      if cx + entryWidth e > panelW then pure ()
      else do
        drawBitmapCore color cx y (entryWidth e) hdr.gh (.mem (f + entryOffset e))
        drawGlyphs color y f t panelW hdr left (i + 1) (cx + entryWidth e)
    else drawGlyphs color y f t panelW hdr left (i + 1) cx

/-- The steps of DRAW_TEXT once a font is known to be set (R167). -/
def drawTextWithFont (color : Color) (align : Align) : Act Unit := do
  let x ← peek fun s => coord s 0
  let y ← peek fun s => coord s 1
  let t ← peek fun s => addrOperand s 5
  let n ← peek lengthOperand
  let f ← peek fun s => s.fontBase.toNat
  let panelW ← peek fun s => s.panelW.toNat
  let panelH ← peek fun s => s.panelH.toNat
  let hdr ← readHeader f
  if y + hdr.gh > panelH then pure ()
  else do
    let cx ← startColumn align x f hdr.first hdr.last t n
    drawGlyphs color y f t panelW hdr n 0 cx

/-- The steps of DRAW_TEXT (R167). -/
def drawTextBody (color : Color) (align : Align) : Act Unit := do
  let valid ← peek fun s => s.fontValid
  if valid then drawTextWithFont color align else raise .noFont 0 0

/-- `DRAW_TEXT` (R167). The reserved alignment is illegal (R89): DEDUCED for a command that no word decodes to (log 18), safe. -/
def execDrawText (color : Color) (align : Align) (s : State) : Host.Outcome State Fault Refusal :=
  if align = .reserved then .next (endOf (raiseIllegal .reservedAlign) s)
  else .next (runCommand true true (drawTextBody color align) noWrites s)

end Sys2Proof.Machine
end

