-- ==== Sys2Proof/Machine/Dispatch.lean ====
section
/-! DEFINITION. The command a word decodes to, run from its acceptance on (rule R183): one arm per constructor of
`Instr`, each one call of that command's meaning. -/

namespace Sys2Proof.Machine

def exec (i : Instr) (s : State) : Host.Outcome State Fault Refusal :=
  match i with
  | .nop => Sys2Proof.Machine.execNop s
  | .start => Sys2Proof.Machine.execStart s
  | .stop => Sys2Proof.Machine.execStop s
  | .update => Sys2Proof.Machine.execUpdate s
  | .select => Sys2Proof.Machine.execSelect s
  | .unselect => Sys2Proof.Machine.execUnselect s
  | .sendCmd => Sys2Proof.Machine.execSendCmd s
  | .sendData => Sys2Proof.Machine.execSendData s
  | .setAddress => Sys2Proof.Machine.execSetAddress s
  | .panelInit => Sys2Proof.Machine.execPanelInit s
  | .setBg color => Sys2Proof.Machine.execSetBg color s
  | .fillDisplay color => Sys2Proof.Machine.execFillDisplay color s
  | .drawBitmap color src => Sys2Proof.Machine.execDrawBitmap color src s
  | .drawFilledRect color => Sys2Proof.Machine.execDrawFilledRect color s
  | .setFont => Sys2Proof.Machine.execSetFont s
  | .getTextWidth => Sys2Proof.Machine.execGetTextWidth s
  | .drawText color align => Sys2Proof.Machine.execDrawText color align s

end Sys2Proof.Machine
end

