-- ==== Sys2Proof/Machine/Accept.lean ====
section
/-! DEFINITION. Acceptance of a `CMD` write (rule R183) and the host's actions on a block that runs no command
(rules R82, R94, R200, R217). -/

namespace Sys2Proof.Machine

/-- The latching of a command (R36, R183): the word and the operands are copied and `BUSY` rises. -/
def latch (value : Word) (s : State) : State := { s with cmdL := value, opL := s.args, busy := true }

/-- A host write of `CMD` (R183): ignored while halted, `CMD_OVERRUN` while a command runs, else the word is latched,
decoded, and run or refused as `ILLEGAL`. -/
def acceptCommand (value : Word) (s : State) : Host.Outcome State Fault Refusal :=
  if s.fault then .next s
  else if s.busy then .next (endOf (overrun value) { s with host := .write 0 4 value :: s.host })
  else match decode value with
    | .error k => .next (endOf (raiseIllegal k) (latch value s))
    | .ok i => exec i (latch value s)

/-- A reset, the only action of the platform and not of the host program (R200). -/
def HostAction.isReset : HostAction → Bool
  | .reset => true
  | .write _ _ _ | .read _ _ | .waitIdle | .pause | .poke _ _ => false

/-- What is left to do after a host program has stopped at its `WAITIDLE` (R94): what follows the next reset (R215). DEDUCED (log 16), safe. -/
def afterStop (rest : List HostAction) : List HostAction := rest.dropWhile fun a => !a.isReset

/-- The action `a` of the host on a block that is not in a poll loop; `s` has the actions after it still to do. -/
def takeAction (a : HostAction) (s : State) : Host.Outcome State Fault Refusal :=
  match a with
  | .write off size value =>
    if accessOk off size then
      if off = 0 then acceptCommand value s else .next (writeReg off value s)
    else .refused (.badAccess off size)
  | .read off size => if accessOk off size then .next (hostRead off s) else .refused (.badAccess off size)
  | .waitIdle =>
    if s.busy then .next { s with host := .waitIdle :: s.host }
    else if s.fault then .next { s with host := afterStop s.host }
    else .next s
  | .pause => .next s
  | .poke addr v => .next (hostPoke addr v s)
  | .reset => .next (applyReset s)

/-- The host's next action on a block that is not in a poll loop. With nothing left to do the block stays idle (log 11). -/
def takeHost (s : State) : Host.Outcome State Fault Refusal :=
  match s.host with
  | [] => .next s
  | a :: rest => takeAction a { s with host := rest }

/-- The write of a command word that a command line ends with, and its `WAITIDLE` (R95). -/
def issue (w : Word) : List HostAction := [.write 0 4 w, .waitIdle]

/-- The register writes of a command line: `WR Ai` for each operand given, in ascending `i` (R95). -/
def writeOperands : (i : Nat) → List (Option Word) → List HostAction
  | _, [] => []
  | i, none :: rest => writeOperands (i + 1) rest
  | i, some v :: rest => .write (BitVec.ofNat 7 (0x40 + 4 * i)) 4 v :: writeOperands (i + 1) rest

/-- The expansion of a command line (R95): the operand writes, the command word, the wait. -/
def commandLine (i : Instr) (operands : List (Option Word)) : List HostAction :=
  writeOperands 0 operands ++ issue (encode i)

end Sys2Proof.Machine
end

