-- ==== Sys2Proof/Machine/Step.lean ====
section
/-! DEFINITION. One step of the machine: a pass of the poll loop of an UPDATE in progress, or else the host's next
action, which for an accepted `CMD` write is the whole command (rule R17, log 2). -/

namespace Sys2Proof.Machine

/-- One step. -/
def step (s : State) : Host.Outcome State Fault Refusal :=
  if s.poll then .next (pollTurn s) else takeHost s

/-- The state in which the next host action issues the command whose word spec/opcode_table.json numbers `w` (R95, log 11). -/
def State.withFetchWord (s : State) (nbits w : Nat) : State := { s with host := issue (tableWord nbits w) ++ s.host }

end Sys2Proof.Machine
end

