-- ==== Sys2Proof/Machine/Observer.lean ====
section
/-! DEFINITION. The informative observer of the controller's RAM (rules R70 to R75). It is no part of the block: no
operation of the block reads it. It is a function of the events emitted and of `CState` when they were (rule R74). -/

namespace Sys2Proof.Machine

/-- The observer (R70, R71): the RAM bytes it knows, by RAM y and RAM x address, the window and counters, the flag `Wr`,
the last command byte with the data bytes since it, whether the transport is powered (R74), and whether an `END` has
come with no `CMD` after it (R71). A window value or counter not sent yet is `none`: DESIGN CHOICE (log 15), safe. -/
structure Observer where
  ram     : List ((Nat × Nat) × Byte)
  xs      : Option Nat
  xe      : Option Nat
  ys      : Option Nat
  ye      : Option Nat
  xc      : Option Nat
  yc      : Option Nat
  wr      : Bool
  cmd     : Option Byte
  data    : List Byte
  powered : Bool
  closed  : Bool
deriving DecidableEq, Repr

/-- The observer before any event: every byte unknown (R70). -/
def Observer.init : Observer where
  ram := []
  xs := none
  xe := none
  ys := none
  ye := none
  xc := none
  yc := none
  wr := false
  cmd := none
  data := []
  powered := false
  closed := false

/-- Every RAM byte becomes unknown (R74). -/
def Observer.forget (o : Observer) : Observer := { o with ram := [] }

/-- `RAM[ya][xa]`, `none` while unknown (R70). -/
def Observer.byteAt (o : Observer) (ya xa : Nat) : Option Byte := (o.ram.find? fun c => c.1 == (ya, xa)).map fun c => c.2

/-- `RAM[ya][xa] <- b` (R72). -/
def Observer.store (o : Observer) (ya xa : Nat) (b : Byte) : Observer :=
  { o with ram := ((ya, xa), b) :: o.ram.filter fun c => c.1 != (ya, xa) }

/-- `YC` after the X range is done (R72). It is unknown where `YC` or `YE` is, and where it would fall below 0: DESIGN
CHOICE (log 15), safe. -/
def Observer.nextRow (o : Observer) : Option Nat :=
  match o.yc, o.ye with
  | some yc, some ye => if yc = ye then o.ys else if yc = 0 then none else some (yc - 1)
  | _, _ => none

/-- The move of the counters after a write (R72). Where `XC` or `XE` is unknown, so is whether the X range is done, and
both counters are unknown after it: DESIGN CHOICE (log 15), safe. -/
def Observer.advance (o : Observer) : Observer :=
  match o.xc, o.xe with
  | some xc, some xe => if xc = xe then { o with xc := o.xs, yc := o.nextRow } else { o with xc := some (xc + 1) }
  | _, _ => { o with xc := none, yc := none }

/-- The RAM after a write of `b` (R72, R74): outside `STARTED`, without power, or at an address that is unknown or outside
the RAM (log 15), the whole RAM is unknown. -/
def Observer.writeRam (p : Params) (started : Bool) (b : Byte) (o : Observer) : Observer :=
  match o.xc, o.yc with
  | some xc, some yc =>
    if started && o.powered && decide (xc < p.xbytes) && decide (yc < p.gates) then o.store yc xc b else o.forget
  | _, _ => o.forget

/-- The value of a y address from its bytes (R71). -/
def yValue : List Byte → Nat
  | [] => 0
  | b :: rest => b.toNat + 256 * yValue rest

/-- A data byte that follows one of the four addressing commands (R71); `data` holds the bytes since the command, this one last.
While only a part of a y address has come, its value is unknown; an x or y range of which only the first value comes keeps its
second, and bytes beyond the last value change nothing: DESIGN CHOICE (log 15), unsafe for the observer alone where it keeps
a value. -/
def Observer.readAddress (p : Params) (cmd : Byte) (data : List Byte) (o : Observer) : Observer :=
  if cmd = p.variant.kRamX then
    match data with
    | [x] => { o with xs := some x.toNat }
    | [_, x] => { o with xe := some x.toNat }
    | _ => o
  else if cmd = p.variant.kRamY then
    if data.length < p.yCount then { o with ys := none }
    else if data.length = p.yCount then { o with ys := some (yValue data) }
    else if data.length < 2 * p.yCount then { o with ye := none }
    else if data.length = 2 * p.yCount then { o with ye := some (yValue (data.drop p.yCount)) }
    else o
  else if cmd = p.variant.kXCnt then
    match data with
    | [x] => { o with xc := some x.toNat }
    | _ => o
  else if cmd = p.variant.kYCnt then
    if data.length < p.yCount then { o with yc := none }
    else if data.length = p.yCount then { o with yc := some (yValue data) }
    else o
  else o

/-- A data byte by the last command byte: a write of the RAM while `Wr` is set, else a byte of an address (R71, R72). -/
def Observer.readData (p : Params) (started : Bool) (b : Byte) (o : Observer) : Observer :=
  if o.wr then (o.writeRam p started b).advance
  else match o.cmd with
    | none => o
    | some cmd => Observer.readAddress p cmd (o.data ++ [b]) { o with data := o.data ++ [b] }

/-- A data byte (R71): one that comes after `END` with no `CMD` after it makes the whole RAM unknown. -/
def Observer.takeData (p : Params) (started : Bool) (b : Byte) (o : Observer) : Observer :=
  if o.closed then (o.readData p started b).forget else o.readData p started b

/-- One event, emitted while `CState` = `STARTED` or not (R71, R72, R74). `Wr` is cleared by every `CMD` but `K_WRAM`, the
four addressing commands included, whose data bytes are addresses (R71): DESIGN CHOICE (log 15), unsafe for the observer
alone. -/
def Observer.see (p : Params) (started : Bool) (o : Observer) (e : Event) : Observer :=
  match e with
  | .xon => { o with powered := true }
  | .xoff => { o.forget with powered := false }
  | .rst false => o.forget
  | .cmd b => { o with wr := b == p.variant.kWRam, cmd := some b, data := [], closed := false }
  | .dat b => o.takeData p started b
  | .fin => { o with closed := true }
  | .rst true | .acq | .rel | .bgn | .dly _ | .busy _ => o

/-- The observer after a step from `s` to `t`: it has seen the events of that step, all of them emitted with the `CState`
of `s`, because `CState` changes only when a command completes (R101). Where the block is in reset state after the step,
or was never started, the RAM is unknown (R203). -/
def Observer.follow (s t : State) (o : Observer) : Observer :=
  let seen := (t.trace.drop s.trace.length).foldl (Observer.see s.params (s.cstate == .started)) o
  if t.cstate = .uninit then seen.forget else seen

/-- `Pixel(px, py)` (R73), `none` while its byte is unknown, and outside the panel (log 15). -/
def Observer.pixel (o : Observer) (panelW panelH px py : Nat) : Option Color :=
  if px < panelW ∧ py < panelH then (o.byteAt (panelW - 1 - px) (py / 4)).map fun b => slotColor b (py % 4) else none

end Sys2Proof.Machine
end

