-- ==== Sys2Proof/Safety.lean ====
section
/-! DEFINITION. What counts as a safe run (rules R215, R216), and the terms the claims use: a quiet host, the events and
bytes a command sends when nothing disturbs it, the bracket discipline of a trace, the invariant of the block. -/

namespace Sys2Proof.Machine

/-! ### Runs -/

/-- `n` steps, up to the first one that is refused. -/
def runSteps : Nat → State → Host.Outcome State Fault Refusal
  | 0, s => .next s
  | n + 1, s =>
    match step s with
    | .next t => runSteps n t
    | .fault r => .fault r
    | .refused r => .refused r

/-- A run has ended (R215): the host has no action left and `BUSY` = 0. -/
def State.runEnded (s : State) : Bool := s.host.isEmpty && !s.busy

/-- A run has ended successfully (R215). -/
def State.runSucceeded (s : State) : Bool := s.runEnded && !s.fault && !s.sel

/-- The level of the busy line at its sample number `k` from now on (R15): the levels it has, then free values (log 5). -/
def State.levelAt (s : State) (k : Nat) : Bool :=
  match s.busyLine[k]? with
  | some v => v
  | none => Config.freeLevel (s.draws + (k - s.busyLine.length))

/-- The answer the host gives to its sample request number `k` from now on (R14): the answers it has, then free values (log 5). -/
def State.answerAt (s : State) (k : Nat) : Bool :=
  match s.samples[k]? with
  | some b => b
  | none => Config.freeSample (s.draws + (k - s.samples.length))

/-- The state once the busy line was sampled `n` more times. -/
def State.afterLevels (s : State) (n : Nat) : State :=
  { s with busyLine := s.busyLine.drop n, draws := s.draws + (n - s.busyLine.length) }

/-- The state once the host has answered `n` more sample requests. -/
def State.afterAnswers (s : State) (n : Nat) : State :=
  { s with samples := s.samples.drop n, draws := s.draws + (n - s.samples.length) }

/-- The premise of rule R216: some later sample of the busy line reads "not busy". -/
def BusyEventuallyClears (s : State) : Prop := ∃ k, s.levelAt k ≠ s.params.busyActiveLevel

/-- No reset is among the actions the host has still to do. -/
def State.noReset (s : State) : Bool := s.host.all fun a => !a.isReset

/-- A host that does not act under a running command (R204): it has nothing to do, or waits for idle. -/
def State.quiet (s : State) : Bool :=
  match s.host with
  | [] => true
  | .waitIdle :: _ => true
  | _ => false

/-- How many of the steps that cross the interface were taken so far: events, host-memory reads, sample requests (R17). -/
def State.stepsDone (s : State) : Nat := s.trace.length + s.memReads.length + s.sampleLog.length

/-- How many turns the host has among the register writes at a command's end: one between any two of them (R17, R140, R141,
R165), none between the last and completion (log 4). -/
def writeTurns : Instr → Nat
  | .panelInit => 2
  | .setBg _ | .setFont => 1
  | .start | .stop | .getTextWidth | .nop | .update | .select | .unselect | .sendCmd | .sendData | .setAddress | .fillDisplay _ | .drawBitmap _ _
  | .drawFilledRect _ | .drawText _ _ => 0

/-! ### What an undisturbed command sends -/

/-- The events of a frame list (R93). -/
def frameEvents (fs : List Frame) : List Event := fs.flatMap fun f => Event.cmd f.cmd :: f.data.map Event.dat

/-- The events that open a bracket (R102). -/
def openEvents (p : Params) : List Event := if p.sharedBus then [.acq, .bgn] else [.bgn]

/-- The events that close a bracket (R103). -/
def closeEvents (p : Params) : List Event := if p.sharedBus then [.fin, .rel] else [.fin]

/-- A bracket has been opened (R102). -/
def openBracket (s : State) : State := { s.emitted (openEvents s.params) with sel := true }

/-- A bracket has been closed (R103). -/
def closeBracket (s : State) : State := { s.emitted (closeEvents s.params) with sel := false }

/-- The registers of a halted block (R185): the record, `Sel` and `BUSY` clear, `FAULT` set. -/
def faultRegisters (cause : Cause) (detail : Nat) (value : Int) (addr : Option Nat) (s : State) : State :=
  endCommand { s with
    cause := cause
    faultInfo := faultInfoWord (opcField s.cmdL) detail value
    faultAddr := match addr with
      | some a => BitVec.ofNat 32 a
      | none => s.faultAddr
    sel := false
    fault := true }

/-- A fault was entered, and nothing disturbed it (R185): an open bracket closed, then the registers. -/
def faultEntry (cause : Cause) (detail : Nat) (value : Int) (addr : Option Nat) (s : State) : State :=
  faultRegisters cause detail value addr (s.emitted (if s.sel then closeEvents s.params else []))

/-- A command that emitted `es` and completed (R183): `BUSY` = 0, the transient state is gone. -/
def State.completed (s : State) (es : List Event) : State := endCommand (s.emitted es)

/-- A window passes the check of rule R111. -/
def Window.inRange (p : Params) (w : Window) : Bool :=
  decide (0 ≤ w.xs) && decide (w.xs < p.xbytes) && decide (0 ≤ w.xe) && decide (w.xe < p.xbytes) &&
  decide (0 ≤ w.ys) && decide (w.ys < p.gates) && decide (0 ≤ w.ye) && decide (w.ye < p.gates)

/-- The first value of a window that is out of range, with its number (R111). -/
def Window.firstBad (p : Params) (w : Window) : Option (Nat × Int) :=
  if w.xs < 0 ∨ (p.sources / 4 : Nat) ≤ w.xs then some (0, w.xs)
  else if w.xe < 0 ∨ (p.sources / 4 : Nat) ≤ w.xe then some (1, w.xe)
  else if w.ys < 0 ∨ p.gates ≤ w.ys then some (2, w.ys)
  else if w.ye < 0 ∨ p.gates ≤ w.ye then some (3, w.ye)
  else none

/-- The bytes of a y address (R113). -/
def yAddress (p : Params) (v : Int) : List Event :=
  if p.gates > 255 then [.dat (BitVec.ofInt 8 v), .dat (BitVec.ofInt 8 (v / 256))] else [.dat (BitVec.ofInt 8 v)]

/-- The events of an address window: X range, Y range, X counter, Y counter, write RAM (R112, R113, R114). -/
def windowEvents (p : Params) (w : Window) : List Event :=
  [.cmd p.variant.kRamX, .dat (BitVec.ofInt 8 w.xs), .dat (BitVec.ofInt 8 w.xe)] ++
  .cmd p.variant.kRamY :: (yAddress p w.ys ++ yAddress p w.ye) ++
  [.cmd p.variant.kXCnt, .dat (BitVec.ofInt 8 w.xs)] ++
  .cmd p.variant.kYCnt :: yAddress p w.ys ++
  [.cmd p.variant.kWRam]

/-- The window of a draw of the panel of `s` (R132). -/
def State.window (s : State) (x y width height : Nat) : Window := windowOf s.panelW.toNat x y width height

/-- The part of a packed byte that display row `4 * g + r` fills, if the rows `y` to `y + height - 1` cover it; row
`y + h` has the colour byte `pick h` (R133). -/
def slotPart (pick : Nat → Byte) (y height g r : Nat) : Byte :=
  if y ≤ 4 * g + r ∧ 4 * g + r < y + height then pick (4 * g + r - y) &&& slotMask r else 0

/-- The packed byte of RAM x address `g` in one column: its four slots, a slot that no row fills 0 (R133, R134). -/
def groupByte (pick : Nat → Byte) (y height g : Nat) : Byte :=
  slotPart pick y height g 0 ||| slotPart pick y height g 1 ||| slotPart pick y height g 2 ||| slotPart pick y height g 3

/-- The bytes of one column, one for each RAM x address its rows meet (R139). -/
def columnBytes (pick : Nat → Byte) (y height : Nat) : List Byte :=
  if height = 0 then []
  else (List.range ((y + height - 1) / 4 - y / 4 + 1)).map fun k => groupByte pick y height (y / 4 + k)

/-- The bytes of a draw, column by column (R138); pixel `(w, h)` has the colour byte `pick w h`. -/
def drawBytes (pick : Nat → Nat → Byte) (y width height : Nat) : List Byte :=
  (List.range width).flatMap fun w => columnBytes (pick w) y height

/-- The events of a draw (R138). -/
def drawEvents (p : Params) (win : Window) (bytes : List Byte) : List Event :=
  openEvents p ++ windowEvents p win ++ bytes.map Event.dat ++ closeEvents p

/-- The number of bytes a draw has sent when it comes to its pixel number `k`, in drawing order: those of the whole columns
before it, and of the whole groups before it in its column (R134). -/
def bytesBefore (y height k : Nat) : Nat :=
  k / height * ((y + height - 1) / 4 - y / 4 + 1) + ((y + k % height) / 4 - y / 4)

/-- A draw of the packed bytes `bytes` that has come to its pixel number `k`, its bracket open. -/
def State.drawnTo (s : State) (win : Window) (bytes : List Byte) (y height k : Nat) : State :=
  { s.emitted (openEvents s.params ++ windowEvents s.params win ++ (bytes.take (bytesBefore y height k)).map Event.dat) with
    sel := true }

/-- The host-memory address of the byte that holds pixel `(w, h)` of a 1-bit bitmap of a width (R59, R62). -/
def bitmapAddr (base width w h : Nat) : Nat := base + h * ((width + 7) / 8) + w / 8

/-- Pixel `(w, h)` of a 1-bit bitmap in host memory (R59). -/
def bitmapBit (m : Memory) (base width w h : Nat) : Bool :=
  (Memory.read m (bitmapAddr base width w h)).toNat.testBit (w % 8)

/-- The reads of a bitmap, one byte a pixel, column by column (R137, R138). -/
def bitmapReads (base width height : Nat) : List MemReq :=
  (List.range width).flatMap fun w => (List.range height).map fun h => { addr := bitmapAddr base width w h, width := 1 }

/-- The events of START (R105). -/
def startEvents (p : Params) : List Event :=
  .xon :: openEvents p ++ [.rst false, .dly p.tRstLow, .rst true, .dly p.tRstHigh] ++
  frameEvents (p.variant.fDem ++ p.variant.fVcom ++ p.variant.fBorder ++ p.variant.fEnable ++ p.variant.fLut) ++
  closeEvents p

/-- The events of STOP (R107). -/
def stopEvents (p : Params) : List Event :=
  openEvents p ++ frameEvents (p.variant.fDisable ++ p.variant.fSleep) ++ closeEvents p ++ [.xoff]

/-- The events of UPDATE before its poll loop (R106). -/
def activateEvents (p : Params) : List Event := openEvents p ++ frameEvents p.variant.fActivate ++ closeEvents p

/-- The events of the first `n` samples of a poll loop that all read "busy" (R106). -/
def busyEvents (s : State) (n : Nat) : List Event :=
  (List.range n).flatMap fun k => [.busy (s.levelAt k), .dly s.params.pollInterval]

/-- The colour byte of a pixel: the drawing colour for a true sample, the background for a false one (R138). -/
def pixelByte (fg bg : Color) (bit : Bool) : Byte := if bit then colorByte fg else colorByte bg

/-- The sample requests of a draw, column by column (R136, R138). -/
def drawRequests (width height : Nat) : List SampleReq :=
  (List.range width).flatMap fun w => (List.range height).map fun h => { width := width, height := height, w := w, h := h }

/-! ### Fonts and texts in host memory -/

/-- The header of the font at `f` (R57). -/
def headerAt (m : Memory) (f : Nat) : FontHeader where
  first := Memory.readLE m (f + 2) 2
  last := Memory.readLE m (f + 4) 2
  gh := Memory.readLE m (f + 6) 1

/-- The reads of a font header (R160). -/
def headerReads (f : Nat) : List MemReq := [⟨f + 2, 2⟩, ⟨f + 4, 2⟩, ⟨f + 6, 1⟩]

/-- Byte `i` of the text at `t` (R61). -/
def textCode (m : Memory) (t i : Nat) : Nat := Memory.readLE m (t + i) 1

/-- The char-table entry of a code (R58). -/
def entryAt (m : Memory) (f first c : Nat) : Nat := Memory.readLE m (f + 8 + 4 * (c - first)) 4

/-- The width a code adds to a text (R163, R164). -/
def codeWidth (m : Memory) (f first last c : Nat) : Nat :=
  if representable first last c then entryWidth (entryAt m f first c) else 0

/-- The width of the text of `n` bytes at `t` (R164). -/
def widthOf (m : Memory) (f first last t n : Nat) : Nat :=
  ((List.range n).map fun i => codeWidth m f first last (textCode m t i)).sum

/-- The reads of byte `i` of a text: the byte, then its entry if it is representable (R170). -/
def codeReads (m : Memory) (f first last t i : Nat) : List MemReq :=
  ⟨t + i, 1⟩ ::
    if representable first last (textCode m t i) then [⟨f + 8 + 4 * (textCode m t i - first), 4⟩] else []

/-- The reads of the width pass over a text (R170). -/
def widthReads (m : Memory) (f first last t n : Nat) : List MemReq :=
  (List.range n).flatMap fun i => codeReads m f first last t i

/-- A glyph drawn by DRAW_TEXT: its column, its width and its bitmap's host address (R167). -/
structure Glyph where
  cx   : Nat
  gw   : Nat
  base : Nat
deriving DecidableEq, Repr

/-- The glyphs DRAW_TEXT draws from byte `i` of a text on, and the reads it makes, glyph bits included (R167, R169, R170). -/
def glyphPass (m : Memory) (f t panelW : Nat) (hdr : FontHeader) : (left : Nat) → (i cx : Nat) → List Glyph × List MemReq
  | 0, _, _ => ([], [])
  | left + 1, i, cx =>
    let reads := codeReads m f hdr.first hdr.last t i
    let c := textCode m t i
    if representable hdr.first hdr.last c then
      let e := entryAt m f hdr.first c
      if cx + entryWidth e > panelW then ([], reads)
      else
        let g : Glyph := { cx := cx, gw := entryWidth e, base := f + entryOffset e }
        let tail := glyphPass m f t panelW hdr left (i + 1) (cx + entryWidth e)
        (g :: tail.1, reads ++ bitmapReads g.base g.gw hdr.gh ++ tail.2)
    else
      let tail := glyphPass m f t panelW hdr left (i + 1) cx
      (tail.1, reads ++ tail.2)

/-- The start column of an aligned text (R168). -/
def alignedColumn (m : Memory) (align : Align) (x f first last t n : Nat) : Nat :=
  match align with
  | .center => x - widthOf m f first last t n / 2
  | .right => x - widthOf m f first last t n
  | .left | .reserved => x

/-- The reads that alignment makes (R170). -/
def alignReads (m : Memory) (align : Align) (f first last t n : Nat) : List MemReq :=
  match align with
  | .center | .right => widthReads m f first last t n
  | .left | .reserved => []

/-- The bytes of a bitmap drawn at row `y` (R134, R138). -/
def bitmapBytes (s : State) (fg : Color) (base y width height : Nat) : List Byte :=
  drawBytes (fun w h => pixelByte fg s.bg (bitmapBit s.mem base width w h)) y width height

/-- Every sample of a bitmap is true, or a background is set (R138). -/
def bitmapDrawable (s : State) (base width height : Nat) : Bool :=
  s.bgValid || (List.range width).all fun w => (List.range height).all fun h => bitmapBit s.mem base width w h

/-- No glyph among the first `i` bytes of a text would pass the right edge (R167, R169). -/
def glyphsFit (m : Memory) (f t panelW : Nat) (hdr : FontHeader) (i cx : Nat) : Prop :=
  ∀ j < i, representable hdr.first hdr.last (textCode m t j) = true → cx + widthOf m f hdr.first hdr.last t (j + 1) ≤ panelW

/-! ### A DRAW_TEXT that has come to one of its text bytes -/

/-- The header of the current font. -/
def State.font (s : State) : FontHeader := headerAt s.mem s.fontBase.toNat

/-- The start column of the text of the operands (R168). -/
def State.textStart (s : State) (align : Align) : Nat :=
  alignedColumn s.mem align (coord s 0) s.fontBase.toNat s.font.first s.font.last (addrOperand s 5) (lengthOperand s)

/-- The cursor at byte `i` of the text (R167). -/
def State.textCursor (s : State) (align : Align) (i : Nat) : Nat :=
  s.textStart align + widthOf s.mem s.fontBase.toNat s.font.first s.font.last (addrOperand s 5) i

/-- The glyphs and reads of the first `i` bytes of the text. -/
def State.textPass (s : State) (align : Align) (i : Nat) : List Glyph × List MemReq :=
  glyphPass s.mem s.fontBase.toNat (addrOperand s 5) s.panelW.toNat s.font i 0 (s.textStart align)

/-- The reads before byte `i` of the text: the header, those of the alignment, those of the bytes before (R170). -/
def State.textReads (s : State) (align : Align) (i : Nat) : List MemReq :=
  headerReads s.fontBase.toNat ++
  alignReads s.mem align s.fontBase.toNat s.font.first s.font.last (addrOperand s 5) (lengthOperand s) ++
  (s.textPass align i).2

/-- DRAW_TEXT at byte `i` of its text: the glyphs before it are drawn, the reads before it and `more` made. -/
def State.textTo (s : State) (c : Color) (align : Align) (i : Nat) (more : List MemReq) : State :=
  { s.emitted ((s.textPass align i).1.flatMap fun g =>
      drawEvents s.params (s.window g.cx (coord s 1) g.gw s.font.gh) (bitmapBytes s c g.base (coord s 1) g.gw s.font.gh)) with
    memReads := s.memReads ++ s.textReads align i ++ more }

/-- The code of byte `i` of the text, its entry, the width and the bitmap of its glyph (R58, R61). -/
def State.codeAt (s : State) (i : Nat) : Nat := textCode s.mem (addrOperand s 5) i

def State.entryOf (s : State) (i : Nat) : Nat := entryAt s.mem s.fontBase.toNat s.font.first (s.codeAt i)

def State.glyphWidth (s : State) (i : Nat) : Nat := entryWidth (s.entryOf i)

def State.glyphBase (s : State) (i : Nat) : Nat := s.fontBase.toNat + entryOffset (s.entryOf i)

/-- The window of the glyph of byte `i` (R167). -/
def State.glyphWindow (s : State) (align : Align) (i : Nat) : Window :=
  s.window (s.textCursor align i) (coord s 1) (s.glyphWidth i) s.font.gh

/-- The reads of byte `i` of the text: the byte, and its entry if it is representable (R170). -/
def State.readsOf (s : State) (i : Nat) : List MemReq :=
  codeReads s.mem s.fontBase.toNat s.font.first s.font.last (addrOperand s 5) i

/-- A DRAW_TEXT of which nothing fails before byte `i` of its text. -/
structure TextReaches (s : State) (align : Align) (i : Nat) : Prop where
  legal : align ≠ .reserved
  quiet : s.quiet = true
  closed : s.sel = false
  panel : s.panelInit = true
  font : s.fontValid = true
  unchanged : s.racy = []
  height : coord s 1 + s.font.gh ≤ s.panelH.toNat
  inText : i < lengthOperand s
  fits : glyphsFit s.mem s.fontBase.toNat (addrOperand s 5) s.panelW.toNat s.font i (s.textStart align)
  readable : ∀ r ∈ s.textReads align i, s.params.readable r.addr r.width = true
  windows : ∀ g ∈ (s.textPass align i).1, (s.window g.cx (coord s 1) g.gw s.font.gh).inRange s.params = true
  drawable : ∀ g ∈ (s.textPass align i).1, bitmapDrawable s g.base g.gw s.font.gh = true

/-- A DRAW_TEXT of which nothing fails before the glyph of byte `i` of its text, which does not pass the right edge. -/
structure GlyphReaches (s : State) (align : Align) (i : Nat) : Prop extends TextReaches s align i where
  code : representable s.font.first s.font.last (s.codeAt i) = true
  inside : s.textCursor align i + s.glyphWidth i ≤ s.panelW.toNat
  readableCode : ∀ r ∈ s.readsOf i, s.params.readable r.addr r.width = true

/-! ### Brackets -/

/-- Where a trace stands against the bracket discipline of R122: outside a bracket, between `ACQ` and `BEGIN`, inside a
bracket, between `END` and `REL`. -/
inductive Bracket where
  | closed
  | acquired
  | opened
  | ended
deriving DecidableEq, Repr

/-- One event of a trace against the bracket discipline (R102, R103, R104, R122), `none` where it breaks it. `ACQ` and
`REL` belong to a shared bus alone. -/
def bracketStep (shared : Bool) (b : Option Bracket) (e : Event) : Option Bracket :=
  match b, e with
  | some .closed, .acq => if shared then some .acquired else none
  | some .closed, .bgn => if shared then none else some .opened
  | some .acquired, .bgn => some .opened
  | some .opened, .fin => if shared then some .ended else some .closed
  | some .ended, .rel => some .closed
  | some .opened, .cmd _ => some .opened
  | some .opened, .dat _ => some .opened
  | some o, .xon => some o
  | some o, .xoff => some o
  | some o, .rst _ => some o
  | some o, .dly _ => some o
  | some o, .busy _ => some o
  | _, _ => none

/-- The bracket discipline over a run of events. -/
def brackets (shared : Bool) (o : Bracket) (es : List Event) : Option Bracket := es.foldl (bracketStep shared) (some o)

/-- Where a trace stands between two commands: inside a bracket exactly when `Sel` is set (R33). -/
def State.bracket (s : State) : Bracket := if s.sel then .opened else .closed

/-! ### The invariant -/

/-- What holds between any two steps: host memory has its canonical form; a command in progress is an UPDATE in its poll
loop, and it has no bracket open (R106); a halted block runs no command and has no bracket open (R185); the cause is
recorded exactly while halted (R23); a fault record exists only then (R24, R187) and a fault address only for a
`MEM_ERROR` (R25); the panel fits the RAM (R140); without a panel, a background or a font its register is 0 (R28, R29, R30);
the transient state is empty between commands (R37). -/
structure Inv (s : State) : Prop where
  memory : Memory.wf s.mem = true
  inPoll : s.busy = s.poll
  pollBracket : s.poll = true → s.sel = false
  halted : s.fault = true → s.busy = false ∧ s.sel = false
  causeSet : s.fault = true ↔ s.cause ≠ .none
  recordSet : s.fault = false → s.faultInfo = 0
  addrSet : s.cause ≠ .memError → s.faultAddr = 0
  panelFits : s.panelW.toNat ≤ s.params.gates ∧ s.panelH.toNat ≤ s.params.sources
  panelUnset : s.panelInit = false → s.panelW = 0 ∧ s.panelH = 0
  bgUnset : s.bgValid = false → s.bg = 0
  fontUnset : s.fontValid = false → s.fontBase = 0
  fontNeedsPanel : s.fontValid = true → s.panelInit = true
  noRequest : s.sampleReq = none
  noRace : s.busy = false → s.racy = []

end Sys2Proof.Machine
end

