-- ==== Sys2Proof/Certificates/Slice0/Obligations.lean ====
section
/-! DEFINITION. The statements for the provers, each a rule of spec/ about the machine. `s.quiet` is a host that waits
for idle (R204), which is what the rules of the commands are written for (R17); where a host may act under the command
the statement says so. -/

open Sys2Proof Sys2Proof.Machine

/-! ### Encoding -/

/-- Words written out from the fields of R83 and the opcode map of R88 (vectors E-1 to E-23), one for each command and
the illegal ones. A sanity statement. -/
def Obligations.OpcodeMapWordsDecode : Prop :=
  decode 0x00000000 = .ok .nop ∧ decode 0x00000010 = .ok .start ∧ decode 0x00000011 = .ok .stop ∧
  decode 0x00000012 = .ok .update ∧ decode 0x00000013 = .ok .select ∧ decode 0x00000014 = .ok .unselect ∧
  decode 0x00000015 = .ok .sendCmd ∧ decode 0x00000016 = .ok .sendData ∧ decode 0x00000017 = .ok .setAddress ∧
  decode 0x00000020 = .ok .panelInit ∧ decode 0x00000321 = .ok (.setBg 3) ∧ decode 0x00000222 = .ok (.fillDisplay 2) ∧
  decode 0x00001023 = .ok (.drawBitmap 0 .mem) ∧ decode 0x00002323 = .ok (.drawBitmap 3 .host) ∧
  decode 0x00000C23 = .ok (.drawBitmap 0 .solid) ∧ decode 0x00000124 = .ok (.drawFilledRect 1) ∧
  decode 0x00000025 = .ok .setFont ∧ decode 0x00000026 = .ok .getTextWidth ∧
  decode 0x00000827 = .ok (.drawText 0 .right) ∧ decode 0x00000727 = .ok (.drawText 3 .center) ∧
  decode 0x00003027 = .ok (.drawText 0 .left) ∧ decode 0x00003010 = .ok .start ∧
  decode 0x00000001 = .error .unassignedOpcode ∧ decode 0x00004010 = .error .reservedBits ∧
  decode 0x00003023 = .error .reservedSrc ∧ decode 0x00000C27 = .error .reservedAlign ∧
  decode 0xFFFFFFFF = .error .unassignedOpcode ∧ decode 0x00010000 = .error .reservedBits

/-- Decode and encode agree on every well-formed command, with every value of its fields (R83, R88, R95, R96). -/
def Obligations.DecodeInvertsEncode : Prop := ∀ i : Instr, i.wellFormed = true → decode (encode i) = .ok i

/-- R88: a word that decodes matches the opcode of its command under the mask `0xFFFFC0FF`, the command is well formed,
and the fields it uses stand in the word as its encoding has them. -/
def Obligations.DecodedWordMatchesOpcode : Prop :=
  ∀ (w : Word) (i : Instr), decode w = .ok i →
    i.wellFormed = true ∧ w &&& 0xFFFFC0FF#32 = i.opcode.setWidth 32 ∧
    (∀ c, i = .setBg c ∨ i = .fillDisplay c ∨ i = .drawFilledRect c → c = w.extractLsb' 8 2) ∧
    (∀ c src, i = .drawBitmap c src → c = w.extractLsb' 8 2 ∧ src.field = w.extractLsb' 12 2) ∧
    (∀ c align, i = .drawText c align → c = w.extractLsb' 8 2 ∧ align.field = w.extractLsb' 10 2)

/-- R89: which words are illegal, in the order of the four checks, and the `DETAIL` each records. -/
def Obligations.IllegalWordsInOrder : Prop :=
  (∀ w : Word,
    let opc := (w &&& 0xFF#32).toNat
    let assigned := opc ∈ [0x00, 0x10, 0x11, 0x12, 0x13, 0x14, 0x15, 0x16, 0x17, 0x20, 0x21, 0x22, 0x23, 0x24, 0x25, 0x26, 0x27]
    if ¬assigned then decode w = .error .unassignedOpcode
    else if w >>> 14 ≠ 0#32 then decode w = .error .reservedBits
    else if opc = 0x23 ∧ (w >>> 12) &&& 3#32 = 3#32 then decode w = .error .reservedSrc
    else if opc = 0x27 ∧ (w >>> 10) &&& 3#32 = 3#32 then decode w = .error .reservedAlign
    else ∃ i, decode w = .ok i) ∧
  Illegal.unassignedOpcode.detail = 0 ∧ Illegal.reservedBits.detail = 1 ∧ Illegal.reservedSrc.detail = 2 ∧
  Illegal.reservedAlign.detail = 3

/-- R90: a field that an opcode does not use has no effect on what its word decodes to. -/
def Obligations.UnusedFieldsAreIgnored : Prop :=
  ∀ w v : Word, w.extractLsb' 0 8 = v.extractLsb' 0 8 → w.extractLsb' 14 18 = v.extractLsb' 14 18 →
    let opc := (w.extractLsb' 0 8).toNat
    (opc ∉ [0x21, 0x22, 0x23, 0x24, 0x27] → decode w = decode v) ∧
    (opc ∈ [0x21, 0x22, 0x24] → w.extractLsb' 8 2 = v.extractLsb' 8 2 → decode w = decode v) ∧
    (opc = 0x23 → w.extractLsb' 8 2 = v.extractLsb' 8 2 → w.extractLsb' 12 2 = v.extractLsb' 12 2 → decode w = decode v) ∧
    (opc = 0x27 → w.extractLsb' 8 2 = v.extractLsb' 8 2 → w.extractLsb' 10 2 = v.extractLsb' 10 2 → decode w = decode v)

/-! ### Acceptance and the step -/

/-- A step runs the decoded command: with the host's next action an aligned 32-bit write to `CMD` of a word that decodes
to `i`, an idle block that is not halted takes the action, latches the word and `A0` to `A6`, raises `BUSY`, and is then
what `exec i` answers (R183, R36). That the command is one step is the model's (log 2). -/
def Obligations.StepRunsTheDecodedCommand : Prop :=
  ∀ (s : State) (w : Word) (i : Instr) (rest : List HostAction),
    s.poll = false → s.fault = false → s.busy = false → s.host = .write 0 4 w :: rest → decode w = .ok i →
    step s = exec i { s with host := rest, cmdL := w, opL := s.args, busy := true }

/-- An illegal word is latched and raises `ILLEGAL` with its `DETAIL` and the word's low 16 bits (R183, R89, R181). Under a
host that acts before that, the fault may be another one (log 4): here it waits. -/
def Obligations.StepRaisesIllegal : Prop :=
  ∀ (s : State) (w : Word) (k : Illegal) (rest : List HostAction),
    s.poll = false → s.fault = false → s.busy = false → s.host = .write 0 4 w :: rest → decode w = .error k →
    State.quiet { s with host := rest } = true →
    step s = .next (faultEntry .illegal k.detail (w.toNat % 65536 : Nat) none
      { s with host := rest, cmdL := w, opL := s.args, busy := true })

/-- R94: `WAITIDLE` on an idle block is over; on a halted one the host program stops there, and what is left to do
begins with the next reset (the model's, log 16); under a poll it waits, while the block samples the line (log 14). -/
def Obligations.WaitIdleWaitsOrStops : Prop :=
  ∀ (s : State) (rest : List HostAction), s.host = .waitIdle :: rest →
    (s.poll = false → s.busy = false → s.fault = false → step s = .next { s with host := rest }) ∧
    (s.poll = false → s.busy = false → s.fault = true → ∃ kept, step s = .next { s with host := kept } ∧
      (kept = [] ∨ kept.head? = some .reset) ∧ ∃ dropped, rest = dropped ++ kept ∧ .reset ∉ dropped) ∧
    (s.poll = true → ∃ t, step s = .next t ∧ t.host = s.host)

/-- While `FAULT` = 1 a write to `CMD` is ignored: no latch, no event (R183, R34). -/
def Obligations.HaltedBlockIgnoresCommands : Prop :=
  ∀ (s : State) (w : Word) (rest : List HostAction),
    s.poll = false → s.fault = true → s.host = .write 0 4 w :: rest → step s = .next { s with host := rest }

/-- A write to `CMD` under a running command raises `CMD_OVERRUN` against it (R183, R182). Here: before the first step of any
command, whose own checks it comes before, so that nothing of the command happens; and between two polls of an UPDATE,
which ends the poll without a further sample. That the write is taken there, and a poll loop a state, is the model's form
of R17 (log 2, log 4, log 14). -/
def Obligations.CommandWriteEndsTheRunningCommand : Prop :=
  ∀ (s : State) (w : Word) (rest : List HostAction),
    s.fault = false → s.host = .write 0 4 w :: rest → State.quiet { s with host := rest } = true →
    (∀ i : Instr, exec i s = .next (faultEntry .cmdOverrun 0 (w.toNat % 65536 : Nat) none { s with host := rest })) ∧
    (s.poll = true → step s = .next (faultEntry .cmdOverrun 0 (w.toNat % 65536 : Nat) none { s with host := rest }))

/-- R183, R182, R185, R204: a write to `CMD` that the host makes after `k` turns under any command, or under a pass of an
UPDATE's poll loop. `u` is the end of the undisturbed run. Either that run is over before the write is taken, which is then
still to come, or the write stops it at a step: what crossed the interface is a beginning of what does undisturbed, with
nothing or one `END` (and `REL`) after it, `Sel` is clear, `CMD_OVERRUN` is recorded with the written word against the command
that ran, and every other register is as it was. Which of the two ends the trace has is not said here: for a bracket left
open StepsKeepTheBracketDiscipline says it, and FaultEntryRecordsAndHalts ties it to `Sel`. A run that does not
fault is stopped whenever it has more steps left than turns were given, the `n` turns among its register writes included
(R17). The model's own: that the write undoes the register writes made, and that none is taken between the last of them and
completion (log 4); that one next to `BEGIN` or `END` stops the command there (log 3); that a host
action is one item of a list, with `pause` as a turn passed (log 2, log 11); a pass of the poll loop as a step, with `poll`
(log 14); host memory as a field (log 6). -/
def Obligations.CommandWriteStopsACommandAtAnyStep : Prop :=
  ∀ (run : State → Host.Outcome State Fault Refusal) (n : Nat) (s u : State) (w : Word) (k : Nat),
    ((∃ i, run = exec i ∧ n = writeTurns i) ∨ (run = step ∧ s.poll = true ∧ n = 0)) →
    s.fault = false → run { s with host := [] } = .next u →
    ∃ t, run { s with host := List.replicate k .pause ++ [.write 0 4 w] } = .next t ∧
      ((∃ j, j ≤ k ∧ (u.fault = true ∨ u.stepsDone + n + j ≤ s.stepsDone + k) ∧
          t = { u with host := List.replicate j .pause ++ [.write 0 4 w] }) ∨
        (∃ done left close, u.trace = s.trace ++ done ++ left ∧ t.trace = s.trace ++ done ++ close ∧
            (close = [] ∨ close = if s.params.sharedBus then [.fin, .rel] else [.fin])) ∧
          s.memReads <+: t.memReads ∧ t.memReads <+: u.memReads ∧ s.sampleLog <+: t.sampleLog ∧ t.sampleLog <+: u.sampleLog ∧
          t.fault = true ∧ t.cause = .cmdOverrun ∧
          t.faultInfo = s.cmdL.extractLsb' 0 8 ++ 0#8 ++ w.extractLsb' 0 16 ∧ t.faultAddr = s.faultAddr ∧
          t.sel = false ∧ t.busy = false ∧ t.poll = false ∧ t.sampleReq = none ∧ t.host = [] ∧
          t.args = s.args ∧ t.cstate = s.cstate ∧ t.panelInit = s.panelInit ∧ t.bgValid = s.bgValid ∧
          t.fontValid = s.fontValid ∧ t.result = s.result ∧ t.panelW = s.panelW ∧ t.panelH = s.panelH ∧ t.bg = s.bg ∧
          t.fontBase = s.fontBase ∧ t.cmdL = s.cmdL ∧ t.opL = s.opL ∧ t.params = s.params ∧ t.mem = s.mem)

/-- R183: every command that opens its own bracket raises `BRACKET` 3 while one is open, before `CONFIG`; every command
that needs a panel raises `CONFIG` 0 before PANEL_INIT. No event of the command itself is emitted. -/
def Obligations.AcceptanceChecksInOrder : Prop :=
  ∀ (i : Instr) (s : State), i.wellFormed = true → s.quiet = true →
    ((i = .start ∨ i = .stop ∨ i = .update ∨ (∃ c, i = .fillDisplay c) ∨ (∃ c src, i = .drawBitmap c src) ∨
        (∃ c, i = .drawFilledRect c) ∨ ∃ c align, i = .drawText c align) →
      s.sel = true → exec i s = .next (faultEntry .bracket 3 0 none s)) ∧
    (((∃ c, i = .fillDisplay c) ∨ (∃ c src, i = .drawBitmap c src) ∨ (∃ c, i = .drawFilledRect c) ∨
        (∃ c align, i = .drawText c align)) →
      s.sel = false → s.panelInit = false → exec i s = .next (faultEntry .config 0 0 none s)) ∧
    (i = .setFont → s.panelInit = false → exec i s = .next (faultEntry .config 0 0 none s))

/-! ### The register block -/

/-- R47, R21, R82: a host write to `A0` to `A6` stores all 32 bits in that register and changes nothing else, whether or
not the block is halted; under a poll it is taken before the next sample. A write to a read-only or
reserved offset is ignored. The poll loop as a state, one sample a step, is the model's (log 14). -/
def Obligations.RegisterWritesStoreOrAreIgnored : Prop :=
  (∀ (s : State) (i : Fin 7) (v : Word) (rest : List HostAction),
    s.host = .write (BitVec.ofNat 7 (0x40 + 4 * i.val)) 4 v :: rest →
    (s.poll = false → step s = .next { s with host := rest, args := s.args.set i v }) ∧
    (s.poll = true → step s = step { s with host := rest, args := s.args.set i v })) ∧
  (∀ (s : State) (off : BitVec 7) (v : Word) (rest : List HostAction),
    off.toNat % 4 = 0 → off ≠ 0 → (off.toNat < 0x40 ∨ 0x58 < off.toNat) → s.host = .write off 4 v :: rest →
    (s.poll = false → step s = .next { s with host := rest }) ∧
    (s.poll = true → step s = step { s with host := rest }))

/-- R80, R82: what a read of each register returns, 0 for `CMD` and every reserved offset; a read has no side effect
beyond the value returned. Under a poll it is taken before the next sample, with `STATUS.BUSY` as it is then (R17, R217);
the poll loop as a state is the model's (log 14). -/
def Obligations.RegisterReadsReturnTheRegisters : Prop :=
  ∀ (s : State) (off : BitVec 7) (rest : List HostAction),
    off.toNat % 4 = 0 → s.host = .read off 4 :: rest →
    let t : State := { s with host := rest, regReads := s.regReads ++ [
      if off = 0x04 then statusWord s else if off = 0x08 then s.faultInfo else if off = 0x0C then s.faultAddr
      else if off = 0x10 then s.result else if off = 0x14 then BitVec.ofNat 32 s.params.sources
      else if off = 0x18 then BitVec.ofNat 32 s.params.gates else if off = 0x1C then s.panelW.setWidth 32
      else if off = 0x20 then s.panelH.setWidth 32 else if off = 0x24 then s.bg.setWidth 32
      else if off = 0x28 then s.fontBase else if off = 0x40 then s.args[(0 : Fin 7)] else if off = 0x44 then s.args[(1 : Fin 7)]
      else if off = 0x48 then s.args[(2 : Fin 7)] else if off = 0x4C then s.args[(3 : Fin 7)]
      else if off = 0x50 then s.args[(4 : Fin 7)] else if off = 0x54 then s.args[(5 : Fin 7)]
      else if off = 0x58 then s.args[(6 : Fin 7)] else 0] }
    (s.poll = false → step s = .next t) ∧ (s.poll = true → step s = step t)

/-- R81: an access that is not an aligned 32-bit access has no step. Under a poll it is not taken, which is the model's
(log 9) and not stated here. -/
def Obligations.BadAccessesAreRefused : Prop :=
  ∀ (s : State) (off : BitVec 7) (size : Nat) (v : Word) (rest : List HostAction),
    s.poll = false → (size ≠ 4 ∨ off.toNat % 4 ≠ 0) →
    (s.host = .write off size v :: rest → step s = .refused (.badAccess off size)) ∧
    (s.host = .read off size :: rest → step s = .refused (.badAccess off size))

/-- R23, R32, R180: the layout of `STATUS`, the codes of `CSTATE` and of `CAUSE`, which reads 0 while `FAULT` = 0. -/
def Obligations.StatusLayout : Prop :=
  ∀ s : State,
    (statusWord s).getLsbD 0 = s.busy ∧ (statusWord s).getLsbD 1 = s.fault ∧ (statusWord s).getLsbD 2 = s.sel ∧
    (statusWord s).getLsbD 3 = false ∧
    ((statusWord s).extractLsb' 4 2).toNat = (match s.cstate with | .uninit => 0 | .started => 1 | .stopped => 2) ∧
    (statusWord s).getLsbD 6 = s.panelInit ∧ (statusWord s).getLsbD 7 = s.bgValid ∧
    (statusWord s).getLsbD 8 = s.fontValid ∧ (statusWord s).extractLsb' 9 7 = 0 ∧
    ((statusWord s).extractLsb' 16 8).toNat = (if s.fault then (match s.cause with
      | .none => 0 | .illegal => 1 | .windowRange => 2 | .panelExtent => 3 | .fontHeader => 4 | .bracket => 5
      | .config => 6 | .noFont => 7 | .bgUnset => 8 | .cmdOverrun => 9 | .memError => 10 | .unspecified => 11) else 0) ∧
    (statusWord s).extractLsb' 24 8 = 0

/-! ### Reset and faults -/

/-- R45: the state after reset. The values of the fields that are the model's own (INVENTORY.md) are not stated here. -/
def Obligations.ResetValues : Prop :=
  State.reset.args = Vector.replicate 7 0 ∧ statusWord State.reset = 0 ∧ State.reset.faultInfo = 0 ∧
  State.reset.faultAddr = 0 ∧ State.reset.result = 0 ∧ State.reset.panelW = 0 ∧ State.reset.panelH = 0 ∧
  State.reset.bg = 0 ∧ State.reset.fontBase = 0 ∧ State.reset.cstate = .uninit ∧ State.reset.sel = false ∧
  State.reset.cmdL = 0 ∧ State.reset.opL = Vector.replicate 7 0 ∧ State.reset.busy = false ∧ State.reset.poll = false ∧
  State.reset.sampleReq = none ∧ State.reset.trace = []

/-- R45, R200, R201: the reset input, on an idle, halted or polling block: every register and the transient state takes
its reset value, the trace is unchanged. That no line keeps a level (log 10), that host memory, which is outside the block,
and the host's further actions stay (log 6, log 11), and the fields `poll` and `racy` of the transient state (log 14, log 7)
are the model's. -/
def Obligations.ResetActionResetsTheBlock : Prop :=
  ∀ (s : State) (rest : List HostAction), s.host = .reset :: rest →
    ∃ t, step s = .next t ∧ t.args = Vector.replicate 7 0 ∧ statusWord t = 0 ∧ t.faultInfo = 0 ∧ t.faultAddr = 0 ∧
      t.result = 0 ∧ t.panelW = 0 ∧ t.panelH = 0 ∧ t.bg = 0 ∧ t.fontBase = 0 ∧ t.cmdL = 0 ∧
      t.opL = Vector.replicate 7 0 ∧ t.poll = false ∧ t.sampleReq = none ∧ t.racy = [] ∧ t.trace = s.trace ∧
      t.pins = ⟨none, none, none, none⟩ ∧ t.params = s.params ∧ t.mem = s.mem ∧ t.host = rest

/-- R200, R201, R211: a reset that comes after `k` turns under any command, or under a pass of an UPDATE's poll loop. `u` is
the end of the undisturbed run. Either that run is over before the reset, which is then still to come, or it stops at the
step it has reached: what crossed the interface is a beginning of what does undisturbed, with no `END` added and no fault
recorded, and every register has its reset value. A run that does not fault is stopped whenever it has more steps left
than turns were given, the `n` turns among its register writes included. The model's own: the host's actions as
a list, its turns between the steps of a bracket and between the register writes (log 2, log 3, log 4, log 11); a pass of the
poll loop as a step, with `poll` (log 14); `racy` (log 7); that host memory, which is outside the block, and the host's
further actions stay (log 6, log 11). -/
def Obligations.ResetStopsACommandAtAnyStep : Prop :=
  ∀ (run : State → Host.Outcome State Fault Refusal) (n : Nat) (s u : State) (rest : List HostAction) (k : Nat),
    ((∃ i, run = exec i ∧ n = writeTurns i) ∨ (run = step ∧ s.poll = true ∧ n = 0)) →
    run { s with host := [] } = .next u →
    ∃ t, run { s with host := List.replicate k .pause ++ .reset :: rest } = .next t ∧
      ((∃ j, j ≤ k ∧ (u.fault = true ∨ u.stepsDone + n + j ≤ s.stepsDone + k) ∧
          t = { u with host := List.replicate j .pause ++ .reset :: rest }) ∨
        (∃ done left, u.trace = s.trace ++ done ++ left ∧ t.trace = s.trace ++ done) ∧
          s.memReads <+: t.memReads ∧ t.memReads <+: u.memReads ∧ s.sampleLog <+: t.sampleLog ∧ t.sampleLog <+: u.sampleLog ∧
          t.args = Vector.replicate 7 0 ∧ statusWord t = 0 ∧ t.faultInfo = 0 ∧ t.faultAddr = 0 ∧
          t.result = 0 ∧ t.panelW = 0 ∧ t.panelH = 0 ∧ t.bg = 0 ∧ t.fontBase = 0 ∧ t.cmdL = 0 ∧
          t.opL = Vector.replicate 7 0 ∧ t.poll = false ∧ t.sampleReq = none ∧ t.racy = [] ∧
          t.params = s.params ∧ t.mem = s.mem ∧ t.host = rest)

/-- R12, R38: what each event does to the output lines, and that a run of events drives them one event after the other:
`CMD` drives the data/command line to `DC_CMD_LEVEL`, `DAT` to the other level, `RST` the reset line, `BEGIN` and `END` the
chip select, `XON` and `XOFF` the transport power, the others none. Between commands only the power keeps a level, as the
spec gives none to the others then (log 10). Every completion statement speaks of `emitted` and of this end. -/
def Obligations.EventsDriveTheLines : Prop :=
  ∀ s : State,
    (∀ b, (pushEvent (.cmd b) s).pins = { s.pins with dc := some s.params.dcCmdLevel }) ∧
    (∀ b, (pushEvent (.dat b) s).pins = { s.pins with dc := some (!s.params.dcCmdLevel) }) ∧
    (∀ level, (pushEvent (.rst level) s).pins = { s.pins with reset := some level }) ∧
    (pushEvent .bgn s).pins = { s.pins with select := some true } ∧
    (pushEvent .fin s).pins = { s.pins with select := some false } ∧
    (pushEvent .xon s).pins = { s.pins with power := some true } ∧
    (pushEvent .xoff s).pins = { s.pins with power := some false } ∧
    (∀ e, e = .acq ∨ e = .rel ∨ (∃ d, e = .dly d) ∨ (∃ v, e = .busy v) → (pushEvent e s).pins = s.pins) ∧
    (∀ e, pushEvent e s = { s with trace := s.trace ++ [e], pins := (pushEvent e s).pins }) ∧
    (∀ e es, s.emitted [] = s ∧ s.emitted (e :: es) = (pushEvent e s).emitted es) ∧
    (∀ es, (s.completed es).pins = ⟨none, none, none, (s.emitted es).pins.power⟩)

/-- R185, R181: fault entry, whatever the host does under it short of a reset: the record, the closing of an open bracket,
the halt; no other register changes but those the host writes. Under a host that waits the whole next state is
`faultEntry`'s, of which the fault statements of the commands speak. The record comes first: a host that reads `FAULT_INFO`
once it is written, or `FAULT_ADDR`, and then resets the block, sees its value and no `END`. In the last turn `FAULT` and
`BUSY` are both 1. -/
def Obligations.FaultEntryRecordsAndHalts : Prop :=
  (∀ (s : State) (cause : Cause) (detail : Nat) (value : Int) (addr : Option Nat),
    (s.host = [.pause, .read 0x08 4, .reset] → ∃ t, (enterFault cause detail value addr : Act Unit) s = .error () t ∧
      t.trace = s.trace ∧
      t.regReads = s.regReads ++ [s.cmdL.extractLsb' 0 8 ++ BitVec.ofNat 8 detail ++ BitVec.ofInt 16 value]) ∧
    (∀ a, addr = some a → s.host = [.pause, .pause, .read 0x0C 4, .reset] →
      ∃ t, (enterFault cause detail value addr : Act Unit) s = .error () t ∧ t.trace = s.trace ∧
        t.regReads = s.regReads ++ [BitVec.ofNat 32 a]) ∧
    (addr = none → s.sel = false → s.busy = true → s.host = [.pause, .pause, .read 0x04 4] →
      ∃ t r, (enterFault cause detail value addr : Act Unit) s = .error () t ∧ t.regReads = s.regReads ++ [r] ∧
        r.getLsbD 0 = true ∧ r.getLsbD 1 = true ∧ t.busy = false)) ∧
  ∀ (s : State) (cause : Cause) (detail : Nat) (value : Int) (addr : Option Nat), s.noReset = true →
    ∃ t, (enterFault cause detail value addr : Act Unit) s = .error () t ∧
    t.cause = cause ∧ t.faultInfo.extractLsb' 24 8 = s.cmdL.extractLsb' 0 8 ∧
    t.faultInfo.extractLsb' 16 8 = BitVec.ofNat 8 detail ∧ t.faultInfo.extractLsb' 0 16 = BitVec.ofInt 16 value ∧
    (∀ a, addr = some a → t.faultAddr = BitVec.ofNat 32 a) ∧ (addr = none → t.faultAddr = s.faultAddr) ∧
    t.trace = s.trace ++ (if s.sel then (if s.params.sharedBus then [.fin, .rel] else [.fin]) else []) ∧
    t.sel = false ∧ t.fault = true ∧ t.busy = false ∧ t.poll = false ∧ t.sampleReq = none ∧
    t.cstate = s.cstate ∧ t.panelInit = s.panelInit ∧ t.bgValid = s.bgValid ∧
    t.fontValid = s.fontValid ∧ t.result = s.result ∧ t.panelW = s.panelW ∧ t.panelH = s.panelH ∧ t.bg = s.bg ∧
    t.fontBase = s.fontBase ∧ t.cmdL = s.cmdL ∧ t.opL = s.opL ∧ t.params = s.params ∧ t.memReads = s.memReads ∧
    t.sampleLog = s.sampleLog ∧
    (s.quiet = true → t = faultEntry cause detail value addr s ∧ t.args = s.args ∧ t.mem = s.mem ∧ t.host = s.host ∧
      t.regReads = s.regReads)

/-- R34, R187, R185: a halted block keeps its fault record, runs no command, emits nothing and reads no memory, whatever
the host does short of a reset. -/
def Obligations.FaultIsKeptUntilReset : Prop :=
  ∀ s t : State, s.fault = true → s.poll = false → s.host.head? ≠ some .reset → step s = .next t →
    t.fault = true ∧ t.cause = s.cause ∧ t.faultInfo = s.faultInfo ∧ t.faultAddr = s.faultAddr ∧ t.trace = s.trace ∧
    t.memReads = s.memReads ∧ t.cmdL = s.cmdL ∧ t.panelW = s.panelW ∧ t.panelH = s.panelH ∧ t.bg = s.bg ∧
    t.fontBase = s.fontBase ∧ t.result = s.result ∧ t.opL = s.opL ∧ t.cstate = s.cstate ∧ t.sel = s.sel ∧
    t.busy = s.busy ∧ t.panelInit = s.panelInit ∧ t.bgValid = s.bgValid ∧ t.fontValid = s.fontValid ∧ t.poll = false

/-- R13, R63, R181: the outcomes of a host-memory read under a host that waits: refused by range or by `HostMemAdmits` it
raises `MEM_ERROR` with the width and the address; bytes the host left alone are read little-endian; a read of a byte
the host changed under the command goes on with a value of which only the width is known (the model's form, log 7). -/
def Obligations.MemoryReadOutcomes : Prop :=
  ∀ (s : State) (a n : Nat), s.quiet = true →
    (a + n > 2 ^ 32 ∨ s.params.admits a n = false →
      memRead a n s = .error () (faultEntry .memError 0 n (some a) s)) ∧
    (a + n ≤ 2 ^ 32 → s.params.admits a n = true → (∀ b ∈ s.racy, b < a ∨ a + n ≤ b) →
      memRead a n s = .ok (Memory.readLE s.mem a n) { s with memReads := s.memReads ++ [⟨a, n⟩] }) ∧
    (a + n ≤ 2 ^ 32 → s.params.admits a n = true → (∃ b ∈ s.racy, a ≤ b ∧ b < a + n) →
      ∃ v, v < 256 ^ n ∧
        memRead a n s = .ok v { s with memReads := s.memReads ++ [⟨a, n⟩], draws := s.draws + 1 })

/-! ### The controller commands -/

/-- R108: NOP changes nothing but `BUSY`, with or without an open bracket; it emits nothing. The word 0 is NOP. -/
def Obligations.NopCompletes : Prop :=
  decode 0 = .ok .nop ∧ ∀ s : State, s.quiet = true → exec .nop s = .next (s.completed [])

/-- R105: START's whole trace, and `CSTATE` = 1, in every power state. It changes no other register. An open bracket is
`BRACKET` 3. -/
def Obligations.StartCompletes : Prop :=
  ∀ s : State, s.quiet = true →
    (s.sel = false →
      exec .start s = .next { s.completed (startEvents s.params) with cstate := .started }) ∧
    (s.sel = true → exec .start s = .next (faultEntry .bracket 3 0 none s))

/-- R107: STOP's whole trace, and `CSTATE` = 2, in every power state. It changes no other register. An open bracket is
`BRACKET` 3. -/
def Obligations.StopCompletes : Prop :=
  ∀ s : State, s.quiet = true →
    (s.sel = false →
      exec .stop s = .next { s.completed (stopEvents s.params) with cstate := .stopped }) ∧
    (s.sel = true → exec .stop s = .next (faultEntry .bracket 3 0 none s))

/-- R106: UPDATE sends the activate frames in one bracket and samples the busy line. A first sample that reads "not busy"
completes it; one that reads "busy" is followed by the wait, and UPDATE is then in its poll loop, `BUSY` unchanged. That
the loop is a state of the block, one sample a step, is the model's (log 14). -/
def Obligations.UpdateCompletesOrPolls : Prop :=
  ∀ s : State, s.quiet = true → s.sel = false →
    (s.levelAt 0 ≠ s.params.busyActiveLevel →
      exec .update s = .next ((s.afterLevels 1).completed (activateEvents s.params ++ [.busy (s.levelAt 0)]))) ∧
    (s.levelAt 0 = s.params.busyActiveLevel →
      exec .update s = .next { (s.afterLevels 1).emitted
        (activateEvents s.params ++ [.busy (s.levelAt 0), .dly s.params.pollInterval]) with poll := true })

/-- R106, R216: an UPDATE in its poll loop whose line reads "busy" at the next `n` samples and then "not busy" completes
in `n + 1` steps, with a `BUSY` event for each sample and a wait between samples; until then it stays in the loop. So it
completes if the line ever clears. One sample a step is the model's (log 14). -/
def Obligations.PollEndsWhenTheLineClears : Prop :=
  ∀ s : State, s.poll = true → s.quiet = true →
    (∀ n, (∀ k < n, s.levelAt k = s.params.busyActiveLevel) →
      runSteps n s = .next ((s.afterLevels n).emitted (busyEvents s n)) ∧
      (s.levelAt n ≠ s.params.busyActiveLevel →
        runSteps (n + 1) s = .next ((s.afterLevels (n + 1)).completed (busyEvents s n ++ [.busy (s.levelAt n)])))) ∧
    (BusyEventuallyClears s → ∃ n t, runSteps n s = .next t ∧ t.busy = false ∧ t.poll = false ∧ t.fault = s.fault)

/-- R102, R103, R109, R110: SELECT opens the host's bracket with `BEGIN`, after `ACQ` exactly on a shared bus; UNSELECT
closes it with `END`, before `REL` exactly on a shared bus. No other register changes. -/
def Obligations.HostBracketOpensAndCloses : Prop :=
  ∀ s : State, s.quiet = true →
    (s.sel = false → exec .select s = .next { s.completed (if s.params.sharedBus then [.acq, .bgn] else [.bgn]) with
      sel := true }) ∧
    (s.sel = true → exec .unselect s = .next { s.completed (if s.params.sharedBus then [.fin, .rel] else [.fin]) with
      sel := false })

/-- R117, R118: inside the host's bracket SEND_CMD and SEND_DATA send `A0[7:0]`, and nothing else changes. With none open
they raise `BRACKET` 2. -/
def Obligations.RawBytesAreSent : Prop :=
  ∀ s : State, s.quiet = true →
    (s.sel = true →
      exec .sendCmd s = .next (s.completed [.cmd (s.opL[(0 : Fin 7)].extractLsb' 0 8)]) ∧
      exec .sendData s = .next (s.completed [.dat (s.opL[(0 : Fin 7)].extractLsb' 0 8)])) ∧
    (s.sel = false → exec .sendCmd s = .next (faultEntry .bracket 2 0 none s) ∧
      exec .sendData s = .next (faultEntry .bracket 2 0 none s))

/-- R116, R112, R113, R114: SET_ADDRESS with operands in range sends the five window frames; start and end need no order. -/
def Obligations.SetAddressSendsTheWindow : Prop :=
  ∀ s : State, s.quiet = true → s.sel = true →
    coord s 0 < s.params.sources / 4 → coord s 1 < s.params.sources / 4 →
    coord s 2 < s.params.gates → coord s 3 < s.params.gates →
    exec .setAddress s = .next (s.completed (windowEvents s.params ⟨coord s 0, coord s 1, coord s 2, coord s 3⟩))

/-- R109, R110, R116: the bracket faults of SELECT, UNSELECT and SET_ADDRESS. -/
def Obligations.BracketMisuseFaults : Prop :=
  ∀ s : State, s.quiet = true →
    (s.sel = true → exec .select s = .next (faultEntry .bracket 0 0 none s)) ∧
    (s.sel = false → exec .unselect s = .next (faultEntry .bracket 1 0 none s) ∧
      exec .setAddress s = .next (faultEntry .bracket 2 0 none s))

/-- R111: the window check of SET_ADDRESS reports the first value out of range, and emits nothing of the window. -/
def Obligations.WindowCheckReportsTheFirstBadValue : Prop :=
  ∀ s : State, s.quiet = true → s.sel = true →
    let xb := s.params.sources / 4
    (xb ≤ coord s 0 → exec .setAddress s = .next (faultEntry .windowRange 0 (coord s 0) none s)) ∧
    (coord s 0 < xb → xb ≤ coord s 1 → exec .setAddress s = .next (faultEntry .windowRange 1 (coord s 1) none s)) ∧
    (coord s 0 < xb → coord s 1 < xb → s.params.gates ≤ coord s 2 →
      exec .setAddress s = .next (faultEntry .windowRange 2 (coord s 2) none s)) ∧
    (coord s 0 < xb → coord s 1 < xb → coord s 2 < s.params.gates → s.params.gates ≤ coord s 3 →
      exec .setAddress s = .next (faultEntry .windowRange 3 (coord s 3) none s))

/-! ### The packetizer -/

/-- R140: PANEL_INIT sets the panel once, to a width and height within the RAM, and changes nothing else; a second one, and
an extent out of range, fault, in order. -/
def Obligations.PanelInitSetsThePanelOrFaults : Prop :=
  ∀ s : State, s.quiet = true →
    (s.panelInit = false → coord s 0 ≤ s.params.gates → coord s 1 ≤ s.params.sources →
      exec .panelInit s = .next { s.completed [] with
        panelW := s.opL[(0 : Fin 7)].extractLsb' 0 16, panelH := s.opL[(1 : Fin 7)].extractLsb' 0 16, panelInit := true }) ∧
    (s.panelInit = true → exec .panelInit s = .next (faultEntry .config 1 0 none s)) ∧
    (s.panelInit = false → s.params.gates < coord s 0 →
      exec .panelInit s = .next (faultEntry .panelExtent 0 (coord s 0) none s)) ∧
    (s.panelInit = false → coord s 0 ≤ s.params.gates → s.params.sources < coord s 1 →
      exec .panelInit s = .next (faultEntry .panelExtent 1 (coord s 1) none s))

/-- R141: SET_BG sets the background, at any time, and changes nothing else. -/
def Obligations.SetBgSetsTheBackground : Prop :=
  ∀ (c : Color) (s : State), s.quiet = true →
    exec (.setBg c) s = .next { s.completed [] with bg := c, bgValid := true }

/-- R142, R131: FILL_DISPLAY of a panel whose height is a multiple of 4: one bracket, the panel's own window, and
`PANEL_W * (PANEL_H / 4)` equal bytes; no register changes. A height that is no multiple of 4 faults before any event; a
height or a width of 0 in the window check, after the bracket opened, which fault entry closes. -/
def Obligations.FillDisplayFillsThePanelOrFaults : Prop :=
  ∀ (c : Color) (s : State), s.quiet = true → s.sel = false → s.panelInit = true →
    (0 < s.panelW.toNat → s.panelW.toNat ≤ s.params.gates → 0 < s.panelH.toNat → s.panelH.toNat ≤ s.params.sources →
      s.panelH.toNat % 4 = 0 →
      exec (.fillDisplay c) s = .next (s.completed (drawEvents s.params
        ⟨0, (s.panelH.toNat : Int) / 4 - 1, (s.panelW.toNat : Int) - 1, 0⟩
        (List.replicate (s.panelW.toNat * (s.panelH.toNat / 4)) (BitVec.ofNat 8 (c.toNat * 0x55)))))) ∧
    (s.panelH.toNat % 4 ≠ 0 → exec (.fillDisplay c) s = .next (faultEntry .unspecified 0 s.panelH.toNat none s)) ∧
    (4 ≤ s.params.sources → s.panelH = 0 →
      exec (.fillDisplay c) s = .next (faultEntry .windowRange 1 (-1) none
        { s.emitted (openEvents s.params) with sel := true })) ∧
    (s.panelH.toNat % 4 = 0 → 0 < s.panelH.toNat → s.panelH.toNat ≤ s.params.sources → s.panelW = 0 →
      exec (.fillDisplay c) s = .next (faultEntry .windowRange 2 (-1) none
        { s.emitted (openEvents s.params) with sel := true }))

/-- R144, R132, R133, R134, R138: DRAW_FILLED_RECT of a rectangle whose window passes the check: one bracket, the window,
and for each column the packed bytes of its rows, slots that no row fills 0. Zero width and height included. -/
def Obligations.FilledRectDrawsPackedColumns : Prop :=
  ∀ (c : Color) (s : State), s.quiet = true → s.sel = false → s.panelInit = true →
    let win := s.window (coord s 0) (coord s 1) (coord s 2) (coord s 3)
    win.inRange s.params = true →
    exec (.drawFilledRect c) s = .next (s.completed (drawEvents s.params win
      (drawBytes (fun _ _ => colorByte c) (coord s 1) (coord s 2) (coord s 3))))

/-- R143, R137, R138, R59: DRAW_BITMAP of a bitmap in host memory: one read of one byte a pixel, column by column, a 1
bit the drawing colour, a 0 bit the background. -/
def Obligations.BitmapFromMemoryIsDrawn : Prop :=
  ∀ (c : Color) (s : State), s.quiet = true → s.sel = false → s.panelInit = true → s.racy = [] →
    let win := s.window (coord s 0) (coord s 1) (coord s 2) (coord s 3)
    let base := addrOperand s 4
    win.inRange s.params = true →
    (∀ r ∈ bitmapReads base (coord s 2) (coord s 3), s.params.readable r.addr r.width = true) →
    bitmapDrawable s base (coord s 2) (coord s 3) = true →
    exec (.drawBitmap c .mem) s = .next { s.completed (drawEvents s.params win
        (bitmapBytes s c base (coord s 1) (coord s 2) (coord s 3))) with
      memReads := s.memReads ++ bitmapReads base (coord s 2) (coord s 3) }

/-- R143, R136, R14: DRAW_BITMAP with each sample asked of the host, once per pixel, column by column. Where the host has
no answer ready the answer is a free value (the model's form, log 5), and the statement holds for every such value. -/
def Obligations.BitmapFromHostSamplesIsDrawn : Prop :=
  ∀ (c : Color) (s : State), s.quiet = true → s.sel = false → s.panelInit = true →
    let win := s.window (coord s 0) (coord s 1) (coord s 2) (coord s 3)
    let n := coord s 2 * coord s 3
    win.inRange s.params = true → (s.bgValid = true ∨ ∀ k < n, s.answerAt k = true) →
    exec (.drawBitmap c .host) s = .next { (s.afterAnswers n).completed (drawEvents s.params win
        (drawBytes (fun w h => pixelByte c s.bg (s.answerAt (w * coord s 3 + h))) (coord s 1) (coord s 2) (coord s 3))) with
      sampleLog := s.sampleLog ++ drawRequests (coord s 2) (coord s 3) }

/-- R144, R95: DRAW_BITMAP with `SRC` = `SOLID` has the effect of DRAW_FILLED_RECT. -/
def Obligations.SolidBitmapIsFilledRect : Prop :=
  ∀ (c : Color) (s : State), exec (.drawBitmap c .solid) s = exec (.drawFilledRect c) s

/-- R72, R73, R74, R132, R133, R134: what the observer of the controller RAM makes of a DRAW_FILLED_RECT on a started
controller with power, in a legal instance: every pixel of the rectangle has the drawing colour in its slot of its RAM byte,
rows below the panel's last one included, and is seen so as a display pixel. How the observer follows a step is the
model's (log 15). -/
def Obligations.FilledRectPaintsItsPixels : Prop :=
  ∀ (c : Color) (s t : State) (o : Observer), s.params.wellFormed = true → s.quiet = true → s.sel = false →
    s.panelInit = true → s.cstate = .started → o.powered = true →
    (s.window (coord s 0) (coord s 1) (coord s 2) (coord s 3)).inRange s.params = true →
    exec (.drawFilledRect c) s = .next t →
    ∀ w h, w < coord s 2 → h < coord s 3 →
      (∃ b, (o.follow s t).byteAt (s.panelW.toNat - 1 - (coord s 0 + w)) ((coord s 1 + h) / 4) = some b ∧
        slotColor b ((coord s 1 + h) % 4) = c) ∧
      (coord s 1 + h < s.panelH.toNat →
        (o.follow s t).pixel s.panelW.toNat s.panelH.toNat (coord s 0 + w) (coord s 1 + h) = some c)

/-- R145, R138, R139, R167: a draw whose window fails the check: the first value out of range is recorded, with its number,
only the opening of the bracket was emitted, and fault entry closes it. For DRAW_FILLED_RECT, for DRAW_BITMAP with every
source, and for a glyph of DRAW_TEXT, before which the earlier glyphs were drawn. Past the right edge `ye` is the value
that is negative; a height of 0 at `y` = 0 has `xe` = -1. -/
def Obligations.DrawWindowFaultsReportTheFirstBadValue : Prop :=
  (∀ (i : Instr) (c : Color) (s : State) (d : Nat) (v : Int),
    (i = .drawFilledRect c ∨ i = .drawBitmap c .solid ∨ i = .drawBitmap c .mem ∨ i = .drawBitmap c .host) →
    s.quiet = true → s.sel = false → s.panelInit = true →
    let win := s.window (coord s 0) (coord s 1) (coord s 2) (coord s 3)
    (coord s 0 + coord s 2 > s.panelW.toNat ↔ win.ye < 0) ∧ (coord s 1 = 0 → coord s 3 = 0 → win.xe = -1) ∧
    (win.firstBad s.params = some (d, v) →
      exec i s = .next (faultEntry .windowRange d v none { s.emitted (openEvents s.params) with sel := true }))) ∧
  (∀ (c : Color) (align : Align) (s : State) (i d : Nat) (v : Int), GlyphReaches s align i →
    (s.glyphWindow align i).firstBad s.params = some (d, v) →
    exec (.drawText c align) s = .next (faultEntry .windowRange d v none
      { (s.textTo c align i (s.readsOf i)).emitted (openEvents s.params) with sel := true }))

/-- R138, R182: a draw with no background raises `BG_UNSET` at its first false sample, which is pixel number `k` in drawing
order: the bytes of the whole groups before it were sent, the samples up to it read or asked for and none after it, and
fault entry closes the bracket. For DRAW_BITMAP from memory, for DRAW_BITMAP with the host's samples (the statement holds
for every answer that is a free value, log 5), and for a glyph of DRAW_TEXT, before which the earlier glyphs were drawn. -/
def Obligations.FirstFalseSampleWithoutBackgroundFaults : Prop :=
  (∀ (c : Color) (s : State) (k : Nat), s.quiet = true → s.sel = false → s.panelInit = true → s.bgValid = false →
    let win := s.window (coord s 0) (coord s 1) (coord s 2) (coord s 3)
    let base := addrOperand s 4
    let width := coord s 2
    let height := coord s 3
    win.inRange s.params = true → k < width * height →
    (s.racy = [] → (∀ r ∈ (bitmapReads base width height).take (k + 1), s.params.readable r.addr r.width = true) →
      (∀ j < k, bitmapBit s.mem base width (j / height) (j % height) = true) →
      bitmapBit s.mem base width (k / height) (k % height) = false →
      exec (.drawBitmap c .mem) s = .next (faultEntry .bgUnset 0 0 none
        { s.drawnTo win (bitmapBytes s c base (coord s 1) width height) (coord s 1) height k with
          memReads := s.memReads ++ (bitmapReads base width height).take (k + 1) })) ∧
    ((∀ j < k, s.answerAt j = true) → s.answerAt k = false →
      exec (.drawBitmap c .host) s = .next (faultEntry .bgUnset 0 0 none
        { (s.afterAnswers (k + 1)).drawnTo win
            (drawBytes (fun w h => pixelByte c s.bg (s.answerAt (w * height + h))) (coord s 1) width height)
            (coord s 1) height k with
          sampleLog := s.sampleLog ++ (drawRequests width height).take (k + 1) }))) ∧
  (∀ (c : Color) (align : Align) (s : State) (i k : Nat), GlyphReaches s align i → s.bgValid = false →
    let win := s.glyphWindow align i
    let base := s.glyphBase i
    let width := s.glyphWidth i
    let height := s.font.gh
    win.inRange s.params = true → k < width * height →
    (∀ r ∈ (bitmapReads base width height).take (k + 1), s.params.readable r.addr r.width = true) →
    (∀ j < k, bitmapBit s.mem base width (j / height) (j % height) = true) →
    bitmapBit s.mem base width (k / height) (k % height) = false →
    exec (.drawText c align) s = .next (faultEntry .bgUnset 0 0 none
      ((s.textTo c align i (s.readsOf i ++ (bitmapReads base width height).take (k + 1))).drawnTo win
        (bitmapBytes s c base (coord s 1) width height) (coord s 1) height k)))

/-- R146, R131, R133: packing four colours into the slots of a byte and decoding each slot gives them back, and
`ColorByte` is the code in all four slots. -/
def Obligations.PackedByteRoundTrip : Prop :=
  (∀ c0 c1 c2 c3 : Color, ∀ r : Fin 4,
    slotColor ((colorByte c0 &&& slotMask 0) ||| (colorByte c1 &&& slotMask 1) ||| (colorByte c2 &&& slotMask 2) |||
      (colorByte c3 &&& slotMask 3)) r.val = [c0, c1, c2, c3][r.val]'(r.isLt)) ∧
  (∀ (c : Color) (r : Fin 4), slotColor (colorByte c) r.val = c)

/-- R139: a draw of height at least 1 sends `width * (xe - xs + 1)` bytes, which is the window's count when the width is
at least 1 (R115). -/
def Obligations.DrawSendsTheWindowsByteCount : Prop :=
  ∀ (pick : Nat → Nat → Byte) (panelW x y width height : Nat), 1 ≤ height →
    let win := windowOf panelW x y width height
    ((drawBytes pick y width height).length : Int) = width * (win.xe - win.xs + 1) ∧
    ((drawBytes pick y width height).length : Int) = (win.ys - win.ye + 1) * (win.xe - win.xs + 1)

/-! ### Text -/

/-- R165, R57: SET_FONT of a readable header that passes both checks makes the font current; it reads the header only. A
header that fails one raises `FONT_HEADER`, in order. -/
def Obligations.SetFontAcceptsAValidHeaderOrFaults : Prop :=
  ∀ s : State, s.quiet = true → s.panelInit = true → s.racy = [] →
    let f := addrOperand s 4
    (∀ r ∈ headerReads f, s.params.readable r.addr r.width = true) →
    ((headerAt s.mem f).first ≤ (headerAt s.mem f).last → (headerAt s.mem f).gh ≤ s.panelH.toNat →
      exec .setFont s = .next { s.completed [] with
        fontBase := s.opL[(4 : Fin 7)], fontValid := true, memReads := s.memReads ++ headerReads f }) ∧
    ((headerAt s.mem f).last < (headerAt s.mem f).first →
      exec .setFont s = .next (faultEntry .fontHeader 0 (headerAt s.mem f).first none
        { s with memReads := s.memReads ++ headerReads f })) ∧
    ((headerAt s.mem f).first ≤ (headerAt s.mem f).last → s.panelH.toNat < (headerAt s.mem f).gh →
      exec .setFont s = .next (faultEntry .fontHeader 1 (headerAt s.mem f).gh none
        { s with memReads := s.memReads ++ headerReads f }))

/-- R166, R164: GET_TEXT_WIDTH writes the sum of the widths of the representable codes to `RESULT`, and reads `first`,
`last` and then each text byte with its entry. -/
def Obligations.GetTextWidthSumsTheWidths : Prop :=
  ∀ s : State, s.quiet = true → s.racy = [] →
    let f := addrOperand s 4
    let t := addrOperand s 5
    let n := lengthOperand s
    let hdr := headerAt s.mem f
    let reads := [⟨f + 2, 2⟩, ⟨f + 4, 2⟩] ++ widthReads s.mem f hdr.first hdr.last t n
    (∀ r ∈ reads, s.params.readable r.addr r.width = true) →
    exec .getTextWidth s = .next { s.completed [] with
      result := BitVec.ofNat 32 (widthOf s.mem f hdr.first hdr.last t n), memReads := s.memReads ++ reads }

/-- R171, R164: the width of a one-byte text, and additivity over concatenation; the sum fits 32 bits. -/
def Obligations.TextWidthIsAdditive : Prop :=
  ∀ (m : Memory) (f first last t n k : Nat),
    widthOf m f first last t (n + k) = widthOf m f first last t n + widthOf m f first last (t + n) k ∧
    (first ≤ textCode m t 0 ∧ textCode m t 0 ≤ last →
      widthOf m f first last t 1 = entryAt m f first (textCode m t 0) % 256) ∧
    (textCode m t 0 < first ∨ last < textCode m t 0 → widthOf m f first last t 1 = 0) ∧
    widthOf m f first last t n ≤ 255 * n

/-- R167, R168, R169, R170, R163: DRAW_TEXT that fits the panel's height: the reads in order, the start column by
alignment, one bracket for each glyph drawn, until the text ends or a glyph would pass the right edge. -/
def Obligations.DrawTextDrawsTheGlyphs : Prop :=
  ∀ (c : Color) (align : Align) (s : State), align ≠ .reserved → s.quiet = true → s.sel = false → s.panelInit = true →
    s.fontValid = true → s.racy = [] →
    let f := s.fontBase.toNat
    let hdr := headerAt s.mem f
    let y := coord s 1
    let t := addrOperand s 5
    let n := lengthOperand s
    let cx := alignedColumn s.mem align (coord s 0) f hdr.first hdr.last t n
    let pass := glyphPass s.mem f t s.panelW.toNat hdr n 0 cx
    let reads := headerReads f ++ alignReads s.mem align f hdr.first hdr.last t n ++ pass.2
    y + hdr.gh ≤ s.panelH.toNat →
    (∀ r ∈ reads, s.params.readable r.addr r.width = true) →
    (∀ g ∈ pass.1, (s.window g.cx y g.gw hdr.gh).inRange s.params = true ∧ bitmapDrawable s g.base g.gw hdr.gh = true) →
    exec (.drawText c align) s = .next { s.completed (pass.1.flatMap fun g =>
        drawEvents s.params (s.window g.cx y g.gw hdr.gh) (bitmapBytes s c g.base y g.gw hdr.gh)) with
      memReads := s.memReads ++ reads }

/-- R169: DRAW_TEXT with `y + gh > PANEL_H` is a no-op: no event, only the header is read. -/
def Obligations.DrawTextBelowThePanelIsANoOp : Prop :=
  ∀ (c : Color) (align : Align) (s : State), align ≠ .reserved → s.quiet = true → s.sel = false → s.panelInit = true →
    s.fontValid = true → s.racy = [] →
    let f := s.fontBase.toNat
    (∀ r ∈ headerReads f, s.params.readable r.addr r.width = true) →
    s.panelH.toNat < coord s 1 + (headerAt s.mem f).gh →
    exec (.drawText c align) s = .next { s.completed [] with memReads := s.memReads ++ headerReads f }

/-- R167, R182: DRAW_TEXT with no font raises `NO_FONT` before any memory read. R181, R13, R170: the first read of a command
that is not admitted, `r` after the reads `pre`, raises `MEM_ERROR` with its width and address, wherever it stands in the
order of the reads: in the header, in the width pass, before any event; at a text byte or its entry in the draw pass,
after the glyphs before it; at a bit of a glyph or of a bitmap in host memory, in the bracket of that draw, which fault
entry closes. -/
def Obligations.RefusedReadsRaiseMemError : Prop :=
  (∀ (c : Color) (align : Align) (s : State), s.quiet = true → align ≠ .reserved → s.sel = false → s.panelInit = true →
    s.fontValid = false → exec (.drawText c align) s = .next (faultEntry .noFont 0 0 none s)) ∧
  (∀ (s : State) (pre post : List MemReq) (r : MemReq), s.quiet = true → s.racy = [] →
    (∀ q ∈ pre, s.params.readable q.addr q.width = true) → s.params.readable r.addr r.width = false →
    let end_ : Host.Outcome State Fault Refusal := .next (faultEntry .memError 0 r.width (some r.addr)
      { s with memReads := s.memReads ++ pre })
    (∀ f, f = addrOperand s 4 → s.panelInit = true → headerReads f = pre ++ r :: post → exec .setFont s = end_) ∧
    (∀ f hdr, f = addrOperand s 4 → hdr = headerAt s.mem f →
      [⟨f + 2, 2⟩, ⟨f + 4, 2⟩] ++ widthReads s.mem f hdr.first hdr.last (addrOperand s 5) (lengthOperand s) =
        pre ++ r :: post →
      exec .getTextWidth s = end_) ∧
    (∀ (c : Color) (align : Align) f, f = s.fontBase.toNat → align ≠ .reserved → s.sel = false → s.panelInit = true →
      s.fontValid = true →
      headerReads f ++ (if coord s 1 + s.font.gh ≤ s.panelH.toNat then
        alignReads s.mem align f s.font.first s.font.last (addrOperand s 5) (lengthOperand s) else []) = pre ++ r :: post →
      exec (.drawText c align) s = end_)) ∧
  (∀ (c : Color) (align : Align) (s : State) (i : Nat) (pre post : List MemReq) (r : MemReq), TextReaches s align i →
    s.readsOf i = pre ++ r :: post → (∀ q ∈ pre, s.params.readable q.addr q.width = true) →
    s.params.readable r.addr r.width = false →
    exec (.drawText c align) s =
      .next (faultEntry .memError 0 r.width (some r.addr) (s.textTo c align i pre))) ∧
  (∀ (c : Color) (align : Align) (s : State) (i k : Nat), GlyphReaches s align i →
    let win := s.glyphWindow align i
    let base := s.glyphBase i
    let width := s.glyphWidth i
    let height := s.font.gh
    let a := bitmapAddr base width (k / height) (k % height)
    win.inRange s.params = true → k < width * height →
    (∀ r ∈ (bitmapReads base width height).take k, s.params.readable r.addr r.width = true) →
    (s.bgValid = true ∨ ∀ j < k, bitmapBit s.mem base width (j / height) (j % height) = true) →
    s.params.readable a 1 = false →
    exec (.drawText c align) s = .next (faultEntry .memError 0 1 (some a)
      ((s.textTo c align i (s.readsOf i ++ (bitmapReads base width height).take k)).drawnTo win
        (bitmapBytes s c base (coord s 1) width height) (coord s 1) height k))) ∧
  (∀ (c : Color) (s : State) (k : Nat), s.quiet = true → s.racy = [] → s.sel = false → s.panelInit = true →
    let win := s.window (coord s 0) (coord s 1) (coord s 2) (coord s 3)
    let base := addrOperand s 4
    let width := coord s 2
    let height := coord s 3
    let a := bitmapAddr base width (k / height) (k % height)
    win.inRange s.params = true → k < width * height →
    (∀ r ∈ (bitmapReads base width height).take k, s.params.readable r.addr r.width = true) →
    (s.bgValid = true ∨ ∀ j < k, bitmapBit s.mem base width (j / height) (j % height) = true) →
    s.params.readable a 1 = false →
    exec (.drawBitmap c .mem) s = .next (faultEntry .memError 0 1 (some a)
      { s.drawnTo win (bitmapBytes s c base (coord s 1) width height) (coord s 1) height k with
        memReads := s.memReads ++ (bitmapReads base width height).take k }))

/-! ### The whole machine -/

/-- Every step keeps the invariant of the block, `Inv` in Safety.lean, whatever the host does. Its clauses on host memory,
the poll loop and the host's writes are about the model's own state (log 6, log 7, log 14). -/
def Obligations.EveryStepKeepsTheInvariant : Prop := ∀ s t : State, Inv s → step s = .next t → Inv t

/-- The invariant holds after reset. -/
def Obligations.ResetMeetsTheInvariant : Prop := Inv State.reset

/-- R102, R103, R104, R122, R185: the bracket discipline of every step, whatever the host does short of a reset. The step's
events `es` keep it from where the bracket stood before: none is opened inside another, no `CMD` or `DAT` is sent outside
one, `ACQ` and `REL` stand around it exactly on a shared bus. A step that leaves the block not halted ends where `Sel` says.
A step that ends halted leaves `Sel` clear and no bracket open: after `es` comes `close`, which is `END` (and `REL` on a shared
bus) inside a bracket and between `END` and `REL`, nothing between `ACQ` and `BEGIN`, and either of the two outside a bracket:
`Sel` at the fault is not named here, and FaultEntryRecordsAndHalts ties `END` to it. Both choices of log 3 are the model's: the
overrun of a `CMD` write between `BEGIN` and `Sel <- true` sends `END`, and that of one between `END` and the clearing of `Sel`
sends it once more. Poll passes of UPDATE are steps (log 14). -/
def Obligations.StepsKeepTheBracketDiscipline : Prop :=
  ∀ s t : State, Inv s → s.noReset = true → step s = .next t →
    ∃ es close place, t.trace = s.trace ++ (es ++ close) ∧ brackets s.params.sharedBus s.bracket es = some place ∧
      (t.fault = false → close = [] ∧ place = t.bracket) ∧
      (t.fault = true → t.sel = false ∧
        ((close = [] ∧ (place = .closed ∨ place = .acquired)) ∨
          (close = (if s.params.sharedBus then [.fin, .rel] else [.fin]) ∧ place ≠ .acquired)))

/-- R26, R28, R29, R30, R32, R36: which command writes which register, whatever the host does short of a reset; a pass of an
UPDATE's poll loop, a step of its own in the model (log 14), writes none of them. -/
def Obligations.OnlyItsCommandWritesARegister : Prop :=
  ∀ s t : State, s.noReset = true →
    (∀ i : Instr, exec i s = .next t →
      (i ≠ .panelInit → t.panelW = s.panelW ∧ t.panelH = s.panelH ∧ t.panelInit = s.panelInit) ∧
      ((∀ c, i ≠ .setBg c) → t.bg = s.bg ∧ t.bgValid = s.bgValid) ∧
      (i ≠ .setFont → t.fontBase = s.fontBase ∧ t.fontValid = s.fontValid) ∧
      (i ≠ .getTextWidth → t.result = s.result) ∧
      (i ≠ .start → i ≠ .stop → t.cstate = s.cstate) ∧
      t.cmdL = s.cmdL ∧ t.opL = s.opL ∧ t.params = s.params) ∧
    (s.poll = true → s.sel = false → step s = .next t →
      t.panelW = s.panelW ∧ t.panelH = s.panelH ∧ t.panelInit = s.panelInit ∧ t.bg = s.bg ∧ t.bgValid = s.bgValid ∧
      t.fontBase = s.fontBase ∧ t.fontValid = s.fontValid ∧ t.result = s.result ∧ t.cstate = s.cstate ∧
      t.cmdL = s.cmdL ∧ t.opL = s.opL ∧ t.params = s.params)

/-- R185, R101: a command that ends in a fault, whichever and wherever, leaves the panel, the background, the font, the
result, the power state and the valid bits as they were (a `CMD_OVERRUN` between its register writes undoes those made, the
model's reading, log 4); an UPDATE that ends in one in its poll loop too, a pass of which
is a step of its own in the model (log 14). -/
def Obligations.FaultedCommandWritesNoRegister : Prop :=
  ∀ s t : State, s.fault = false → ((∃ i, exec i s = .next t) ∨ (s.poll = true ∧ s.sel = false ∧ step s = .next t)) →
    t.fault = true →
    t.panelW = s.panelW ∧ t.panelH = s.panelH ∧ t.panelInit = s.panelInit ∧ t.bg = s.bg ∧ t.bgValid = s.bgValid ∧
    t.fontBase = s.fontBase ∧ t.fontValid = s.fontValid ∧ t.result = s.result ∧ t.cstate = s.cstate ∧
    t.busy = false ∧ t.sel = false

/-- R36, R44: a running command does not see the argument registers: it uses the latched copy. -/
def Obligations.CommandsUseTheLatchedOperands : Prop :=
  ∀ (i : Instr) (s t : State) (a : Vector Word 7), s.quiet = true → exec i s = .next t →
    exec i { s with args := a } = .next { t with args := a }

/-- R20, R6: a step only appends to the trace, and the parameters never change. -/
def Obligations.TraceOnlyGrows : Prop :=
  ∀ s t : State, step s = .next t → (∃ es, t.trace = s.trace ++ es) ∧ t.params = s.params

/-- R50: the block never writes host memory: a step without a host write of memory leaves every byte as it was. -/
def Obligations.BlockNeverWritesHostMemory : Prop :=
  ∀ s t : State, (∀ a v, .poke a v ∉ s.host) → step s = .next t → t.mem = s.mem

/-- R50, R63: host memory as a store of bytes: a host write of memory on an idle or halted block changes the byte it
names and no other, and no register; no event is emitted. The write as a step is the model's (log 6, log 11). -/
def Obligations.HostMemoryWriteIsLocal : Prop :=
  ∀ (s : State) (a : Word) (v : Byte) (rest : List HostAction),
    s.poll = false → s.busy = false → Memory.wf s.mem = true → s.host = .poke a v :: rest →
    ∃ m, step s = .next { s with host := rest, mem := m } ∧ Memory.wf m = true ∧ Memory.read m a.toNat = v ∧
      ∀ b, b ≠ a.toNat → Memory.read m b = Memory.read s.mem b
end

