-- ==== Sys2Proof/Laws/State.lean ====
section
/-! SUPPORT. What each named update of the state does to each field, one lemma a field, all true by unfolding. The proofs
cite these instead of unfolding a record update. -/

namespace Sys2Proof.Machine

/-! ### `State.emitted` -/

@[simp] theorem State.emitted_args (s : State) (es : List Event) : (s.emitted es).args = s.args := rfl
@[simp] theorem State.emitted_busy (s : State) (es : List Event) : (s.emitted es).busy = s.busy := rfl
@[simp] theorem State.emitted_fault (s : State) (es : List Event) : (s.emitted es).fault = s.fault := rfl
@[simp] theorem State.emitted_sel (s : State) (es : List Event) : (s.emitted es).sel = s.sel := rfl
@[simp] theorem State.emitted_cstate (s : State) (es : List Event) : (s.emitted es).cstate = s.cstate := rfl
@[simp] theorem State.emitted_panelInit (s : State) (es : List Event) : (s.emitted es).panelInit = s.panelInit := rfl
@[simp] theorem State.emitted_bgValid (s : State) (es : List Event) : (s.emitted es).bgValid = s.bgValid := rfl
@[simp] theorem State.emitted_fontValid (s : State) (es : List Event) : (s.emitted es).fontValid = s.fontValid := rfl
@[simp] theorem State.emitted_cause (s : State) (es : List Event) : (s.emitted es).cause = s.cause := rfl
@[simp] theorem State.emitted_faultInfo (s : State) (es : List Event) : (s.emitted es).faultInfo = s.faultInfo := rfl
@[simp] theorem State.emitted_faultAddr (s : State) (es : List Event) : (s.emitted es).faultAddr = s.faultAddr := rfl
@[simp] theorem State.emitted_result (s : State) (es : List Event) : (s.emitted es).result = s.result := rfl
@[simp] theorem State.emitted_panelW (s : State) (es : List Event) : (s.emitted es).panelW = s.panelW := rfl
@[simp] theorem State.emitted_panelH (s : State) (es : List Event) : (s.emitted es).panelH = s.panelH := rfl
@[simp] theorem State.emitted_bg (s : State) (es : List Event) : (s.emitted es).bg = s.bg := rfl
@[simp] theorem State.emitted_fontBase (s : State) (es : List Event) : (s.emitted es).fontBase = s.fontBase := rfl
@[simp] theorem State.emitted_cmdL (s : State) (es : List Event) : (s.emitted es).cmdL = s.cmdL := rfl
@[simp] theorem State.emitted_opL (s : State) (es : List Event) : (s.emitted es).opL = s.opL := rfl
@[simp] theorem State.emitted_poll (s : State) (es : List Event) : (s.emitted es).poll = s.poll := rfl
@[simp] theorem State.emitted_sampleReq (s : State) (es : List Event) : (s.emitted es).sampleReq = s.sampleReq := rfl
@[simp] theorem State.emitted_racy (s : State) (es : List Event) : (s.emitted es).racy = s.racy := rfl
@[simp] theorem State.emitted_pins (s : State) (es : List Event) : (s.emitted es).pins = es.foldl (fun q e => q.drive s.params e) s.pins := rfl
@[simp] theorem State.emitted_trace (s : State) (es : List Event) : (s.emitted es).trace = s.trace ++ es := rfl
@[simp] theorem State.emitted_params (s : State) (es : List Event) : (s.emitted es).params = s.params := rfl
@[simp] theorem State.emitted_mem (s : State) (es : List Event) : (s.emitted es).mem = s.mem := rfl
@[simp] theorem State.emitted_host (s : State) (es : List Event) : (s.emitted es).host = s.host := rfl
@[simp] theorem State.emitted_busyLine (s : State) (es : List Event) : (s.emitted es).busyLine = s.busyLine := rfl
@[simp] theorem State.emitted_samples (s : State) (es : List Event) : (s.emitted es).samples = s.samples := rfl
@[simp] theorem State.emitted_draws (s : State) (es : List Event) : (s.emitted es).draws = s.draws := rfl
@[simp] theorem State.emitted_memReads (s : State) (es : List Event) : (s.emitted es).memReads = s.memReads := rfl
@[simp] theorem State.emitted_sampleLog (s : State) (es : List Event) : (s.emitted es).sampleLog = s.sampleLog := rfl
@[simp] theorem State.emitted_regReads (s : State) (es : List Event) : (s.emitted es).regReads = s.regReads := rfl

/-! ### `endCommand` -/

@[simp] theorem endCommand_args (s : State) : (endCommand s).args = s.args := rfl
@[simp] theorem endCommand_busy (s : State) : (endCommand s).busy = false := rfl
@[simp] theorem endCommand_fault (s : State) : (endCommand s).fault = s.fault := rfl
@[simp] theorem endCommand_sel (s : State) : (endCommand s).sel = s.sel := rfl
@[simp] theorem endCommand_cstate (s : State) : (endCommand s).cstate = s.cstate := rfl
@[simp] theorem endCommand_panelInit (s : State) : (endCommand s).panelInit = s.panelInit := rfl
@[simp] theorem endCommand_bgValid (s : State) : (endCommand s).bgValid = s.bgValid := rfl
@[simp] theorem endCommand_fontValid (s : State) : (endCommand s).fontValid = s.fontValid := rfl
@[simp] theorem endCommand_cause (s : State) : (endCommand s).cause = s.cause := rfl
@[simp] theorem endCommand_faultInfo (s : State) : (endCommand s).faultInfo = s.faultInfo := rfl
@[simp] theorem endCommand_faultAddr (s : State) : (endCommand s).faultAddr = s.faultAddr := rfl
@[simp] theorem endCommand_result (s : State) : (endCommand s).result = s.result := rfl
@[simp] theorem endCommand_panelW (s : State) : (endCommand s).panelW = s.panelW := rfl
@[simp] theorem endCommand_panelH (s : State) : (endCommand s).panelH = s.panelH := rfl
@[simp] theorem endCommand_bg (s : State) : (endCommand s).bg = s.bg := rfl
@[simp] theorem endCommand_fontBase (s : State) : (endCommand s).fontBase = s.fontBase := rfl
@[simp] theorem endCommand_cmdL (s : State) : (endCommand s).cmdL = s.cmdL := rfl
@[simp] theorem endCommand_opL (s : State) : (endCommand s).opL = s.opL := rfl
@[simp] theorem endCommand_poll (s : State) : (endCommand s).poll = false := rfl
@[simp] theorem endCommand_sampleReq (s : State) : (endCommand s).sampleReq = none := rfl
@[simp] theorem endCommand_racy (s : State) : (endCommand s).racy = [] := rfl
@[simp] theorem endCommand_pins (s : State) : (endCommand s).pins = s.pins.release := rfl
@[simp] theorem endCommand_trace (s : State) : (endCommand s).trace = s.trace := rfl
@[simp] theorem endCommand_params (s : State) : (endCommand s).params = s.params := rfl
@[simp] theorem endCommand_mem (s : State) : (endCommand s).mem = s.mem := rfl
@[simp] theorem endCommand_host (s : State) : (endCommand s).host = s.host := rfl
@[simp] theorem endCommand_busyLine (s : State) : (endCommand s).busyLine = s.busyLine := rfl
@[simp] theorem endCommand_samples (s : State) : (endCommand s).samples = s.samples := rfl
@[simp] theorem endCommand_draws (s : State) : (endCommand s).draws = s.draws := rfl
@[simp] theorem endCommand_memReads (s : State) : (endCommand s).memReads = s.memReads := rfl
@[simp] theorem endCommand_sampleLog (s : State) : (endCommand s).sampleLog = s.sampleLog := rfl
@[simp] theorem endCommand_regReads (s : State) : (endCommand s).regReads = s.regReads := rfl

/-! ### `openBracket` -/

@[simp] theorem openBracket_args (s : State) : (openBracket s).args = s.args := rfl
@[simp] theorem openBracket_busy (s : State) : (openBracket s).busy = s.busy := rfl
@[simp] theorem openBracket_fault (s : State) : (openBracket s).fault = s.fault := rfl
@[simp] theorem openBracket_sel (s : State) : (openBracket s).sel = true := rfl
@[simp] theorem openBracket_cstate (s : State) : (openBracket s).cstate = s.cstate := rfl
@[simp] theorem openBracket_panelInit (s : State) : (openBracket s).panelInit = s.panelInit := rfl
@[simp] theorem openBracket_bgValid (s : State) : (openBracket s).bgValid = s.bgValid := rfl
@[simp] theorem openBracket_fontValid (s : State) : (openBracket s).fontValid = s.fontValid := rfl
@[simp] theorem openBracket_cause (s : State) : (openBracket s).cause = s.cause := rfl
@[simp] theorem openBracket_faultInfo (s : State) : (openBracket s).faultInfo = s.faultInfo := rfl
@[simp] theorem openBracket_faultAddr (s : State) : (openBracket s).faultAddr = s.faultAddr := rfl
@[simp] theorem openBracket_result (s : State) : (openBracket s).result = s.result := rfl
@[simp] theorem openBracket_panelW (s : State) : (openBracket s).panelW = s.panelW := rfl
@[simp] theorem openBracket_panelH (s : State) : (openBracket s).panelH = s.panelH := rfl
@[simp] theorem openBracket_bg (s : State) : (openBracket s).bg = s.bg := rfl
@[simp] theorem openBracket_fontBase (s : State) : (openBracket s).fontBase = s.fontBase := rfl
@[simp] theorem openBracket_cmdL (s : State) : (openBracket s).cmdL = s.cmdL := rfl
@[simp] theorem openBracket_opL (s : State) : (openBracket s).opL = s.opL := rfl
@[simp] theorem openBracket_poll (s : State) : (openBracket s).poll = s.poll := rfl
@[simp] theorem openBracket_sampleReq (s : State) : (openBracket s).sampleReq = s.sampleReq := rfl
@[simp] theorem openBracket_racy (s : State) : (openBracket s).racy = s.racy := rfl
@[simp] theorem openBracket_pins (s : State) : (openBracket s).pins = (openEvents s.params).foldl (fun q e => q.drive s.params e) s.pins := rfl
@[simp] theorem openBracket_trace (s : State) : (openBracket s).trace = s.trace ++ openEvents s.params := rfl
@[simp] theorem openBracket_params (s : State) : (openBracket s).params = s.params := rfl
@[simp] theorem openBracket_mem (s : State) : (openBracket s).mem = s.mem := rfl
@[simp] theorem openBracket_host (s : State) : (openBracket s).host = s.host := rfl
@[simp] theorem openBracket_busyLine (s : State) : (openBracket s).busyLine = s.busyLine := rfl
@[simp] theorem openBracket_samples (s : State) : (openBracket s).samples = s.samples := rfl
@[simp] theorem openBracket_draws (s : State) : (openBracket s).draws = s.draws := rfl
@[simp] theorem openBracket_memReads (s : State) : (openBracket s).memReads = s.memReads := rfl
@[simp] theorem openBracket_sampleLog (s : State) : (openBracket s).sampleLog = s.sampleLog := rfl
@[simp] theorem openBracket_regReads (s : State) : (openBracket s).regReads = s.regReads := rfl

/-! ### `closeBracket` -/

@[simp] theorem closeBracket_args (s : State) : (closeBracket s).args = s.args := rfl
@[simp] theorem closeBracket_busy (s : State) : (closeBracket s).busy = s.busy := rfl
@[simp] theorem closeBracket_fault (s : State) : (closeBracket s).fault = s.fault := rfl
@[simp] theorem closeBracket_sel (s : State) : (closeBracket s).sel = false := rfl
@[simp] theorem closeBracket_cstate (s : State) : (closeBracket s).cstate = s.cstate := rfl
@[simp] theorem closeBracket_panelInit (s : State) : (closeBracket s).panelInit = s.panelInit := rfl
@[simp] theorem closeBracket_bgValid (s : State) : (closeBracket s).bgValid = s.bgValid := rfl
@[simp] theorem closeBracket_fontValid (s : State) : (closeBracket s).fontValid = s.fontValid := rfl
@[simp] theorem closeBracket_cause (s : State) : (closeBracket s).cause = s.cause := rfl
@[simp] theorem closeBracket_faultInfo (s : State) : (closeBracket s).faultInfo = s.faultInfo := rfl
@[simp] theorem closeBracket_faultAddr (s : State) : (closeBracket s).faultAddr = s.faultAddr := rfl
@[simp] theorem closeBracket_result (s : State) : (closeBracket s).result = s.result := rfl
@[simp] theorem closeBracket_panelW (s : State) : (closeBracket s).panelW = s.panelW := rfl
@[simp] theorem closeBracket_panelH (s : State) : (closeBracket s).panelH = s.panelH := rfl
@[simp] theorem closeBracket_bg (s : State) : (closeBracket s).bg = s.bg := rfl
@[simp] theorem closeBracket_fontBase (s : State) : (closeBracket s).fontBase = s.fontBase := rfl
@[simp] theorem closeBracket_cmdL (s : State) : (closeBracket s).cmdL = s.cmdL := rfl
@[simp] theorem closeBracket_opL (s : State) : (closeBracket s).opL = s.opL := rfl
@[simp] theorem closeBracket_poll (s : State) : (closeBracket s).poll = s.poll := rfl
@[simp] theorem closeBracket_sampleReq (s : State) : (closeBracket s).sampleReq = s.sampleReq := rfl
@[simp] theorem closeBracket_racy (s : State) : (closeBracket s).racy = s.racy := rfl
@[simp] theorem closeBracket_pins (s : State) : (closeBracket s).pins = (closeEvents s.params).foldl (fun q e => q.drive s.params e) s.pins := rfl
@[simp] theorem closeBracket_trace (s : State) : (closeBracket s).trace = s.trace ++ closeEvents s.params := rfl
@[simp] theorem closeBracket_params (s : State) : (closeBracket s).params = s.params := rfl
@[simp] theorem closeBracket_mem (s : State) : (closeBracket s).mem = s.mem := rfl
@[simp] theorem closeBracket_host (s : State) : (closeBracket s).host = s.host := rfl
@[simp] theorem closeBracket_busyLine (s : State) : (closeBracket s).busyLine = s.busyLine := rfl
@[simp] theorem closeBracket_samples (s : State) : (closeBracket s).samples = s.samples := rfl
@[simp] theorem closeBracket_draws (s : State) : (closeBracket s).draws = s.draws := rfl
@[simp] theorem closeBracket_memReads (s : State) : (closeBracket s).memReads = s.memReads := rfl
@[simp] theorem closeBracket_sampleLog (s : State) : (closeBracket s).sampleLog = s.sampleLog := rfl
@[simp] theorem closeBracket_regReads (s : State) : (closeBracket s).regReads = s.regReads := rfl

/-! ### `setSel` -/

@[simp] theorem setSel_args (b : Bool) (s : State) : (setSel b s).args = s.args := rfl
@[simp] theorem setSel_busy (b : Bool) (s : State) : (setSel b s).busy = s.busy := rfl
@[simp] theorem setSel_fault (b : Bool) (s : State) : (setSel b s).fault = s.fault := rfl
@[simp] theorem setSel_sel (b : Bool) (s : State) : (setSel b s).sel = b := rfl
@[simp] theorem setSel_cstate (b : Bool) (s : State) : (setSel b s).cstate = s.cstate := rfl
@[simp] theorem setSel_panelInit (b : Bool) (s : State) : (setSel b s).panelInit = s.panelInit := rfl
@[simp] theorem setSel_bgValid (b : Bool) (s : State) : (setSel b s).bgValid = s.bgValid := rfl
@[simp] theorem setSel_fontValid (b : Bool) (s : State) : (setSel b s).fontValid = s.fontValid := rfl
@[simp] theorem setSel_cause (b : Bool) (s : State) : (setSel b s).cause = s.cause := rfl
@[simp] theorem setSel_faultInfo (b : Bool) (s : State) : (setSel b s).faultInfo = s.faultInfo := rfl
@[simp] theorem setSel_faultAddr (b : Bool) (s : State) : (setSel b s).faultAddr = s.faultAddr := rfl
@[simp] theorem setSel_result (b : Bool) (s : State) : (setSel b s).result = s.result := rfl
@[simp] theorem setSel_panelW (b : Bool) (s : State) : (setSel b s).panelW = s.panelW := rfl
@[simp] theorem setSel_panelH (b : Bool) (s : State) : (setSel b s).panelH = s.panelH := rfl
@[simp] theorem setSel_bg (b : Bool) (s : State) : (setSel b s).bg = s.bg := rfl
@[simp] theorem setSel_fontBase (b : Bool) (s : State) : (setSel b s).fontBase = s.fontBase := rfl
@[simp] theorem setSel_cmdL (b : Bool) (s : State) : (setSel b s).cmdL = s.cmdL := rfl
@[simp] theorem setSel_opL (b : Bool) (s : State) : (setSel b s).opL = s.opL := rfl
@[simp] theorem setSel_poll (b : Bool) (s : State) : (setSel b s).poll = s.poll := rfl
@[simp] theorem setSel_sampleReq (b : Bool) (s : State) : (setSel b s).sampleReq = s.sampleReq := rfl
@[simp] theorem setSel_racy (b : Bool) (s : State) : (setSel b s).racy = s.racy := rfl
@[simp] theorem setSel_pins (b : Bool) (s : State) : (setSel b s).pins = s.pins := rfl
@[simp] theorem setSel_trace (b : Bool) (s : State) : (setSel b s).trace = s.trace := rfl
@[simp] theorem setSel_params (b : Bool) (s : State) : (setSel b s).params = s.params := rfl
@[simp] theorem setSel_mem (b : Bool) (s : State) : (setSel b s).mem = s.mem := rfl
@[simp] theorem setSel_host (b : Bool) (s : State) : (setSel b s).host = s.host := rfl
@[simp] theorem setSel_busyLine (b : Bool) (s : State) : (setSel b s).busyLine = s.busyLine := rfl
@[simp] theorem setSel_samples (b : Bool) (s : State) : (setSel b s).samples = s.samples := rfl
@[simp] theorem setSel_draws (b : Bool) (s : State) : (setSel b s).draws = s.draws := rfl
@[simp] theorem setSel_memReads (b : Bool) (s : State) : (setSel b s).memReads = s.memReads := rfl
@[simp] theorem setSel_sampleLog (b : Bool) (s : State) : (setSel b s).sampleLog = s.sampleLog := rfl
@[simp] theorem setSel_regReads (b : Bool) (s : State) : (setSel b s).regReads = s.regReads := rfl

/-! ### `setCause` -/

@[simp] theorem setCause_args (c : Cause) (s : State) : (setCause c s).args = s.args := rfl
@[simp] theorem setCause_busy (c : Cause) (s : State) : (setCause c s).busy = s.busy := rfl
@[simp] theorem setCause_fault (c : Cause) (s : State) : (setCause c s).fault = s.fault := rfl
@[simp] theorem setCause_sel (c : Cause) (s : State) : (setCause c s).sel = s.sel := rfl
@[simp] theorem setCause_cstate (c : Cause) (s : State) : (setCause c s).cstate = s.cstate := rfl
@[simp] theorem setCause_panelInit (c : Cause) (s : State) : (setCause c s).panelInit = s.panelInit := rfl
@[simp] theorem setCause_bgValid (c : Cause) (s : State) : (setCause c s).bgValid = s.bgValid := rfl
@[simp] theorem setCause_fontValid (c : Cause) (s : State) : (setCause c s).fontValid = s.fontValid := rfl
@[simp] theorem setCause_cause (c : Cause) (s : State) : (setCause c s).cause = c := rfl
@[simp] theorem setCause_faultInfo (c : Cause) (s : State) : (setCause c s).faultInfo = s.faultInfo := rfl
@[simp] theorem setCause_faultAddr (c : Cause) (s : State) : (setCause c s).faultAddr = s.faultAddr := rfl
@[simp] theorem setCause_result (c : Cause) (s : State) : (setCause c s).result = s.result := rfl
@[simp] theorem setCause_panelW (c : Cause) (s : State) : (setCause c s).panelW = s.panelW := rfl
@[simp] theorem setCause_panelH (c : Cause) (s : State) : (setCause c s).panelH = s.panelH := rfl
@[simp] theorem setCause_bg (c : Cause) (s : State) : (setCause c s).bg = s.bg := rfl
@[simp] theorem setCause_fontBase (c : Cause) (s : State) : (setCause c s).fontBase = s.fontBase := rfl
@[simp] theorem setCause_cmdL (c : Cause) (s : State) : (setCause c s).cmdL = s.cmdL := rfl
@[simp] theorem setCause_opL (c : Cause) (s : State) : (setCause c s).opL = s.opL := rfl
@[simp] theorem setCause_poll (c : Cause) (s : State) : (setCause c s).poll = s.poll := rfl
@[simp] theorem setCause_sampleReq (c : Cause) (s : State) : (setCause c s).sampleReq = s.sampleReq := rfl
@[simp] theorem setCause_racy (c : Cause) (s : State) : (setCause c s).racy = s.racy := rfl
@[simp] theorem setCause_pins (c : Cause) (s : State) : (setCause c s).pins = s.pins := rfl
@[simp] theorem setCause_trace (c : Cause) (s : State) : (setCause c s).trace = s.trace := rfl
@[simp] theorem setCause_params (c : Cause) (s : State) : (setCause c s).params = s.params := rfl
@[simp] theorem setCause_mem (c : Cause) (s : State) : (setCause c s).mem = s.mem := rfl
@[simp] theorem setCause_host (c : Cause) (s : State) : (setCause c s).host = s.host := rfl
@[simp] theorem setCause_busyLine (c : Cause) (s : State) : (setCause c s).busyLine = s.busyLine := rfl
@[simp] theorem setCause_samples (c : Cause) (s : State) : (setCause c s).samples = s.samples := rfl
@[simp] theorem setCause_draws (c : Cause) (s : State) : (setCause c s).draws = s.draws := rfl
@[simp] theorem setCause_memReads (c : Cause) (s : State) : (setCause c s).memReads = s.memReads := rfl
@[simp] theorem setCause_sampleLog (c : Cause) (s : State) : (setCause c s).sampleLog = s.sampleLog := rfl
@[simp] theorem setCause_regReads (c : Cause) (s : State) : (setCause c s).regReads = s.regReads := rfl

/-! ### `setFaultInfo` -/

@[simp] theorem setFaultInfo_args (d : Nat) (v : Int) (s : State) : (setFaultInfo d v s).args = s.args := rfl
@[simp] theorem setFaultInfo_busy (d : Nat) (v : Int) (s : State) : (setFaultInfo d v s).busy = s.busy := rfl
@[simp] theorem setFaultInfo_fault (d : Nat) (v : Int) (s : State) : (setFaultInfo d v s).fault = s.fault := rfl
@[simp] theorem setFaultInfo_sel (d : Nat) (v : Int) (s : State) : (setFaultInfo d v s).sel = s.sel := rfl
@[simp] theorem setFaultInfo_cstate (d : Nat) (v : Int) (s : State) : (setFaultInfo d v s).cstate = s.cstate := rfl
@[simp] theorem setFaultInfo_panelInit (d : Nat) (v : Int) (s : State) : (setFaultInfo d v s).panelInit = s.panelInit := rfl
@[simp] theorem setFaultInfo_bgValid (d : Nat) (v : Int) (s : State) : (setFaultInfo d v s).bgValid = s.bgValid := rfl
@[simp] theorem setFaultInfo_fontValid (d : Nat) (v : Int) (s : State) : (setFaultInfo d v s).fontValid = s.fontValid := rfl
@[simp] theorem setFaultInfo_cause (d : Nat) (v : Int) (s : State) : (setFaultInfo d v s).cause = s.cause := rfl
@[simp] theorem setFaultInfo_faultInfo (d : Nat) (v : Int) (s : State) : (setFaultInfo d v s).faultInfo = faultInfoWord (opcField s.cmdL) d v := rfl
@[simp] theorem setFaultInfo_faultAddr (d : Nat) (v : Int) (s : State) : (setFaultInfo d v s).faultAddr = s.faultAddr := rfl
@[simp] theorem setFaultInfo_result (d : Nat) (v : Int) (s : State) : (setFaultInfo d v s).result = s.result := rfl
@[simp] theorem setFaultInfo_panelW (d : Nat) (v : Int) (s : State) : (setFaultInfo d v s).panelW = s.panelW := rfl
@[simp] theorem setFaultInfo_panelH (d : Nat) (v : Int) (s : State) : (setFaultInfo d v s).panelH = s.panelH := rfl
@[simp] theorem setFaultInfo_bg (d : Nat) (v : Int) (s : State) : (setFaultInfo d v s).bg = s.bg := rfl
@[simp] theorem setFaultInfo_fontBase (d : Nat) (v : Int) (s : State) : (setFaultInfo d v s).fontBase = s.fontBase := rfl
@[simp] theorem setFaultInfo_cmdL (d : Nat) (v : Int) (s : State) : (setFaultInfo d v s).cmdL = s.cmdL := rfl
@[simp] theorem setFaultInfo_opL (d : Nat) (v : Int) (s : State) : (setFaultInfo d v s).opL = s.opL := rfl
@[simp] theorem setFaultInfo_poll (d : Nat) (v : Int) (s : State) : (setFaultInfo d v s).poll = s.poll := rfl
@[simp] theorem setFaultInfo_sampleReq (d : Nat) (v : Int) (s : State) : (setFaultInfo d v s).sampleReq = s.sampleReq := rfl
@[simp] theorem setFaultInfo_racy (d : Nat) (v : Int) (s : State) : (setFaultInfo d v s).racy = s.racy := rfl
@[simp] theorem setFaultInfo_pins (d : Nat) (v : Int) (s : State) : (setFaultInfo d v s).pins = s.pins := rfl
@[simp] theorem setFaultInfo_trace (d : Nat) (v : Int) (s : State) : (setFaultInfo d v s).trace = s.trace := rfl
@[simp] theorem setFaultInfo_params (d : Nat) (v : Int) (s : State) : (setFaultInfo d v s).params = s.params := rfl
@[simp] theorem setFaultInfo_mem (d : Nat) (v : Int) (s : State) : (setFaultInfo d v s).mem = s.mem := rfl
@[simp] theorem setFaultInfo_host (d : Nat) (v : Int) (s : State) : (setFaultInfo d v s).host = s.host := rfl
@[simp] theorem setFaultInfo_busyLine (d : Nat) (v : Int) (s : State) : (setFaultInfo d v s).busyLine = s.busyLine := rfl
@[simp] theorem setFaultInfo_samples (d : Nat) (v : Int) (s : State) : (setFaultInfo d v s).samples = s.samples := rfl
@[simp] theorem setFaultInfo_draws (d : Nat) (v : Int) (s : State) : (setFaultInfo d v s).draws = s.draws := rfl
@[simp] theorem setFaultInfo_memReads (d : Nat) (v : Int) (s : State) : (setFaultInfo d v s).memReads = s.memReads := rfl
@[simp] theorem setFaultInfo_sampleLog (d : Nat) (v : Int) (s : State) : (setFaultInfo d v s).sampleLog = s.sampleLog := rfl
@[simp] theorem setFaultInfo_regReads (d : Nat) (v : Int) (s : State) : (setFaultInfo d v s).regReads = s.regReads := rfl

/-! ### `setFaultAddr` -/

@[simp] theorem setFaultAddr_args (a : Nat) (s : State) : (setFaultAddr a s).args = s.args := rfl
@[simp] theorem setFaultAddr_busy (a : Nat) (s : State) : (setFaultAddr a s).busy = s.busy := rfl
@[simp] theorem setFaultAddr_fault (a : Nat) (s : State) : (setFaultAddr a s).fault = s.fault := rfl
@[simp] theorem setFaultAddr_sel (a : Nat) (s : State) : (setFaultAddr a s).sel = s.sel := rfl
@[simp] theorem setFaultAddr_cstate (a : Nat) (s : State) : (setFaultAddr a s).cstate = s.cstate := rfl
@[simp] theorem setFaultAddr_panelInit (a : Nat) (s : State) : (setFaultAddr a s).panelInit = s.panelInit := rfl
@[simp] theorem setFaultAddr_bgValid (a : Nat) (s : State) : (setFaultAddr a s).bgValid = s.bgValid := rfl
@[simp] theorem setFaultAddr_fontValid (a : Nat) (s : State) : (setFaultAddr a s).fontValid = s.fontValid := rfl
@[simp] theorem setFaultAddr_cause (a : Nat) (s : State) : (setFaultAddr a s).cause = s.cause := rfl
@[simp] theorem setFaultAddr_faultInfo (a : Nat) (s : State) : (setFaultAddr a s).faultInfo = s.faultInfo := rfl
@[simp] theorem setFaultAddr_faultAddr (a : Nat) (s : State) : (setFaultAddr a s).faultAddr = BitVec.ofNat 32 a := rfl
@[simp] theorem setFaultAddr_result (a : Nat) (s : State) : (setFaultAddr a s).result = s.result := rfl
@[simp] theorem setFaultAddr_panelW (a : Nat) (s : State) : (setFaultAddr a s).panelW = s.panelW := rfl
@[simp] theorem setFaultAddr_panelH (a : Nat) (s : State) : (setFaultAddr a s).panelH = s.panelH := rfl
@[simp] theorem setFaultAddr_bg (a : Nat) (s : State) : (setFaultAddr a s).bg = s.bg := rfl
@[simp] theorem setFaultAddr_fontBase (a : Nat) (s : State) : (setFaultAddr a s).fontBase = s.fontBase := rfl
@[simp] theorem setFaultAddr_cmdL (a : Nat) (s : State) : (setFaultAddr a s).cmdL = s.cmdL := rfl
@[simp] theorem setFaultAddr_opL (a : Nat) (s : State) : (setFaultAddr a s).opL = s.opL := rfl
@[simp] theorem setFaultAddr_poll (a : Nat) (s : State) : (setFaultAddr a s).poll = s.poll := rfl
@[simp] theorem setFaultAddr_sampleReq (a : Nat) (s : State) : (setFaultAddr a s).sampleReq = s.sampleReq := rfl
@[simp] theorem setFaultAddr_racy (a : Nat) (s : State) : (setFaultAddr a s).racy = s.racy := rfl
@[simp] theorem setFaultAddr_pins (a : Nat) (s : State) : (setFaultAddr a s).pins = s.pins := rfl
@[simp] theorem setFaultAddr_trace (a : Nat) (s : State) : (setFaultAddr a s).trace = s.trace := rfl
@[simp] theorem setFaultAddr_params (a : Nat) (s : State) : (setFaultAddr a s).params = s.params := rfl
@[simp] theorem setFaultAddr_mem (a : Nat) (s : State) : (setFaultAddr a s).mem = s.mem := rfl
@[simp] theorem setFaultAddr_host (a : Nat) (s : State) : (setFaultAddr a s).host = s.host := rfl
@[simp] theorem setFaultAddr_busyLine (a : Nat) (s : State) : (setFaultAddr a s).busyLine = s.busyLine := rfl
@[simp] theorem setFaultAddr_samples (a : Nat) (s : State) : (setFaultAddr a s).samples = s.samples := rfl
@[simp] theorem setFaultAddr_draws (a : Nat) (s : State) : (setFaultAddr a s).draws = s.draws := rfl
@[simp] theorem setFaultAddr_memReads (a : Nat) (s : State) : (setFaultAddr a s).memReads = s.memReads := rfl
@[simp] theorem setFaultAddr_sampleLog (a : Nat) (s : State) : (setFaultAddr a s).sampleLog = s.sampleLog := rfl
@[simp] theorem setFaultAddr_regReads (a : Nat) (s : State) : (setFaultAddr a s).regReads = s.regReads := rfl

/-! ### `setFault` -/

@[simp] theorem setFault_args (s : State) : (setFault s).args = s.args := rfl
@[simp] theorem setFault_busy (s : State) : (setFault s).busy = s.busy := rfl
@[simp] theorem setFault_fault (s : State) : (setFault s).fault = true := rfl
@[simp] theorem setFault_sel (s : State) : (setFault s).sel = s.sel := rfl
@[simp] theorem setFault_cstate (s : State) : (setFault s).cstate = s.cstate := rfl
@[simp] theorem setFault_panelInit (s : State) : (setFault s).panelInit = s.panelInit := rfl
@[simp] theorem setFault_bgValid (s : State) : (setFault s).bgValid = s.bgValid := rfl
@[simp] theorem setFault_fontValid (s : State) : (setFault s).fontValid = s.fontValid := rfl
@[simp] theorem setFault_cause (s : State) : (setFault s).cause = s.cause := rfl
@[simp] theorem setFault_faultInfo (s : State) : (setFault s).faultInfo = s.faultInfo := rfl
@[simp] theorem setFault_faultAddr (s : State) : (setFault s).faultAddr = s.faultAddr := rfl
@[simp] theorem setFault_result (s : State) : (setFault s).result = s.result := rfl
@[simp] theorem setFault_panelW (s : State) : (setFault s).panelW = s.panelW := rfl
@[simp] theorem setFault_panelH (s : State) : (setFault s).panelH = s.panelH := rfl
@[simp] theorem setFault_bg (s : State) : (setFault s).bg = s.bg := rfl
@[simp] theorem setFault_fontBase (s : State) : (setFault s).fontBase = s.fontBase := rfl
@[simp] theorem setFault_cmdL (s : State) : (setFault s).cmdL = s.cmdL := rfl
@[simp] theorem setFault_opL (s : State) : (setFault s).opL = s.opL := rfl
@[simp] theorem setFault_poll (s : State) : (setFault s).poll = s.poll := rfl
@[simp] theorem setFault_sampleReq (s : State) : (setFault s).sampleReq = s.sampleReq := rfl
@[simp] theorem setFault_racy (s : State) : (setFault s).racy = s.racy := rfl
@[simp] theorem setFault_pins (s : State) : (setFault s).pins = s.pins := rfl
@[simp] theorem setFault_trace (s : State) : (setFault s).trace = s.trace := rfl
@[simp] theorem setFault_params (s : State) : (setFault s).params = s.params := rfl
@[simp] theorem setFault_mem (s : State) : (setFault s).mem = s.mem := rfl
@[simp] theorem setFault_host (s : State) : (setFault s).host = s.host := rfl
@[simp] theorem setFault_busyLine (s : State) : (setFault s).busyLine = s.busyLine := rfl
@[simp] theorem setFault_samples (s : State) : (setFault s).samples = s.samples := rfl
@[simp] theorem setFault_draws (s : State) : (setFault s).draws = s.draws := rfl
@[simp] theorem setFault_memReads (s : State) : (setFault s).memReads = s.memReads := rfl
@[simp] theorem setFault_sampleLog (s : State) : (setFault s).sampleLog = s.sampleLog := rfl
@[simp] theorem setFault_regReads (s : State) : (setFault s).regReads = s.regReads := rfl

/-! ### `withRegisters` -/

@[simp] theorem withRegisters_args (s r : State) : (s.withRegisters r).args = s.args := rfl
@[simp] theorem withRegisters_busy (s r : State) : (s.withRegisters r).busy = s.busy := rfl
@[simp] theorem withRegisters_fault (s r : State) : (s.withRegisters r).fault = s.fault := rfl
@[simp] theorem withRegisters_sel (s r : State) : (s.withRegisters r).sel = s.sel := rfl
@[simp] theorem withRegisters_cstate (s r : State) : (s.withRegisters r).cstate = r.cstate := rfl
@[simp] theorem withRegisters_panelInit (s r : State) : (s.withRegisters r).panelInit = r.panelInit := rfl
@[simp] theorem withRegisters_bgValid (s r : State) : (s.withRegisters r).bgValid = r.bgValid := rfl
@[simp] theorem withRegisters_fontValid (s r : State) : (s.withRegisters r).fontValid = r.fontValid := rfl
@[simp] theorem withRegisters_cause (s r : State) : (s.withRegisters r).cause = s.cause := rfl
@[simp] theorem withRegisters_faultInfo (s r : State) : (s.withRegisters r).faultInfo = s.faultInfo := rfl
@[simp] theorem withRegisters_faultAddr (s r : State) : (s.withRegisters r).faultAddr = s.faultAddr := rfl
@[simp] theorem withRegisters_result (s r : State) : (s.withRegisters r).result = r.result := rfl
@[simp] theorem withRegisters_panelW (s r : State) : (s.withRegisters r).panelW = r.panelW := rfl
@[simp] theorem withRegisters_panelH (s r : State) : (s.withRegisters r).panelH = r.panelH := rfl
@[simp] theorem withRegisters_bg (s r : State) : (s.withRegisters r).bg = r.bg := rfl
@[simp] theorem withRegisters_fontBase (s r : State) : (s.withRegisters r).fontBase = r.fontBase := rfl
@[simp] theorem withRegisters_cmdL (s r : State) : (s.withRegisters r).cmdL = s.cmdL := rfl
@[simp] theorem withRegisters_opL (s r : State) : (s.withRegisters r).opL = s.opL := rfl
@[simp] theorem withRegisters_poll (s r : State) : (s.withRegisters r).poll = s.poll := rfl
@[simp] theorem withRegisters_sampleReq (s r : State) : (s.withRegisters r).sampleReq = s.sampleReq := rfl
@[simp] theorem withRegisters_racy (s r : State) : (s.withRegisters r).racy = s.racy := rfl
@[simp] theorem withRegisters_pins (s r : State) : (s.withRegisters r).pins = s.pins := rfl
@[simp] theorem withRegisters_trace (s r : State) : (s.withRegisters r).trace = s.trace := rfl
@[simp] theorem withRegisters_params (s r : State) : (s.withRegisters r).params = s.params := rfl
@[simp] theorem withRegisters_mem (s r : State) : (s.withRegisters r).mem = s.mem := rfl
@[simp] theorem withRegisters_host (s r : State) : (s.withRegisters r).host = s.host := rfl
@[simp] theorem withRegisters_busyLine (s r : State) : (s.withRegisters r).busyLine = s.busyLine := rfl
@[simp] theorem withRegisters_samples (s r : State) : (s.withRegisters r).samples = s.samples := rfl
@[simp] theorem withRegisters_draws (s r : State) : (s.withRegisters r).draws = s.draws := rfl
@[simp] theorem withRegisters_memReads (s r : State) : (s.withRegisters r).memReads = s.memReads := rfl
@[simp] theorem withRegisters_sampleLog (s r : State) : (s.withRegisters r).sampleLog = s.sampleLog := rfl
@[simp] theorem withRegisters_regReads (s r : State) : (s.withRegisters r).regReads = s.regReads := rfl

/-! ### `faultRegisters` -/

@[simp] theorem faultRegisters_args (c : Cause) (d : Nat) (v : Int) (a : Option Nat) (s : State) : (faultRegisters c d v a s).args = s.args := rfl
@[simp] theorem faultRegisters_busy (c : Cause) (d : Nat) (v : Int) (a : Option Nat) (s : State) : (faultRegisters c d v a s).busy = false := rfl
@[simp] theorem faultRegisters_fault (c : Cause) (d : Nat) (v : Int) (a : Option Nat) (s : State) : (faultRegisters c d v a s).fault = true := rfl
@[simp] theorem faultRegisters_sel (c : Cause) (d : Nat) (v : Int) (a : Option Nat) (s : State) : (faultRegisters c d v a s).sel = false := rfl
@[simp] theorem faultRegisters_cstate (c : Cause) (d : Nat) (v : Int) (a : Option Nat) (s : State) : (faultRegisters c d v a s).cstate = s.cstate := rfl
@[simp] theorem faultRegisters_panelInit (c : Cause) (d : Nat) (v : Int) (a : Option Nat) (s : State) : (faultRegisters c d v a s).panelInit = s.panelInit := rfl
@[simp] theorem faultRegisters_bgValid (c : Cause) (d : Nat) (v : Int) (a : Option Nat) (s : State) : (faultRegisters c d v a s).bgValid = s.bgValid := rfl
@[simp] theorem faultRegisters_fontValid (c : Cause) (d : Nat) (v : Int) (a : Option Nat) (s : State) : (faultRegisters c d v a s).fontValid = s.fontValid := rfl
@[simp] theorem faultRegisters_cause (c : Cause) (d : Nat) (v : Int) (a : Option Nat) (s : State) : (faultRegisters c d v a s).cause = c := rfl
@[simp] theorem faultRegisters_faultInfo (c : Cause) (d : Nat) (v : Int) (a : Option Nat) (s : State) : (faultRegisters c d v a s).faultInfo = faultInfoWord (opcField s.cmdL) d v := rfl
@[simp] theorem faultRegisters_result (c : Cause) (d : Nat) (v : Int) (a : Option Nat) (s : State) : (faultRegisters c d v a s).result = s.result := rfl
@[simp] theorem faultRegisters_panelW (c : Cause) (d : Nat) (v : Int) (a : Option Nat) (s : State) : (faultRegisters c d v a s).panelW = s.panelW := rfl
@[simp] theorem faultRegisters_panelH (c : Cause) (d : Nat) (v : Int) (a : Option Nat) (s : State) : (faultRegisters c d v a s).panelH = s.panelH := rfl
@[simp] theorem faultRegisters_bg (c : Cause) (d : Nat) (v : Int) (a : Option Nat) (s : State) : (faultRegisters c d v a s).bg = s.bg := rfl
@[simp] theorem faultRegisters_fontBase (c : Cause) (d : Nat) (v : Int) (a : Option Nat) (s : State) : (faultRegisters c d v a s).fontBase = s.fontBase := rfl
@[simp] theorem faultRegisters_cmdL (c : Cause) (d : Nat) (v : Int) (a : Option Nat) (s : State) : (faultRegisters c d v a s).cmdL = s.cmdL := rfl
@[simp] theorem faultRegisters_opL (c : Cause) (d : Nat) (v : Int) (a : Option Nat) (s : State) : (faultRegisters c d v a s).opL = s.opL := rfl
@[simp] theorem faultRegisters_poll (c : Cause) (d : Nat) (v : Int) (a : Option Nat) (s : State) : (faultRegisters c d v a s).poll = false := rfl
@[simp] theorem faultRegisters_sampleReq (c : Cause) (d : Nat) (v : Int) (a : Option Nat) (s : State) : (faultRegisters c d v a s).sampleReq = none := rfl
@[simp] theorem faultRegisters_racy (c : Cause) (d : Nat) (v : Int) (a : Option Nat) (s : State) : (faultRegisters c d v a s).racy = [] := rfl
@[simp] theorem faultRegisters_pins (c : Cause) (d : Nat) (v : Int) (a : Option Nat) (s : State) : (faultRegisters c d v a s).pins = s.pins.release := rfl
@[simp] theorem faultRegisters_trace (c : Cause) (d : Nat) (v : Int) (a : Option Nat) (s : State) : (faultRegisters c d v a s).trace = s.trace := rfl
@[simp] theorem faultRegisters_params (c : Cause) (d : Nat) (v : Int) (a : Option Nat) (s : State) : (faultRegisters c d v a s).params = s.params := rfl
@[simp] theorem faultRegisters_mem (c : Cause) (d : Nat) (v : Int) (a : Option Nat) (s : State) : (faultRegisters c d v a s).mem = s.mem := rfl
@[simp] theorem faultRegisters_host (c : Cause) (d : Nat) (v : Int) (a : Option Nat) (s : State) : (faultRegisters c d v a s).host = s.host := rfl
@[simp] theorem faultRegisters_busyLine (c : Cause) (d : Nat) (v : Int) (a : Option Nat) (s : State) : (faultRegisters c d v a s).busyLine = s.busyLine := rfl
@[simp] theorem faultRegisters_samples (c : Cause) (d : Nat) (v : Int) (a : Option Nat) (s : State) : (faultRegisters c d v a s).samples = s.samples := rfl
@[simp] theorem faultRegisters_draws (c : Cause) (d : Nat) (v : Int) (a : Option Nat) (s : State) : (faultRegisters c d v a s).draws = s.draws := rfl
@[simp] theorem faultRegisters_memReads (c : Cause) (d : Nat) (v : Int) (a : Option Nat) (s : State) : (faultRegisters c d v a s).memReads = s.memReads := rfl
@[simp] theorem faultRegisters_sampleLog (c : Cause) (d : Nat) (v : Int) (a : Option Nat) (s : State) : (faultRegisters c d v a s).sampleLog = s.sampleLog := rfl
@[simp] theorem faultRegisters_regReads (c : Cause) (d : Nat) (v : Int) (a : Option Nat) (s : State) : (faultRegisters c d v a s).regReads = s.regReads := rfl

/-! ### `faultEntry` -/

@[simp] theorem faultEntry_args (c : Cause) (d : Nat) (v : Int) (a : Option Nat) (s : State) : (faultEntry c d v a s).args = s.args := rfl
@[simp] theorem faultEntry_busy (c : Cause) (d : Nat) (v : Int) (a : Option Nat) (s : State) : (faultEntry c d v a s).busy = false := rfl
@[simp] theorem faultEntry_fault (c : Cause) (d : Nat) (v : Int) (a : Option Nat) (s : State) : (faultEntry c d v a s).fault = true := rfl
@[simp] theorem faultEntry_sel (c : Cause) (d : Nat) (v : Int) (a : Option Nat) (s : State) : (faultEntry c d v a s).sel = false := rfl
@[simp] theorem faultEntry_cstate (c : Cause) (d : Nat) (v : Int) (a : Option Nat) (s : State) : (faultEntry c d v a s).cstate = s.cstate := rfl
@[simp] theorem faultEntry_panelInit (c : Cause) (d : Nat) (v : Int) (a : Option Nat) (s : State) : (faultEntry c d v a s).panelInit = s.panelInit := rfl
@[simp] theorem faultEntry_bgValid (c : Cause) (d : Nat) (v : Int) (a : Option Nat) (s : State) : (faultEntry c d v a s).bgValid = s.bgValid := rfl
@[simp] theorem faultEntry_fontValid (c : Cause) (d : Nat) (v : Int) (a : Option Nat) (s : State) : (faultEntry c d v a s).fontValid = s.fontValid := rfl
@[simp] theorem faultEntry_cause (c : Cause) (d : Nat) (v : Int) (a : Option Nat) (s : State) : (faultEntry c d v a s).cause = c := rfl
@[simp] theorem faultEntry_faultInfo (c : Cause) (d : Nat) (v : Int) (a : Option Nat) (s : State) : (faultEntry c d v a s).faultInfo = faultInfoWord (opcField s.cmdL) d v := rfl
@[simp] theorem faultEntry_result (c : Cause) (d : Nat) (v : Int) (a : Option Nat) (s : State) : (faultEntry c d v a s).result = s.result := rfl
@[simp] theorem faultEntry_panelW (c : Cause) (d : Nat) (v : Int) (a : Option Nat) (s : State) : (faultEntry c d v a s).panelW = s.panelW := rfl
@[simp] theorem faultEntry_panelH (c : Cause) (d : Nat) (v : Int) (a : Option Nat) (s : State) : (faultEntry c d v a s).panelH = s.panelH := rfl
@[simp] theorem faultEntry_bg (c : Cause) (d : Nat) (v : Int) (a : Option Nat) (s : State) : (faultEntry c d v a s).bg = s.bg := rfl
@[simp] theorem faultEntry_fontBase (c : Cause) (d : Nat) (v : Int) (a : Option Nat) (s : State) : (faultEntry c d v a s).fontBase = s.fontBase := rfl
@[simp] theorem faultEntry_cmdL (c : Cause) (d : Nat) (v : Int) (a : Option Nat) (s : State) : (faultEntry c d v a s).cmdL = s.cmdL := rfl
@[simp] theorem faultEntry_opL (c : Cause) (d : Nat) (v : Int) (a : Option Nat) (s : State) : (faultEntry c d v a s).opL = s.opL := rfl
@[simp] theorem faultEntry_poll (c : Cause) (d : Nat) (v : Int) (a : Option Nat) (s : State) : (faultEntry c d v a s).poll = false := rfl
@[simp] theorem faultEntry_sampleReq (c : Cause) (d : Nat) (v : Int) (a : Option Nat) (s : State) : (faultEntry c d v a s).sampleReq = none := rfl
@[simp] theorem faultEntry_racy (c : Cause) (d : Nat) (v : Int) (a : Option Nat) (s : State) : (faultEntry c d v a s).racy = [] := rfl
@[simp] theorem faultEntry_trace (c : Cause) (d : Nat) (v : Int) (a : Option Nat) (s : State) : (faultEntry c d v a s).trace = s.trace ++ if s.sel then closeEvents s.params else [] := rfl
@[simp] theorem faultEntry_params (c : Cause) (d : Nat) (v : Int) (a : Option Nat) (s : State) : (faultEntry c d v a s).params = s.params := rfl
@[simp] theorem faultEntry_mem (c : Cause) (d : Nat) (v : Int) (a : Option Nat) (s : State) : (faultEntry c d v a s).mem = s.mem := rfl
@[simp] theorem faultEntry_host (c : Cause) (d : Nat) (v : Int) (a : Option Nat) (s : State) : (faultEntry c d v a s).host = s.host := rfl
@[simp] theorem faultEntry_busyLine (c : Cause) (d : Nat) (v : Int) (a : Option Nat) (s : State) : (faultEntry c d v a s).busyLine = s.busyLine := rfl
@[simp] theorem faultEntry_samples (c : Cause) (d : Nat) (v : Int) (a : Option Nat) (s : State) : (faultEntry c d v a s).samples = s.samples := rfl
@[simp] theorem faultEntry_draws (c : Cause) (d : Nat) (v : Int) (a : Option Nat) (s : State) : (faultEntry c d v a s).draws = s.draws := rfl
@[simp] theorem faultEntry_memReads (c : Cause) (d : Nat) (v : Int) (a : Option Nat) (s : State) : (faultEntry c d v a s).memReads = s.memReads := rfl
@[simp] theorem faultEntry_sampleLog (c : Cause) (d : Nat) (v : Int) (a : Option Nat) (s : State) : (faultEntry c d v a s).sampleLog = s.sampleLog := rfl
@[simp] theorem faultEntry_regReads (c : Cause) (d : Nat) (v : Int) (a : Option Nat) (s : State) : (faultEntry c d v a s).regReads = s.regReads := rfl

/-! ### `applyReset` -/

@[simp] theorem applyReset_args (s : State) : (applyReset s).args = Vector.replicate 7 0 := rfl
@[simp] theorem applyReset_busy (s : State) : (applyReset s).busy = false := rfl
@[simp] theorem applyReset_fault (s : State) : (applyReset s).fault = false := rfl
@[simp] theorem applyReset_sel (s : State) : (applyReset s).sel = false := rfl
@[simp] theorem applyReset_cstate (s : State) : (applyReset s).cstate = .uninit := rfl
@[simp] theorem applyReset_panelInit (s : State) : (applyReset s).panelInit = false := rfl
@[simp] theorem applyReset_bgValid (s : State) : (applyReset s).bgValid = false := rfl
@[simp] theorem applyReset_fontValid (s : State) : (applyReset s).fontValid = false := rfl
@[simp] theorem applyReset_cause (s : State) : (applyReset s).cause = .none := rfl
@[simp] theorem applyReset_faultInfo (s : State) : (applyReset s).faultInfo = 0 := rfl
@[simp] theorem applyReset_faultAddr (s : State) : (applyReset s).faultAddr = 0 := rfl
@[simp] theorem applyReset_result (s : State) : (applyReset s).result = 0 := rfl
@[simp] theorem applyReset_panelW (s : State) : (applyReset s).panelW = 0 := rfl
@[simp] theorem applyReset_panelH (s : State) : (applyReset s).panelH = 0 := rfl
@[simp] theorem applyReset_bg (s : State) : (applyReset s).bg = 0 := rfl
@[simp] theorem applyReset_fontBase (s : State) : (applyReset s).fontBase = 0 := rfl
@[simp] theorem applyReset_cmdL (s : State) : (applyReset s).cmdL = 0 := rfl
@[simp] theorem applyReset_opL (s : State) : (applyReset s).opL = Vector.replicate 7 0 := rfl
@[simp] theorem applyReset_poll (s : State) : (applyReset s).poll = false := rfl
@[simp] theorem applyReset_sampleReq (s : State) : (applyReset s).sampleReq = none := rfl
@[simp] theorem applyReset_racy (s : State) : (applyReset s).racy = [] := rfl
@[simp] theorem applyReset_pins (s : State) : (applyReset s).pins = ⟨none, none, none, none⟩ := rfl
@[simp] theorem applyReset_trace (s : State) : (applyReset s).trace = s.trace := rfl
@[simp] theorem applyReset_params (s : State) : (applyReset s).params = s.params := rfl
@[simp] theorem applyReset_mem (s : State) : (applyReset s).mem = s.mem := rfl
@[simp] theorem applyReset_host (s : State) : (applyReset s).host = s.host := rfl
@[simp] theorem applyReset_busyLine (s : State) : (applyReset s).busyLine = s.busyLine := rfl
@[simp] theorem applyReset_samples (s : State) : (applyReset s).samples = s.samples := rfl
@[simp] theorem applyReset_draws (s : State) : (applyReset s).draws = s.draws := rfl
@[simp] theorem applyReset_memReads (s : State) : (applyReset s).memReads = s.memReads := rfl
@[simp] theorem applyReset_sampleLog (s : State) : (applyReset s).sampleLog = s.sampleLog := rfl
@[simp] theorem applyReset_regReads (s : State) : (applyReset s).regReads = s.regReads := rfl

/-! ### `writeReg` -/

@[simp] theorem writeReg_busy (off : BitVec 7) (v : Word) (s : State) : (writeReg off v s).busy = s.busy := rfl
@[simp] theorem writeReg_fault (off : BitVec 7) (v : Word) (s : State) : (writeReg off v s).fault = s.fault := rfl
@[simp] theorem writeReg_sel (off : BitVec 7) (v : Word) (s : State) : (writeReg off v s).sel = s.sel := rfl
@[simp] theorem writeReg_cstate (off : BitVec 7) (v : Word) (s : State) : (writeReg off v s).cstate = s.cstate := rfl
@[simp] theorem writeReg_panelInit (off : BitVec 7) (v : Word) (s : State) : (writeReg off v s).panelInit = s.panelInit := rfl
@[simp] theorem writeReg_bgValid (off : BitVec 7) (v : Word) (s : State) : (writeReg off v s).bgValid = s.bgValid := rfl
@[simp] theorem writeReg_fontValid (off : BitVec 7) (v : Word) (s : State) : (writeReg off v s).fontValid = s.fontValid := rfl
@[simp] theorem writeReg_cause (off : BitVec 7) (v : Word) (s : State) : (writeReg off v s).cause = s.cause := rfl
@[simp] theorem writeReg_faultInfo (off : BitVec 7) (v : Word) (s : State) : (writeReg off v s).faultInfo = s.faultInfo := rfl
@[simp] theorem writeReg_faultAddr (off : BitVec 7) (v : Word) (s : State) : (writeReg off v s).faultAddr = s.faultAddr := rfl
@[simp] theorem writeReg_result (off : BitVec 7) (v : Word) (s : State) : (writeReg off v s).result = s.result := rfl
@[simp] theorem writeReg_panelW (off : BitVec 7) (v : Word) (s : State) : (writeReg off v s).panelW = s.panelW := rfl
@[simp] theorem writeReg_panelH (off : BitVec 7) (v : Word) (s : State) : (writeReg off v s).panelH = s.panelH := rfl
@[simp] theorem writeReg_bg (off : BitVec 7) (v : Word) (s : State) : (writeReg off v s).bg = s.bg := rfl
@[simp] theorem writeReg_fontBase (off : BitVec 7) (v : Word) (s : State) : (writeReg off v s).fontBase = s.fontBase := rfl
@[simp] theorem writeReg_cmdL (off : BitVec 7) (v : Word) (s : State) : (writeReg off v s).cmdL = s.cmdL := rfl
@[simp] theorem writeReg_opL (off : BitVec 7) (v : Word) (s : State) : (writeReg off v s).opL = s.opL := rfl
@[simp] theorem writeReg_poll (off : BitVec 7) (v : Word) (s : State) : (writeReg off v s).poll = s.poll := rfl
@[simp] theorem writeReg_sampleReq (off : BitVec 7) (v : Word) (s : State) : (writeReg off v s).sampleReq = s.sampleReq := rfl
@[simp] theorem writeReg_racy (off : BitVec 7) (v : Word) (s : State) : (writeReg off v s).racy = s.racy := rfl
@[simp] theorem writeReg_pins (off : BitVec 7) (v : Word) (s : State) : (writeReg off v s).pins = s.pins := rfl
@[simp] theorem writeReg_trace (off : BitVec 7) (v : Word) (s : State) : (writeReg off v s).trace = s.trace := rfl
@[simp] theorem writeReg_params (off : BitVec 7) (v : Word) (s : State) : (writeReg off v s).params = s.params := rfl
@[simp] theorem writeReg_mem (off : BitVec 7) (v : Word) (s : State) : (writeReg off v s).mem = s.mem := rfl
@[simp] theorem writeReg_host (off : BitVec 7) (v : Word) (s : State) : (writeReg off v s).host = s.host := rfl
@[simp] theorem writeReg_busyLine (off : BitVec 7) (v : Word) (s : State) : (writeReg off v s).busyLine = s.busyLine := rfl
@[simp] theorem writeReg_samples (off : BitVec 7) (v : Word) (s : State) : (writeReg off v s).samples = s.samples := rfl
@[simp] theorem writeReg_draws (off : BitVec 7) (v : Word) (s : State) : (writeReg off v s).draws = s.draws := rfl
@[simp] theorem writeReg_memReads (off : BitVec 7) (v : Word) (s : State) : (writeReg off v s).memReads = s.memReads := rfl
@[simp] theorem writeReg_sampleLog (off : BitVec 7) (v : Word) (s : State) : (writeReg off v s).sampleLog = s.sampleLog := rfl
@[simp] theorem writeReg_regReads (off : BitVec 7) (v : Word) (s : State) : (writeReg off v s).regReads = s.regReads := rfl

/-! ### `hostRead` -/

@[simp] theorem hostRead_args (off : BitVec 7) (s : State) : (hostRead off s).args = s.args := rfl
@[simp] theorem hostRead_busy (off : BitVec 7) (s : State) : (hostRead off s).busy = s.busy := rfl
@[simp] theorem hostRead_fault (off : BitVec 7) (s : State) : (hostRead off s).fault = s.fault := rfl
@[simp] theorem hostRead_sel (off : BitVec 7) (s : State) : (hostRead off s).sel = s.sel := rfl
@[simp] theorem hostRead_cstate (off : BitVec 7) (s : State) : (hostRead off s).cstate = s.cstate := rfl
@[simp] theorem hostRead_panelInit (off : BitVec 7) (s : State) : (hostRead off s).panelInit = s.panelInit := rfl
@[simp] theorem hostRead_bgValid (off : BitVec 7) (s : State) : (hostRead off s).bgValid = s.bgValid := rfl
@[simp] theorem hostRead_fontValid (off : BitVec 7) (s : State) : (hostRead off s).fontValid = s.fontValid := rfl
@[simp] theorem hostRead_cause (off : BitVec 7) (s : State) : (hostRead off s).cause = s.cause := rfl
@[simp] theorem hostRead_faultInfo (off : BitVec 7) (s : State) : (hostRead off s).faultInfo = s.faultInfo := rfl
@[simp] theorem hostRead_faultAddr (off : BitVec 7) (s : State) : (hostRead off s).faultAddr = s.faultAddr := rfl
@[simp] theorem hostRead_result (off : BitVec 7) (s : State) : (hostRead off s).result = s.result := rfl
@[simp] theorem hostRead_panelW (off : BitVec 7) (s : State) : (hostRead off s).panelW = s.panelW := rfl
@[simp] theorem hostRead_panelH (off : BitVec 7) (s : State) : (hostRead off s).panelH = s.panelH := rfl
@[simp] theorem hostRead_bg (off : BitVec 7) (s : State) : (hostRead off s).bg = s.bg := rfl
@[simp] theorem hostRead_fontBase (off : BitVec 7) (s : State) : (hostRead off s).fontBase = s.fontBase := rfl
@[simp] theorem hostRead_cmdL (off : BitVec 7) (s : State) : (hostRead off s).cmdL = s.cmdL := rfl
@[simp] theorem hostRead_opL (off : BitVec 7) (s : State) : (hostRead off s).opL = s.opL := rfl
@[simp] theorem hostRead_poll (off : BitVec 7) (s : State) : (hostRead off s).poll = s.poll := rfl
@[simp] theorem hostRead_sampleReq (off : BitVec 7) (s : State) : (hostRead off s).sampleReq = s.sampleReq := rfl
@[simp] theorem hostRead_racy (off : BitVec 7) (s : State) : (hostRead off s).racy = s.racy := rfl
@[simp] theorem hostRead_pins (off : BitVec 7) (s : State) : (hostRead off s).pins = s.pins := rfl
@[simp] theorem hostRead_trace (off : BitVec 7) (s : State) : (hostRead off s).trace = s.trace := rfl
@[simp] theorem hostRead_params (off : BitVec 7) (s : State) : (hostRead off s).params = s.params := rfl
@[simp] theorem hostRead_mem (off : BitVec 7) (s : State) : (hostRead off s).mem = s.mem := rfl
@[simp] theorem hostRead_host (off : BitVec 7) (s : State) : (hostRead off s).host = s.host := rfl
@[simp] theorem hostRead_busyLine (off : BitVec 7) (s : State) : (hostRead off s).busyLine = s.busyLine := rfl
@[simp] theorem hostRead_samples (off : BitVec 7) (s : State) : (hostRead off s).samples = s.samples := rfl
@[simp] theorem hostRead_draws (off : BitVec 7) (s : State) : (hostRead off s).draws = s.draws := rfl
@[simp] theorem hostRead_memReads (off : BitVec 7) (s : State) : (hostRead off s).memReads = s.memReads := rfl
@[simp] theorem hostRead_sampleLog (off : BitVec 7) (s : State) : (hostRead off s).sampleLog = s.sampleLog := rfl
@[simp] theorem hostRead_regReads (off : BitVec 7) (s : State) : (hostRead off s).regReads = s.regReads ++ [readReg off s] := rfl

/-! ### `hostPoke` -/

@[simp] theorem hostPoke_args (a : Word) (v : Byte) (s : State) : (hostPoke a v s).args = s.args := rfl
@[simp] theorem hostPoke_busy (a : Word) (v : Byte) (s : State) : (hostPoke a v s).busy = s.busy := rfl
@[simp] theorem hostPoke_fault (a : Word) (v : Byte) (s : State) : (hostPoke a v s).fault = s.fault := rfl
@[simp] theorem hostPoke_sel (a : Word) (v : Byte) (s : State) : (hostPoke a v s).sel = s.sel := rfl
@[simp] theorem hostPoke_cstate (a : Word) (v : Byte) (s : State) : (hostPoke a v s).cstate = s.cstate := rfl
@[simp] theorem hostPoke_panelInit (a : Word) (v : Byte) (s : State) : (hostPoke a v s).panelInit = s.panelInit := rfl
@[simp] theorem hostPoke_bgValid (a : Word) (v : Byte) (s : State) : (hostPoke a v s).bgValid = s.bgValid := rfl
@[simp] theorem hostPoke_fontValid (a : Word) (v : Byte) (s : State) : (hostPoke a v s).fontValid = s.fontValid := rfl
@[simp] theorem hostPoke_cause (a : Word) (v : Byte) (s : State) : (hostPoke a v s).cause = s.cause := rfl
@[simp] theorem hostPoke_faultInfo (a : Word) (v : Byte) (s : State) : (hostPoke a v s).faultInfo = s.faultInfo := rfl
@[simp] theorem hostPoke_faultAddr (a : Word) (v : Byte) (s : State) : (hostPoke a v s).faultAddr = s.faultAddr := rfl
@[simp] theorem hostPoke_result (a : Word) (v : Byte) (s : State) : (hostPoke a v s).result = s.result := rfl
@[simp] theorem hostPoke_panelW (a : Word) (v : Byte) (s : State) : (hostPoke a v s).panelW = s.panelW := rfl
@[simp] theorem hostPoke_panelH (a : Word) (v : Byte) (s : State) : (hostPoke a v s).panelH = s.panelH := rfl
@[simp] theorem hostPoke_bg (a : Word) (v : Byte) (s : State) : (hostPoke a v s).bg = s.bg := rfl
@[simp] theorem hostPoke_fontBase (a : Word) (v : Byte) (s : State) : (hostPoke a v s).fontBase = s.fontBase := rfl
@[simp] theorem hostPoke_cmdL (a : Word) (v : Byte) (s : State) : (hostPoke a v s).cmdL = s.cmdL := rfl
@[simp] theorem hostPoke_opL (a : Word) (v : Byte) (s : State) : (hostPoke a v s).opL = s.opL := rfl
@[simp] theorem hostPoke_poll (a : Word) (v : Byte) (s : State) : (hostPoke a v s).poll = s.poll := rfl
@[simp] theorem hostPoke_sampleReq (a : Word) (v : Byte) (s : State) : (hostPoke a v s).sampleReq = s.sampleReq := rfl
@[simp] theorem hostPoke_racy (a : Word) (v : Byte) (s : State) : (hostPoke a v s).racy = if s.busy then a.toNat :: s.racy else s.racy := rfl
@[simp] theorem hostPoke_pins (a : Word) (v : Byte) (s : State) : (hostPoke a v s).pins = s.pins := rfl
@[simp] theorem hostPoke_trace (a : Word) (v : Byte) (s : State) : (hostPoke a v s).trace = s.trace := rfl
@[simp] theorem hostPoke_params (a : Word) (v : Byte) (s : State) : (hostPoke a v s).params = s.params := rfl
@[simp] theorem hostPoke_mem (a : Word) (v : Byte) (s : State) : (hostPoke a v s).mem = Memory.write s.mem a.toNat v := rfl
@[simp] theorem hostPoke_host (a : Word) (v : Byte) (s : State) : (hostPoke a v s).host = s.host := rfl
@[simp] theorem hostPoke_busyLine (a : Word) (v : Byte) (s : State) : (hostPoke a v s).busyLine = s.busyLine := rfl
@[simp] theorem hostPoke_samples (a : Word) (v : Byte) (s : State) : (hostPoke a v s).samples = s.samples := rfl
@[simp] theorem hostPoke_draws (a : Word) (v : Byte) (s : State) : (hostPoke a v s).draws = s.draws := rfl
@[simp] theorem hostPoke_memReads (a : Word) (v : Byte) (s : State) : (hostPoke a v s).memReads = s.memReads := rfl
@[simp] theorem hostPoke_sampleLog (a : Word) (v : Byte) (s : State) : (hostPoke a v s).sampleLog = s.sampleLog := rfl
@[simp] theorem hostPoke_regReads (a : Word) (v : Byte) (s : State) : (hostPoke a v s).regReads = s.regReads := rfl

/-! ### `requestSample` -/

@[simp] theorem requestSample_args (q : SampleReq) (s : State) : (requestSample q s).args = s.args := rfl
@[simp] theorem requestSample_busy (q : SampleReq) (s : State) : (requestSample q s).busy = s.busy := rfl
@[simp] theorem requestSample_fault (q : SampleReq) (s : State) : (requestSample q s).fault = s.fault := rfl
@[simp] theorem requestSample_sel (q : SampleReq) (s : State) : (requestSample q s).sel = s.sel := rfl
@[simp] theorem requestSample_cstate (q : SampleReq) (s : State) : (requestSample q s).cstate = s.cstate := rfl
@[simp] theorem requestSample_panelInit (q : SampleReq) (s : State) : (requestSample q s).panelInit = s.panelInit := rfl
@[simp] theorem requestSample_bgValid (q : SampleReq) (s : State) : (requestSample q s).bgValid = s.bgValid := rfl
@[simp] theorem requestSample_fontValid (q : SampleReq) (s : State) : (requestSample q s).fontValid = s.fontValid := rfl
@[simp] theorem requestSample_cause (q : SampleReq) (s : State) : (requestSample q s).cause = s.cause := rfl
@[simp] theorem requestSample_faultInfo (q : SampleReq) (s : State) : (requestSample q s).faultInfo = s.faultInfo := rfl
@[simp] theorem requestSample_faultAddr (q : SampleReq) (s : State) : (requestSample q s).faultAddr = s.faultAddr := rfl
@[simp] theorem requestSample_result (q : SampleReq) (s : State) : (requestSample q s).result = s.result := rfl
@[simp] theorem requestSample_panelW (q : SampleReq) (s : State) : (requestSample q s).panelW = s.panelW := rfl
@[simp] theorem requestSample_panelH (q : SampleReq) (s : State) : (requestSample q s).panelH = s.panelH := rfl
@[simp] theorem requestSample_bg (q : SampleReq) (s : State) : (requestSample q s).bg = s.bg := rfl
@[simp] theorem requestSample_fontBase (q : SampleReq) (s : State) : (requestSample q s).fontBase = s.fontBase := rfl
@[simp] theorem requestSample_cmdL (q : SampleReq) (s : State) : (requestSample q s).cmdL = s.cmdL := rfl
@[simp] theorem requestSample_opL (q : SampleReq) (s : State) : (requestSample q s).opL = s.opL := rfl
@[simp] theorem requestSample_poll (q : SampleReq) (s : State) : (requestSample q s).poll = s.poll := rfl
@[simp] theorem requestSample_sampleReq (q : SampleReq) (s : State) : (requestSample q s).sampleReq = some q := rfl
@[simp] theorem requestSample_racy (q : SampleReq) (s : State) : (requestSample q s).racy = s.racy := rfl
@[simp] theorem requestSample_pins (q : SampleReq) (s : State) : (requestSample q s).pins = s.pins := rfl
@[simp] theorem requestSample_trace (q : SampleReq) (s : State) : (requestSample q s).trace = s.trace := rfl
@[simp] theorem requestSample_params (q : SampleReq) (s : State) : (requestSample q s).params = s.params := rfl
@[simp] theorem requestSample_mem (q : SampleReq) (s : State) : (requestSample q s).mem = s.mem := rfl
@[simp] theorem requestSample_host (q : SampleReq) (s : State) : (requestSample q s).host = s.host := rfl
@[simp] theorem requestSample_busyLine (q : SampleReq) (s : State) : (requestSample q s).busyLine = s.busyLine := rfl
@[simp] theorem requestSample_samples (q : SampleReq) (s : State) : (requestSample q s).samples = s.samples := rfl
@[simp] theorem requestSample_draws (q : SampleReq) (s : State) : (requestSample q s).draws = s.draws := rfl
@[simp] theorem requestSample_memReads (q : SampleReq) (s : State) : (requestSample q s).memReads = s.memReads := rfl
@[simp] theorem requestSample_sampleLog (q : SampleReq) (s : State) : (requestSample q s).sampleLog = s.sampleLog ++ [q] := rfl
@[simp] theorem requestSample_regReads (q : SampleReq) (s : State) : (requestSample q s).regReads = s.regReads := rfl

/-! ### `latch` -/

@[simp] theorem latch_args (w : Word) (s : State) : (latch w s).args = s.args := rfl
@[simp] theorem latch_busy (w : Word) (s : State) : (latch w s).busy = true := rfl
@[simp] theorem latch_fault (w : Word) (s : State) : (latch w s).fault = s.fault := rfl
@[simp] theorem latch_sel (w : Word) (s : State) : (latch w s).sel = s.sel := rfl
@[simp] theorem latch_cstate (w : Word) (s : State) : (latch w s).cstate = s.cstate := rfl
@[simp] theorem latch_panelInit (w : Word) (s : State) : (latch w s).panelInit = s.panelInit := rfl
@[simp] theorem latch_bgValid (w : Word) (s : State) : (latch w s).bgValid = s.bgValid := rfl
@[simp] theorem latch_fontValid (w : Word) (s : State) : (latch w s).fontValid = s.fontValid := rfl
@[simp] theorem latch_cause (w : Word) (s : State) : (latch w s).cause = s.cause := rfl
@[simp] theorem latch_faultInfo (w : Word) (s : State) : (latch w s).faultInfo = s.faultInfo := rfl
@[simp] theorem latch_faultAddr (w : Word) (s : State) : (latch w s).faultAddr = s.faultAddr := rfl
@[simp] theorem latch_result (w : Word) (s : State) : (latch w s).result = s.result := rfl
@[simp] theorem latch_panelW (w : Word) (s : State) : (latch w s).panelW = s.panelW := rfl
@[simp] theorem latch_panelH (w : Word) (s : State) : (latch w s).panelH = s.panelH := rfl
@[simp] theorem latch_bg (w : Word) (s : State) : (latch w s).bg = s.bg := rfl
@[simp] theorem latch_fontBase (w : Word) (s : State) : (latch w s).fontBase = s.fontBase := rfl
@[simp] theorem latch_cmdL (w : Word) (s : State) : (latch w s).cmdL = w := rfl
@[simp] theorem latch_opL (w : Word) (s : State) : (latch w s).opL = s.args := rfl
@[simp] theorem latch_poll (w : Word) (s : State) : (latch w s).poll = s.poll := rfl
@[simp] theorem latch_sampleReq (w : Word) (s : State) : (latch w s).sampleReq = s.sampleReq := rfl
@[simp] theorem latch_racy (w : Word) (s : State) : (latch w s).racy = s.racy := rfl
@[simp] theorem latch_pins (w : Word) (s : State) : (latch w s).pins = s.pins := rfl
@[simp] theorem latch_trace (w : Word) (s : State) : (latch w s).trace = s.trace := rfl
@[simp] theorem latch_params (w : Word) (s : State) : (latch w s).params = s.params := rfl
@[simp] theorem latch_mem (w : Word) (s : State) : (latch w s).mem = s.mem := rfl
@[simp] theorem latch_host (w : Word) (s : State) : (latch w s).host = s.host := rfl
@[simp] theorem latch_busyLine (w : Word) (s : State) : (latch w s).busyLine = s.busyLine := rfl
@[simp] theorem latch_samples (w : Word) (s : State) : (latch w s).samples = s.samples := rfl
@[simp] theorem latch_draws (w : Word) (s : State) : (latch w s).draws = s.draws := rfl
@[simp] theorem latch_memReads (w : Word) (s : State) : (latch w s).memReads = s.memReads := rfl
@[simp] theorem latch_sampleLog (w : Word) (s : State) : (latch w s).sampleLog = s.sampleLog := rfl
@[simp] theorem latch_regReads (w : Word) (s : State) : (latch w s).regReads = s.regReads := rfl

end Sys2Proof.Machine
end

