-- ==== Sys2Proof/Laws/Act.lean ====
section
/-! SUPPORT. How the pieces of a command's effect run one after the other. -/

namespace Sys2Proof.Machine

variable {α β : Type}

/-- A sequence runs its first piece, and its second one only if the command goes on. -/
theorem act_bind (x : Act α) (f : α → Act β) (s : State) :
    (x >>= f) s = match x s with
      | .ok a s' => f a s'
      | .error e s' => .error e s' := by
  change EStateM.bind x f s = _
  unfold EStateM.bind
  cases x s <;> rfl

/-- A piece that lets the command go on is followed by the next piece. -/
theorem act_bind_ok {x : Act α} {s s' : State} {a : α} (f : α → Act β) (h : x s = .ok a s') : (x >>= f) s = f a s' := by
  rw [act_bind, h]

/-- A piece that ends the command ends the sequence. -/
theorem act_bind_error {x : Act α} {s s' : State} {e : Unit} (f : α → Act β) (h : x s = .error e s') :
    (x >>= f) s = .error e s' := by
  rw [act_bind, h]

/-- Sequences are associative. -/
theorem act_assoc {γ : Type} (x : Act α) (f : α → Act β) (g : β → Act γ) :
    ((x >>= f) >>= g) = x >>= fun a => f a >>= g := by
  funext s
  rw [act_bind, act_bind, act_bind]
  cases x s with
  | error e t => rfl
  | ok a t => exact (act_bind (f a) g t).symm

@[simp] theorem act_pure (a : α) (s : State) : (pure a : Act α) s = .ok a s := rfl

@[simp] theorem peek_apply (f : State → α) (s : State) : peek f s = .ok (f s) s := rfl

@[simp] theorem update_apply (f : State → State) (s : State) : update f s = .ok () (f s) := rfl

@[simp] theorem peek_bind (f : State → α) (g : α → Act β) (s : State) : (peek f >>= g) s = g (f s) s := rfl

@[simp] theorem update_bind (f : State → State) (g : Unit → Act β) (s : State) : (update f >>= g) s = g () (f s) := rfl

@[simp] theorem pure_bind_apply (a : α) (g : α → Act β) (s : State) : ((pure a : Act α) >>= g) s = g a s := rfl

/-- The steps of a command after its acceptance: those of its rule, the host's turn, its register writes (R183). -/
def commandSteps (body : Act α) (writes : α → List (State → State)) : Act Unit := do
  let a ← body
  hostTurn
  commit (writes a)

/-- The run of a command is decided by its acceptance and its steps. -/
theorem runCommand_eq (own needs : Bool) (body : Act α) (writes : α → List (State → State)) (s : State) :
    runCommand own needs body writes s =
      match (acceptance own needs >>= fun _ => commandSteps body writes) s with
      | .ok _ s' => endCommand s'
      | .error _ s' => s' := rfl

/-- Acceptance (R183): what it lets pass and what it refuses. -/
theorem acceptance_eq (own needs : Bool) (s : State) :
    acceptance own needs s =
      if own && s.sel then raise .bracket 3 0 s
      else if needs && !s.panelInit then raise .config 0 0 s
      else .ok () s := by
  simp only [acceptance, peek_bind]
  split
  · rfl
  · split <;> rfl

/-- What only a shared bus does. -/
theorem whenShared_eq (x : Act Unit) (s : State) : whenShared x s = if s.params.sharedBus then x s else .ok () s := by
  rw [whenShared, peek_bind]
  split <;> rfl

/-- Fault entry is its changes in turn, then the end of the command (R185). -/
theorem enterFault_eq (c : Cause) (d : Nat) (v : Int) (a : Option Nat) (s : State) :
    (enterFault c d v a : Act α) s = match inTurn heldTurn (faultSteps c d v a s) s with
      | .ok _ t => .error () (endCommand t)
      | .error _ t => .error () t := by
  rw [enterFault, peek_bind, act_bind]
  cases inTurn heldTurn (faultSteps c d v a s) s <;> rfl

/-- The register writes of a command: all but the last in turn, then the last (R17). -/
theorem commit_eq (fs : List (State → State)) (s : State) :
    commit fs s = match inTurn (hostTurnFrom fun t => t.withRegisters s) fs.dropLast s with
      | .ok _ t => .ok () (lastOf fs t)
      | .error e t => .error e t := by
  rw [commit, peek_bind, act_bind, id_eq]
  cases inTurn (hostTurnFrom fun t => t.withRegisters s) fs.dropLast s <;> rfl

end Sys2Proof.Machine
end

