-- ==== Sys2Proof/Laws/Quiet.lean ====
section
/-! SUPPORT. What the shared operations do under a host that waits for idle (R204): each gives one next state. -/

namespace Sys2Proof.Machine

/-! ### The quiet host -/

/-- Whether the host is quiet depends on its pending actions only. -/
theorem quiet_of_host {s t : State} (h : t.host = s.host) : t.quiet = s.quiet := by
  simp only [State.quiet, h]

@[simp] theorem quiet_emitted (s : State) (es : List Event) : (s.emitted es).quiet = s.quiet := rfl

/-- A quiet host does nothing in its turn. -/
theorem turnFrom_quiet {s : State} (onCommand : Word → Act Unit) (h : s.quiet = true) :
    turnFrom onCommand s.host s = .ok () s := by
  obtain ⟨_, _, _, _, _, _, _, _, _, _, _, _, _, _, _, _, _, _, _, _, _, _, _, _, _, host, _, _, _, _, _, _⟩ := s
  match host, h with
  | [], _ => rfl
  | .waitIdle :: _, _ => rfl

theorem hostTurn_quiet {s : State} (h : s.quiet = true) : hostTurn s = .ok () s := turnFrom_quiet _ h

theorem heldTurn_quiet {s : State} (h : s.quiet = true) : heldTurn s = .ok () s := turnFrom_quiet _ h

theorem hostTurnFrom_quiet {s : State} (f : State → State) (h : s.quiet = true) : hostTurnFrom f s = .ok () s :=
  turnFrom_quiet _ h

/-! ### Runs of events -/

@[simp] theorem emitted_nil (s : State) : s.emitted [] = s := by
  simp [State.emitted]

/-- Events emitted in two runs are one run. -/
theorem emitted_append (s : State) (es fs : List Event) : (s.emitted es).emitted fs = s.emitted (es ++ fs) := by
  simp [State.emitted]

/-- `Emit(e)` under a quiet host. -/
theorem emit_quiet {s : State} (h : s.quiet = true) (e : Event) : emit e s = .ok () (s.emitted [e]) := by
  rw [emit, act_bind, hostTurn_quiet h]
  rfl

/-- The data bytes of a frame under a quiet host (R93). -/
theorem sendDataList_quiet (ds : List Byte) : ∀ {s : State}, s.quiet = true →
    sendDataList ds s = .ok () (s.emitted (ds.map Event.dat)) := by
  induction ds with
  | nil => intro s _; simp [sendDataList]
  | cons d ds ih =>
    intro s h
    rw [sendDataList, sendData, act_bind_ok _ (emit_quiet h _), ih (by simpa using h), emitted_append]
    rfl

/-- A frame list under a quiet host (R93). -/
theorem sendFrames_quiet (fs : List Frame) : ∀ {s : State}, s.quiet = true →
    sendFrames fs s = .ok () (s.emitted (frameEvents fs)) := by
  induction fs with
  | nil => intro s _; simp [sendFrames, frameEvents]
  | cons f fs ih =>
    intro s h
    have hf : sendFrame f s = .ok () (s.emitted (Event.cmd f.cmd :: f.data.map Event.dat)) := by
      rw [sendFrame, sendCmd, act_bind_ok _ (emit_quiet h _), sendDataList_quiet _ (by simpa using h), emitted_append]
      rfl
    rw [sendFrames, act_bind_ok _ hf, ih (by simpa using h), emitted_append]
    rfl

/-- Frame lists sent one after the other are one list. -/
theorem frameEvents_append (fs gs : List Frame) : frameEvents (fs ++ gs) = frameEvents fs ++ frameEvents gs := by
  simp [frameEvents]

/-! ### Brackets -/

/-- `Select()` under a quiet host (R102). -/
theorem select_quiet {s : State} (h : s.quiet = true) : select s = .ok () (openBracket s) := by
  have hb {t : State} (ht : t.quiet = true) :
      (emit .bgn >>= fun _ => hostTurnFrom (setSel true) >>= fun _ => update (setSel true)) t = .ok () (setSel true (t.emitted [.bgn])) := by
    rw [act_bind_ok _ (emit_quiet ht _), act_bind_ok _ (hostTurnFrom_quiet _ (by exact ht))]
    rfl
  rw [select, act_bind, whenShared_eq]
  cases hs : s.params.sharedBus with
  | false =>
    simp only [Bool.false_eq_true, if_false]
    rw [hb h]
    simp [openBracket, openEvents, hs, setSel]
  | true =>
    simp only [if_true, emit_quiet h]
    rw [hb (by exact h), emitted_append]
    simp [openBracket, openEvents, hs, setSel]

/-- `Unselect()` under a quiet host (R103). -/
theorem unselect_quiet {s : State} (h : s.quiet = true) : unselect s = .ok () (closeBracket s) := by
  have hq : (s.emitted [.fin]).quiet = true := h
  rw [unselect, act_bind_ok _ (emit_quiet h _), act_bind, whenShared_eq]
  cases hs : s.params.sharedBus with
  | false =>
    simp only [State.emitted_params, hs, Bool.false_eq_true, if_false]
    rw [act_bind_ok _ (hostTurn_quiet hq)]
    simp [closeBracket, closeEvents, hs, setSel]
  | true =>
    simp only [State.emitted_params, hs, if_true, emit_quiet hq]
    rw [act_bind_ok _ (hostTurn_quiet (by exact hq)), emitted_append]
    simp [closeBracket, closeEvents, hs, setSel]

/-! ### Changes in turn -/

/-- The result of changes made one after the other. -/
def written (fs : List (State → State)) (s : State) : State := fs.foldl (fun t f => f t) s

/-- The last change after all the others. -/
theorem lastOf_written (fs : List (State → State)) (s : State) : lastOf fs (written fs.dropLast s) = written fs s := by
  rcases List.eq_nil_or_concat fs with rfl | ⟨gs, g, rfl⟩
  · rfl
  · simp [lastOf, written]

/-- What holds of every change, and of none, holds of the last. -/
theorem lastOf_all {P : (State → State) → Prop} {fs : List (State → State)} (hid : P id) (hf : ∀ f ∈ fs, P f) :
    P (lastOf fs) := by
  rw [lastOf]
  cases h : fs.getLast? with
  | none => exact hid
  | some f => exact hf f (List.mem_of_getLast? h)

/-- Changes in turn under a host that stays quiet. -/
theorem inTurn_quiet {turn : Act Unit} (hturn : ∀ s : State, s.quiet = true → turn s = .ok () s) (fs : List (State → State)) :
    ∀ {s : State}, s.quiet = true → (∀ f ∈ fs, ∀ t, (f t).host = t.host) → inTurn turn fs s = .ok () (written fs s) := by
  induction fs with
  | nil => intro s _ _; rfl
  | cons f fs ih =>
    intro s hq hf
    have hq' : (f s).quiet = true := (quiet_of_host (hf f (List.mem_cons_self ..) s)).trans hq
    rw [inTurn, update_bind, act_bind_ok _ (hturn _ hq'), ih hq' fun g hg => hf g (List.mem_cons_of_mem _ hg)]
    rfl

/-! ### Faults -/

/-- What holds of every change of fault entry (R185). -/
theorem faultSteps_all {P : (State → State) → Prop} (c : Cause) (d : Nat) (v : Int) (a : Option Nat) (s : State)
    (hcause : P (setCause c)) (hinfo : P (setFaultInfo d v)) (haddr : ∀ b, P (setFaultAddr b)) (hpush : ∀ e, P (pushEvent e))
    (hsel : P (setSel false)) (hfault : P setFault) : ∀ f ∈ faultSteps c d v a s, P f := by
  intro f hf
  simp only [faultSteps, List.mem_append, List.mem_cons, List.not_mem_nil, or_false] at hf
  rcases hf with (((rfl | rfl) | hf) | hf) | rfl
  · exact hcause
  · exact hinfo
  · split at hf
    · exact List.mem_singleton.mp hf ▸ haddr _
    · simp at hf
  · split at hf
    · rcases List.mem_append.mp hf with hf | hf
      · rcases List.mem_cons.mp hf with rfl | hf
        · exact hpush _
        · split at hf
          · exact List.mem_singleton.mp hf ▸ hpush _
          · simp at hf
      · exact List.mem_singleton.mp hf ▸ hsel
    · simp at hf
  · exact hfault

/-- The changes of fault entry and the end of the command, one after the other (R185). -/
theorem faultSteps_written (c : Cause) (d : Nat) (v : Int) (a : Option Nat) (s : State) :
    endCommand (written (faultSteps c d v a s) s) = faultEntry c d v a s := by
  obtain ⟨_, _, _, sel, _, _, _, _, _, _, _, _, _, _, _, _, _, _, _, _, _, _, _, p, _, _, _, _, _, _, _, _⟩ := s
  obtain ⟨_, _, _, _, _, _, _, _, shared, _, _⟩ := p
  cases a <;> cases sel <;> cases shared <;>
    simp [faultSteps, written, faultEntry, faultRegisters, endCommand, setCause, setFaultInfo, setFaultAddr, setFault, setSel,
      pushEvent, State.emitted, closeEvents]

/-- Fault entry under a quiet host (R185). -/
theorem enterFault_quiet {α : Type} {s : State} (h : s.quiet = true) (c : Cause) (d : Nat) (v : Int) (a : Option Nat) :
    (enterFault c d v a : Act α) s = .error () (faultEntry c d v a s) := by
  rw [enterFault_eq, inTurn_quiet (fun _ => heldTurn_quiet) _ h
    (faultSteps_all c d v a s (fun _ => rfl) (fun _ => rfl) (fun _ _ => rfl) (fun _ _ => rfl) (fun _ => rfl) fun _ => rfl)]
  exact congrArg _ (faultSteps_written c d v a s)

/-- `raise` under a quiet host (R16). -/
theorem raise_quiet {α : Type} {s : State} (h : s.quiet = true) (c : Cause) (d : Nat) (v : Int) :
    (raise c d v : Act α) s = .error () (faultEntry c d v none s) := by
  rw [raise, act_bind_ok _ (hostTurn_quiet h), enterFault_quiet h]

/-- A `CMD` write taken under a running command, before a quiet host (R183). -/
theorem overrun_quiet {s : State} (h : State.quiet { s with host := s.host.tail } = true) (w : Word) :
    overrun w s = .error () (faultEntry .cmdOverrun 0 (w.toNat % 65536 : Nat) none { s with host := s.host.tail }) := by
  rw [overrun, update_bind, act_bind_ok _ (heldTurn_quiet h), enterFault_quiet h]
  simp

/-! ### The address window -/

/-- The window check, value by value (R111). -/
theorem checkWindow_eq (xs xe ys ye : Int) (s : State) :
    checkWindow xs xe ys ye s =
      if ¬(0 ≤ xs ∧ xs < s.params.xbytes) then raise .windowRange 0 xs s
      else if ¬(0 ≤ xe ∧ xe < s.params.xbytes) then raise .windowRange 1 xe s
      else if ¬(0 ≤ ys ∧ ys < s.params.gates) then raise .windowRange 2 ys s
      else if ¬(0 ≤ ye ∧ ye < s.params.gates) then raise .windowRange 3 ye s
      else .ok () s := by
  simp only [checkWindow, peek_bind]
  repeat' split
  all_goals rfl

/-- The window check passes a window in range (R111). -/
theorem checkWindow_ok {s : State} {w : Window} (h : w.inRange s.params = true) :
    checkWindow w.xs w.xe w.ys w.ye s = .ok () s := by
  simp only [Window.inRange, Bool.and_eq_true, decide_eq_true_eq] at h
  obtain ⟨⟨⟨⟨⟨⟨⟨h1, h2⟩, h3⟩, h4⟩, h5⟩, h6⟩, h7⟩, h8⟩ := h
  rw [checkWindow_eq, if_neg (not_not.mpr ⟨h1, h2⟩), if_neg (not_not.mpr ⟨h3, h4⟩), if_neg (not_not.mpr ⟨h5, h6⟩),
    if_neg (not_not.mpr ⟨h7, h8⟩)]

/-- The frames of a window are its events (R112, R113, R114). -/
theorem frameEvents_windowFrames (p : Params) (w : Window) :
    frameEvents (windowFrames p w.xs w.xe w.ys w.ye) = windowEvents p w := by
  by_cases h : p.gates > 255
  · simp [frameEvents, windowFrames, windowEvents, yBytes, yAddress, Params.ywide, low8, h]
  · simp [frameEvents, windowFrames, windowEvents, yBytes, yAddress, Params.ywide, low8, h]

/-- `SetAddressInternal` of a window in range under a quiet host (R111 to R114). -/
theorem setAddressInternal_quiet {s : State} {w : Window} (hq : s.quiet = true) (h : w.inRange s.params = true) :
    setAddressInternal w.xs w.xe w.ys w.ye s = .ok () (s.emitted (windowEvents s.params w)) := by
  rw [setAddressInternal, act_bind_ok _ (checkWindow_ok h), peek_bind, sendFrames_quiet _ hq, frameEvents_windowFrames]

/-! ### The whole command -/

/-- The register writes of a command under a host that stays quiet. -/
theorem commit_quiet (fs : List (State → State)) {s : State} (hq : s.quiet = true) (hf : ∀ f ∈ fs, ∀ t, (f t).host = t.host) :
    commit fs s = .ok () (written fs s) := by
  rw [commit_eq, inTurn_quiet (fun _ => hostTurnFrom_quiet _) _ hq fun f h => hf f (List.dropLast_subset _ h)]
  exact congrArg _ (lastOf_written fs s)

/-- The acceptance of a command passes (R183). -/
theorem acceptance_ok {own needs : Bool} {s : State} (hown : (own && s.sel) = false)
    (hneeds : (needs && !s.panelInit) = false) : acceptance own needs s = .ok () s := by
  simp [acceptance_eq, hown, hneeds]

/-- A command whose acceptance passes and whose steps complete under a quiet host completes (R183). -/
theorem runCommand_quiet {α : Type} {own needs : Bool} {body : Act α} {writes : α → List (State → State)} {s s' : State}
    {a : α} (hown : (own && s.sel) = false) (hneeds : (needs && !s.panelInit) = false) (hbody : body s = .ok a s')
    (hq : s'.quiet = true) (hw : ∀ f ∈ writes a, ∀ t, (f t).host = t.host) :
    runCommand own needs body writes s = endCommand (written (writes a) s') := by
  rw [runCommand_eq, act_bind_ok _ (acceptance_ok hown hneeds), commandSteps, act_bind_ok _ hbody,
    act_bind_ok _ (hostTurn_quiet hq), commit_quiet _ hq hw]

/-- A command whose acceptance passes and whose steps end in a fault ends there (R16). -/
theorem runCommand_error {α : Type} {own needs : Bool} {body : Act α} {writes : α → List (State → State)} {s s' : State}
    {e : Unit} (hown : (own && s.sel) = false) (hneeds : (needs && !s.panelInit) = false) (hbody : body s = .error e s') :
    runCommand own needs body writes s = s' := by
  rw [runCommand_eq, act_bind_ok _ (acceptance_ok hown hneeds), commandSteps, act_bind_error _ hbody]

end Sys2Proof.Machine
end

