-- ==== Sys2Proof/Laws/Inputs.lean ====
section
/-! SUPPORT. The pieces of a command that take something from outside, under a host that waits for idle (R204): a read
of host memory, a sample, a reading of the busy line. -/

namespace Sys2Proof.Machine

/-- The state after a part of a command emitted `es`, made the reads `rs` and asked the samples `qs`. -/
def State.drawn (s : State) (es : List Event) (rs : List MemReq) (qs : List SampleReq) : State :=
  { (s.afterAnswers qs.length).emitted es with
    memReads := s.memReads ++ rs
    sampleLog := s.sampleLog ++ qs
    sampleReq := if qs = [] then s.sampleReq else none }

@[simp] theorem drawn_quiet (s : State) (es : List Event) (rs : List MemReq) (qs : List SampleReq) :
    (s.drawn es rs qs).quiet = s.quiet := rfl

@[simp] theorem drawn_params (s : State) (es : List Event) (rs : List MemReq) (qs : List SampleReq) :
    (s.drawn es rs qs).params = s.params := rfl

@[simp] theorem drawn_mem (s : State) (es : List Event) (rs : List MemReq) (qs : List SampleReq) :
    (s.drawn es rs qs).mem = s.mem := rfl

@[simp] theorem drawn_racy (s : State) (es : List Event) (rs : List MemReq) (qs : List SampleReq) :
    (s.drawn es rs qs).racy = s.racy := rfl

@[simp] theorem drawn_sel (s : State) (es : List Event) (rs : List MemReq) (qs : List SampleReq) :
    (s.drawn es rs qs).sel = s.sel := rfl

@[simp] theorem drawn_panelW (s : State) (es : List Event) (rs : List MemReq) (qs : List SampleReq) :
    (s.drawn es rs qs).panelW = s.panelW := rfl

@[simp] theorem drawn_bgValid (s : State) (es : List Event) (rs : List MemReq) (qs : List SampleReq) :
    (s.drawn es rs qs).bgValid = s.bgValid := rfl

@[simp] theorem drawn_bg (s : State) (es : List Event) (rs : List MemReq) (qs : List SampleReq) :
    (s.drawn es rs qs).bg = s.bg := rfl

theorem drawn_nil (s : State) : s.drawn [] [] [] = s := by
  simp [State.drawn, State.afterAnswers]

/-- Events after a part of a command belong to it. -/
theorem drawn_emitted (s : State) (es fs : List Event) (rs : List MemReq) (qs : List SampleReq) :
    (s.drawn es rs qs).emitted fs = s.drawn (es ++ fs) rs qs := by
  simp [State.drawn, State.emitted, State.afterAnswers]

/-- Two parts without samples, one after the other. -/
theorem drawn_drawn (s : State) (es fs : List Event) (rs us : List MemReq) :
    (s.drawn es rs []).drawn fs us [] = s.drawn (es ++ fs) (rs ++ us) [] := by
  simp [State.drawn, State.emitted, State.afterAnswers]

/-- The state after a part of a command depends on the events emitted only through `emitted`. -/
theorem emitted_drawn (s : State) (es : List Event) : s.emitted es = s.drawn es [] [] := by
  simp [State.drawn, State.afterAnswers, State.emitted]

/-- Every outcome of `MemRead` under a quiet host (R13, R63). -/
theorem memRead_eq {s : State} (hq : s.quiet = true) (a n : Nat) :
    memRead a n s =
      if s.params.readable a n then performRead a n s else .error () (faultEntry .memError 0 n (some a) s) := by
  rw [memRead, peek_bind, act_bind_ok _ (hostTurn_quiet hq)]
  split
  · rfl
  · exact enterFault_quiet hq _ _ _ _

/-- A readable `MemRead` of memory that the host left alone (R13). -/
theorem memRead_quiet {s : State} (hq : s.quiet = true) (hr : s.racy = []) {a n : Nat}
    (ha : s.params.readable a n = true) :
    memRead a n s = .ok (Memory.readLE s.mem a n) { s with memReads := s.memReads ++ [⟨a, n⟩] } := by
  rw [memRead_eq hq, if_pos ha]
  simp [performRead, hr]

/-- A readable `MemRead` inside a part of a command. -/
theorem memRead_drawn {s : State} (hq : s.quiet = true) (hr : s.racy = []) (es : List Event) (rs : List MemReq)
    (qs : List SampleReq) {a n : Nat} (ha : s.params.readable a n = true) :
    memRead a n (s.drawn es rs qs) = .ok (Memory.readLE s.mem a n) (s.drawn es (rs ++ [⟨a, n⟩]) qs) := by
  rw [memRead_quiet (by exact hq) (by exact hr) (by exact ha)]
  simp [State.drawn, State.emitted, State.afterAnswers]

/-- The host's answer to a sample request inside a part of a command (R14). -/
theorem sample_drawn {s : State} (hq : s.quiet = true) (es : List Event) (rs : List MemReq) (qs : List SampleReq)
    (q : SampleReq) :
    sample q (s.drawn es rs qs) = .ok (s.answerAt qs.length) (s.drawn es rs (qs ++ [q])) := by
  rw [sample, act_bind_ok _ (hostTurn_quiet (by exact hq)), update_bind, act_bind_ok _ (hostTurn_quiet (by exact hq))]
  unfold answerSample
  cases h : s.samples.drop qs.length with
  | nil =>
    have hl : s.samples.length ≤ qs.length := List.drop_eq_nil_iff.mp h
    have hd : s.samples.drop (qs.length + 1) = [] := List.drop_eq_nil_iff.mpr (by omega)
    have hn : s.samples[qs.length]? = none := List.getElem?_eq_none hl
    have hc : s.draws + (qs.length - s.samples.length) + 1 = s.draws + (qs.length + 1 - s.samples.length) := by omega
    simp [requestSample, State.drawn, State.emitted, State.afterAnswers, State.answerAt, h, hd, hn, hc]
  | cons b rest =>
    have hl : qs.length < s.samples.length := by
      by_contra hc
      rw [List.drop_eq_nil_of_le (by omega)] at h
      cases h
    have hb : s.samples[qs.length]? = some b := by
      rw [← List.head?_drop, h]; rfl
    have hd : s.samples.drop (qs.length + 1) = rest := by
      rw [← List.drop_drop, h]; rfl
    have h0 : qs.length - s.samples.length = 0 := by omega
    have h1 : qs.length + 1 - s.samples.length = 0 := by omega
    simp [requestSample, State.drawn, State.emitted, State.afterAnswers, State.answerAt, h, hd, hb, h0, h1]

/-- One reading of the busy line (R15). -/
theorem readBusyLevel_eq (s : State) :
    readBusyLevel s = .ok (s.levelAt 0) ((s.afterLevels 1).emitted [.busy (s.levelAt 0)]) := by
  obtain ⟨_, _, _, _, _, _, _, _, _, _, _, _, _, _, _, _, _, _, _, _, _, _, _, _, _, _, line, _, _, _, _, _⟩ := s
  cases line <;> simp [readBusyLevel, State.levelAt, State.afterLevels, pushEvent, State.emitted]

/-- One pass of the poll loop under a quiet host (R106). -/
theorem pollOnce_quiet {s : State} (hq : s.quiet = true) :
    pollOnce s =
      if s.levelAt 0 = s.params.busyActiveLevel then
        .ok true ((s.afterLevels 1).emitted [.busy (s.levelAt 0), .dly s.params.pollInterval])
      else .ok false ((s.afterLevels 1).emitted [.busy (s.levelAt 0)]) := by
  have hr : readBusy s =
      .ok (s.levelAt 0 == s.params.busyActiveLevel) ((s.afterLevels 1).emitted [.busy (s.levelAt 0)]) := by
    rw [readBusy, act_bind_ok _ (hostTurn_quiet hq), act_bind_ok _ (readBusyLevel_eq s)]
    rfl
  rw [pollOnce, peek_bind, act_bind_ok _ hr]
  by_cases h : s.levelAt 0 = s.params.busyActiveLevel
  · simp only [h, beq_self_eq_true, if_true, wait]
    rw [act_bind_ok _ (emit_quiet (by exact hq) _), emitted_append]
    rfl
  · have hf : (s.levelAt 0 == s.params.busyActiveLevel) = false := by simpa using h
    simp [hf, h]

end Sys2Proof.Machine
end

