-- ==== Sys2Proof/Laws/Pack.lean ====
section
/-! SUPPORT. The packing of a column (R134) as a list of bytes: the recursion over rows gives one byte for each RAM x
address that the rows meet (R139). -/

namespace Sys2Proof.Machine

/-- The bytes of the last `left` rows of a column whose accumulator is `acc` (R134). -/
def rowBytes (pick : Nat → Byte) (y height : Nat) : (left : Nat) → (acc : Byte) → List Byte
  | 0, _ => []
  | left + 1, acc =>
    let h := height - (left + 1)
    let acc' := acc ||| (pick h &&& slotMask ((y + h) % 4))
    if (y + h) % 4 = 3 ∨ h + 1 = height then acc' :: rowBytes pick y height left 0
    else rowBytes pick y height left acc'

/-- The first `r` slots of the packed byte of group `g`. -/
def slotsBelow (pick : Nat → Byte) (y height g : Nat) : (r : Nat) → Byte
  | 0 => 0
  | r + 1 => slotsBelow pick y height g r ||| slotPart pick y height g r

/-- A packed byte is its four slots. -/
theorem slotsBelow_four (pick : Nat → Byte) (y height g : Nat) :
    slotsBelow pick y height g 4 = groupByte pick y height g := by
  simp [slotsBelow, groupByte]

/-- Slots whose rows all lie below the column's rows are empty. -/
theorem slotsBelow_before (pick : Nat → Byte) (y height g : Nat) : ∀ r, 4 * g + r ≤ y → slotsBelow pick y height g r = 0
  | 0, _ => rfl
  | r + 1, h => by
    rw [slotsBelow, slotsBelow_before pick y height g r (by omega), slotPart, if_neg (by omega)]
    rfl

/-- Slots whose rows lie past the column's last row add nothing. -/
theorem slotsBelow_after (pick : Nat → Byte) (y height g r : Nat) (h : y + height ≤ 4 * g + r) :
    ∀ n, slotsBelow pick y height g (r + n) = slotsBelow pick y height g r
  | 0 => rfl
  | n + 1 => by
    rw [← Nat.add_assoc, slotsBelow, slotsBelow_after pick y height g r h n, slotPart, if_neg (by omega)]
    simp

/-- From a row on, a column sends one byte for each group its remaining rows meet. -/
theorem rowBytes_eq (pick : Nat → Byte) (y height : Nat) : ∀ left, 0 < left → left ≤ height →
    rowBytes pick y height left
        (slotsBelow pick y height ((y + (height - left)) / 4) ((y + (height - left)) % 4)) =
      (List.range ((y + height - 1) / 4 - (y + (height - left)) / 4 + 1)).map fun k =>
        groupByte pick y height ((y + (height - left)) / 4 + k)
  | 0, h, _ => absurd h (by omega)
  | left + 1, _, hle => by
    obtain ⟨h, hh⟩ : ∃ h, h = height - (left + 1) := ⟨_, rfl⟩
    rw [rowBytes, ← hh]
    obtain ⟨g, hg⟩ : ∃ g, g = (y + h) / 4 := ⟨_, rfl⟩
    obtain ⟨r, hr⟩ : ∃ r, r = (y + h) % 4 := ⟨_, rfl⟩
    have hr4 : r < 4 := by omega
    have hrow : 4 * g + r = y + h := by omega
    rw [← hg, ← hr]
    have hacc : slotsBelow pick y height g r ||| (pick h &&& slotMask r) = slotsBelow pick y height g (r + 1) := by
      rw [slotsBelow, slotPart, if_pos (by omega), show 4 * g + r - y = h by omega]
    simp only [hacc]
    by_cases hlast : h + 1 = height
    · have hl : left = 0 := by omega
      subst hl
      have hbyte : slotsBelow pick y height g (r + 1) = groupByte pick y height g := by
        rw [← slotsBelow_four, show (4 : Nat) = r + 1 + (3 - r) by omega,
          slotsBelow_after pick y height g (r + 1) (by omega)]
      rw [if_pos (Or.inr hlast), hbyte, show (y + height - 1) / 4 - g + 1 = 1 by omega]
      rfl
    · have ih := rowBytes_eq pick y height left (by omega) (by omega)
      rw [show height - left = h + 1 by omega] at ih
      by_cases hr3 : r = 3
      · rw [show (y + (h + 1)) / 4 = g + 1 by omega, show (y + (h + 1)) % 4 = 0 by omega] at ih
        rw [if_pos (Or.inl hr3), hr3, slotsBelow_four]
        have h0 : (0 : Byte) = slotsBelow pick y height (g + 1) 0 := rfl
        rw [h0, ih, show (y + height - 1) / 4 - g + 1 = ((y + height - 1) / 4 - (g + 1) + 1) + 1 by omega]
        generalize (y + height - 1) / 4 - (g + 1) + 1 = n
        rw [List.range_succ_eq_map, List.map_cons, List.map_map]
        simp only [Function.comp_def, Nat.succ_eq_add_one, Nat.add_assoc, Nat.add_comm 1]
        rfl
      · rw [show (y + (h + 1)) / 4 = g by omega, show (y + (h + 1)) % 4 = r + 1 by omega] at ih
        rw [if_neg (by omega), ih]

/-- The bytes of a whole column (R134, R139). -/
theorem rowBytes_column (pick : Nat → Byte) (y height : Nat) :
    rowBytes pick y height height 0 = columnBytes pick y height := by
  rw [columnBytes]
  split
  · subst height; rfl
  · have h := rowBytes_eq pick y height height (by omega) (Nat.le_refl _)
    rw [Nat.sub_self, Nat.add_zero, slotsBelow_before pick y height _ _ (by omega)] at h
    exact h

/-- A column sends one byte for each RAM x address its rows meet (R139). -/
theorem columnBytes_length (pick : Nat → Byte) (y height : Nat) :
    (columnBytes pick y height).length = if height = 0 then 0 else (y + height - 1) / 4 - y / 4 + 1 := by
  rw [columnBytes]
  split <;> simp

end Sys2Proof.Machine
end

