-- ==== Sys2Proof/Laws/Draw.lean ====
section
/-! SUPPORT. The draw procedure under a host that waits for idle: `DrawBitmapCore` (R138) is one bracket whose bytes are
those of `drawBytes`, for every pixel source whose samples are known. -/

namespace Sys2Proof.Machine

/-- What the pixels before `(w, h)` of a draw contribute, column by column (R138). -/
def pixelsBefore {β : Type} (f : Nat → Nat → List β) (height w h : Nat) : List β :=
  ((List.range w).flatMap fun v => (List.range height).flatMap (f v)) ++ (List.range h).flatMap (f w)

theorem pixelsBefore_zero {β : Type} (f : Nat → Nat → List β) (height : Nat) : pixelsBefore f height 0 0 = [] := by
  simp [pixelsBefore]

theorem pixelsBefore_row {β : Type} (f : Nat → Nat → List β) (height w h : Nat) :
    pixelsBefore f height w (h + 1) = pixelsBefore f height w h ++ f w h := by
  simp [pixelsBefore, List.range_succ]

theorem pixelsBefore_column {β : Type} (f : Nat → Nat → List β) (height w : Nat) :
    pixelsBefore f height (w + 1) 0 = pixelsBefore f height w height := by
  simp [pixelsBefore, List.range_succ]

theorem pixelsBefore_all {β : Type} (f : Nat → Nat → List β) (height w : Nat) :
    pixelsBefore f height w 0 = (List.range w).flatMap fun v => (List.range height).flatMap (f v) := by
  simp [pixelsBefore]

/-- What a pixel source does at each pixel of a draw from the base state `s`: pixel `(w, h)` gets the colour byte
`pk w h`, after the reads `rd w h` and the requests `rq w h`. -/
def PicksAs (fg : Byte) (src : PixelSource) (width height : Nat) (s : State) (pk : Nat → Nat → Byte)
    (rd : Nat → Nat → List MemReq) (rq : Nat → Nat → List SampleReq) : Prop :=
  ∀ w h es, w < width → h < height →
    pick fg src width height w h (s.drawn es (pixelsBefore rd height w h) (pixelsBefore rq height w h)) =
      .ok (pk w h) (s.drawn es (pixelsBefore rd height w h ++ rd w h) (pixelsBefore rq height w h ++ rq w h))

variable {fg : Byte} {src : PixelSource} {width height : Nat} {s : State} {pk : Nat → Nat → Byte}
  {rd : Nat → Nat → List MemReq} {rq : Nat → Nat → List SampleReq}

/-- `SendData` inside a draw. -/
theorem sendData_drawn (hq : s.quiet = true) (b : Byte) (es : List Event) (rs : List MemReq) (qs : List SampleReq) :
    sendData b (s.drawn es rs qs) = .ok () (s.drawn (es ++ [.dat b]) rs qs) := by
  rw [sendData, emit_quiet (by exact hq), drawn_emitted]

/-- The rows of a column from row `height - left` on (R134). -/
theorem packRows_quiet (hq : s.quiet = true) (y w : Nat)
    (hp : ∀ h es, h < height →
      pick fg src width height w h (s.drawn es (pixelsBefore rd height w h) (pixelsBefore rq height w h)) =
        .ok (pk w h) (s.drawn es (pixelsBefore rd height w h ++ rd w h) (pixelsBefore rq height w h ++ rq w h))) :
    ∀ (left : Nat) (acc : Byte) (es : List Event), left ≤ height →
      packRows fg src y width height w left acc
          (s.drawn es (pixelsBefore rd height w (height - left)) (pixelsBefore rq height w (height - left))) =
        .ok () (s.drawn (es ++ (rowBytes (pk w) y height left acc).map Event.dat)
          (pixelsBefore rd height w height) (pixelsBefore rq height w height))
  | 0, _, es, _ => by simp [packRows, rowBytes]
  | left + 1, acc, es, hle => by
    have hnext : height - (left + 1) + 1 = height - left := by omega
    rw [packRows, act_bind_ok _ (hp (height - (left + 1)) es (by omega)), ← pixelsBefore_row, ← pixelsBefore_row,
      hnext, rowBytes, hnext]
    split
    · rw [act_bind_ok _ (sendData_drawn hq ..), packRows_quiet hq y w hp left 0 _ (by omega)]
      simp
    · exact packRows_quiet hq y w hp left _ es (by omega)

/-- The columns of a draw from column `width - left` on (R138). -/
theorem packColumns_quiet (hq : s.quiet = true) (hp : PicksAs fg src width height s pk rd rq) (y : Nat) :
    ∀ (left : Nat) (es : List Event), left ≤ width →
      packColumns fg src y width height left
          (s.drawn es (pixelsBefore rd height (width - left) 0) (pixelsBefore rq height (width - left) 0)) =
        .ok () (s.drawn
          (es ++ ((List.range' (width - left) left).flatMap fun w => columnBytes (pk w) y height).map Event.dat)
          (pixelsBefore rd height width 0) (pixelsBefore rq height width 0))
  | 0, es, _ => by simp [packColumns]
  | left + 1, es, hle => by
    have hrow := packRows_quiet hq y (width - (left + 1)) (fun h es hh => hp _ h es (by omega) hh) height 0 es (Nat.le_refl _)
    rw [Nat.sub_self, rowBytes_column, ← pixelsBefore_column, ← pixelsBefore_column,
      show width - (left + 1) + 1 = width - left by omega] at hrow
    rw [packColumns, act_bind_ok _ hrow, packColumns_quiet hq hp y left _ (by omega), List.range'_succ,
      show width - (left + 1) + 1 = width - left by omega]
    simp

/-- A bracket opened around a part of a command is closed after it (R103). -/
theorem closeBracket_drawn (hs : s.sel = false) (es : List Event) (rs : List MemReq) (qs : List SampleReq) :
    closeBracket (({ s with sel := true } : State).drawn es rs qs) = s.drawn (es ++ closeEvents s.params) rs qs := by
  cases s
  subst hs
  simp [closeBracket, State.drawn, State.emitted, State.afterAnswers]

/-- `DrawBitmapCore` of a window that passes the check (R138): one bracket, the window, the packed bytes. -/
theorem drawBitmapCore_quiet {color : Color} {x y : Nat} (hq : s.quiet = true) (hs : s.sel = false)
    (hw : (s.window x y width height).inRange s.params = true)
    (hp : PicksAs (colorByte color) src width height { s with sel := true } pk rd rq) :
    drawBitmapCore color x y width height src s =
      .ok () (s.drawn (drawEvents s.params (s.window x y width height) (drawBytes pk y width height))
        (pixelsBefore rd height width 0) (pixelsBefore rq height width 0)) := by
  have hopen : openBracket s = ({ s with sel := true } : State).emitted (openEvents s.params) := rfl
  have hcols := packColumns_quiet (by exact hq) hp y width
    (openEvents s.params ++ windowEvents s.params (s.window x y width height)) (Nat.le_refl _)
  rw [Nat.sub_self, pixelsBefore_zero, pixelsBefore_zero, ← List.range_eq_range'] at hcols
  have hset : setAddressInternal (s.window x y width height).xs (s.window x y width height).xe
      (s.window x y width height).ys (s.window x y width height).ye (openBracket s) =
      .ok () (({ s with sel := true } : State).drawn
        (openEvents s.params ++ windowEvents s.params (s.window x y width height)) [] []) := by
    rw [setAddressInternal_quiet (by exact hq) (by exact hw), hopen, emitted_append, emitted_drawn]
    rfl
  rw [drawBitmapCore, peek_bind, act_bind_ok _ (select_quiet hq)]
  change (setAddressInternal (s.window x y width height).xs (s.window x y width height).xe
      (s.window x y width height).ys (s.window x y width height).ye >>= _) _ = _
  rw [act_bind_ok _ hset, act_bind_ok _ hcols, unselect_quiet (by exact hq)]
  refine congrArg (EStateM.Result.ok ()) ((closeBracket_drawn hs _ _ _).trans ?_)
  simp [drawEvents, drawBytes]

/-! ### The pixel sources -/

/-- The colour of a pixel once its sample is known (R138). -/
theorem pick_of_sample {color : Color} {w h : Nat} {t t' : State} {b : Bool}
    (hb : srcSample src width height w h t = .ok b t') (hv : t'.bgValid = true ∨ b = true) :
    pick (colorByte color) src width height w h t = .ok (pixelByte color t'.bg b) t' := by
  rw [pick, act_bind_ok _ hb, peek_bind, peek_bind]
  cases b with
  | true => rfl
  | false => simp [hv.resolve_right (by simp), pixelByte]

/-- A false sample without a background (R138). -/
theorem pick_unset {w h : Nat} {t t' : State} (hq : t'.quiet = true) (hb : srcSample src width height w h t = .ok false t')
    (hv : t'.bgValid = false) :
    pick fg src width height w h t = .error () (faultEntry .bgUnset 0 0 none t') := by
  rw [pick, act_bind_ok _ hb, peek_bind, peek_bind, ← raise_quiet hq]
  simp [hv]

/-- The samples of a `SOLID` source (R135). -/
theorem picksAs_solid (color : Color) (width height : Nat) (s : State) :
    PicksAs (colorByte color) .solid width height s (fun _ _ => colorByte color) (fun _ _ => []) (fun _ _ => []) := by
  intro w h es _ _
  rw [pick_of_sample (b := true) rfl (Or.inr rfl)]
  simp [pixelByte]

/-- `GlyphBit` inside a part of a command (R59). -/
theorem glyphBit_drawn (hq : s.quiet = true) (hr : s.racy = []) (base w h : Nat) (es : List Event) (rs : List MemReq)
    (qs : List SampleReq) (ha : s.params.readable (bitmapAddr base width w h) 1 = true) :
    srcSample (.mem base) width height w h (s.drawn es rs qs) =
      .ok (bitmapBit s.mem base width w h) (s.drawn es (rs ++ [⟨bitmapAddr base width w h, 1⟩]) qs) := by
  rw [srcSample, glyphBit]
  change (memRead (bitmapAddr base width w h) 1 >>= _) _ = _
  rw [act_bind_ok _ (memRead_drawn hq hr es rs qs ha), act_pure, bitmapBit]
  simp [Memory.readLE]

/-- The samples of a bitmap in host memory (R137). -/
theorem picksAs_mem (color : Color) (base : Nat) (hq : s.quiet = true) (hr : s.racy = [])
    (ha : ∀ r ∈ bitmapReads base width height, s.params.readable r.addr r.width = true)
    (hd : bitmapDrawable s base width height = true) :
    PicksAs (colorByte color) (.mem base) width height s
      (fun w h => pixelByte color s.bg (bitmapBit s.mem base width w h))
      (fun w h => [⟨bitmapAddr base width w h, 1⟩]) (fun _ _ => []) := by
  intro w h es hw hh
  have hread : s.params.readable (bitmapAddr base width w h) 1 = true :=
    ha ⟨bitmapAddr base width w h, 1⟩ (List.mem_flatMap.mpr
      ⟨w, List.mem_range.mpr hw, List.mem_map.mpr ⟨h, List.mem_range.mpr hh, rfl⟩⟩)
  rw [pick_of_sample (glyphBit_drawn hq hr base w h es _ _ hread)]
  · simp
  · rw [bitmapDrawable, Bool.or_eq_true, List.all_eq_true] at hd
    refine hd.imp id fun hall => ?_
    have hcol := hall w (List.mem_range.mpr hw)
    rw [List.all_eq_true] at hcol
    exact hcol h (List.mem_range.mpr hh)

/-- The requests before a pixel of a draw are as many as the pixels before it. -/
theorem pixelsBefore_length {β : Type} (f : Nat → Nat → List β) (hf : ∀ w h, (f w h).length = 1) (height w h : Nat) :
    (pixelsBefore f height w h).length = w * height + h := by
  simp [pixelsBefore, List.length_flatMap, hf]

/-- The samples of a `HOST` source (R136). -/
theorem picksAs_host (color : Color) (hq : s.quiet = true)
    (hd : s.bgValid = true ∨ ∀ k < width * height, s.answerAt k = true) :
    PicksAs (colorByte color) .host width height s
      (fun w h => pixelByte color s.bg (s.answerAt (w * height + h)))
      (fun _ _ => []) (fun w h => [{ width := width, height := height, w := w, h := h }]) := by
  intro w h es hw hh
  have hs : srcSample .host width height w h (s.drawn es (pixelsBefore (fun _ _ => []) height w h)
      (pixelsBefore (fun w h => [{ width := width, height := height, w := w, h := h }]) height w h)) = _ :=
    sample_drawn hq es _ _ { width := width, height := height, w := w, h := h }
  rw [pixelsBefore_length _ (fun _ _ => rfl)] at hs
  rw [pick_of_sample hs]
  · simp
  · refine hd.imp id fun hall => hall _ ?_
    calc w * height + h < w * height + height := by omega
      _ = (w + 1) * height := by ring
      _ ≤ width * height := Nat.mul_le_mul_right _ hw

/-- The reads of a bitmap are those before its end (R137). -/
theorem bitmapReads_eq (base width height : Nat) :
    bitmapReads base width height = pixelsBefore (fun w h => [⟨bitmapAddr base width w h, 1⟩]) height width 0 := by
  simp only [bitmapReads, pixelsBefore_all, List.map_eq_flatMap]

/-- The requests of a draw are those before its end (R136). -/
theorem drawRequests_eq (width height : Nat) :
    drawRequests width height =
      pixelsBefore (fun w h => [{ width := width, height := height, w := w, h := h }]) height width 0 := by
  simp only [drawRequests, pixelsBefore_all, List.map_eq_flatMap]

end Sys2Proof.Machine
end

