-- ==== Sys2Proof/Laws/Memory.lean ====
section
/-! SUPPORT. Host memory in its canonical form: every operation keeps it, a read after a write, the bound of a read. -/

namespace Sys2Proof.Machine

/-- The canonical form above an address, one entry taken apart. -/
theorem Memory.wfFrom_cons (lo a : Nat) (v : Byte) (rest : Memory) :
    Memory.wfFrom lo ((a, v) :: rest) = true ↔
      lo ≤ a ∧ a < 2 ^ 32 ∧ v ≠ Memory.unlisted ∧ Memory.wfFrom (a + 1) rest = true := by
  simp [Memory.wfFrom, and_assoc]

/-- The canonical form above an address is also the canonical form above a lower one. -/
theorem Memory.wfFrom_mono {lo lo' : Nat} (h : lo' ≤ lo) {m : Memory} (hm : Memory.wfFrom lo m = true) :
    Memory.wfFrom lo' m = true := by
  cases m with
  | nil => rfl
  | cons c rest =>
    obtain ⟨a, v⟩ := c
    rw [Memory.wfFrom_cons] at hm ⊢
    exact ⟨h.trans hm.1, hm.2⟩

/-- A byte below every listed address is not listed. -/
theorem Memory.read_below {m : Memory} : ∀ {lo a : Nat}, Memory.wfFrom lo m = true → a < lo →
    Memory.read m a = Memory.unlisted := by
  induction m with
  | nil => intros; rfl
  | cons c rest ih =>
    obtain ⟨b, v⟩ := c
    intro lo a hm ha
    rw [Memory.wfFrom_cons] at hm
    rw [Memory.read, if_neg (by omega)]
    exact ih hm.2.2.2 (by omega)

/-- A write keeps the canonical form above an address. -/
theorem Memory.write_wfFrom (a : Nat) (v : Byte) (ha : a < 2 ^ 32) (m : Memory) : ∀ {lo : Nat}, lo ≤ a →
    Memory.wfFrom lo m = true → Memory.wfFrom lo (Memory.write m a v) = true := by
  induction m with
  | nil =>
    intro lo hlo _
    rw [Memory.write]
    split
    · rfl
    · exact (Memory.wfFrom_cons ..).mpr ⟨hlo, ha, ‹_›, rfl⟩
  | cons c rest ih =>
    obtain ⟨b, u⟩ := c
    intro lo hlo hm
    have hc := (Memory.wfFrom_cons ..).mp hm
    rw [Memory.write]
    split
    · split
      · exact hm
      · exact (Memory.wfFrom_cons ..).mpr ⟨hlo, ha, ‹_›, (Memory.wfFrom_cons ..).mpr ⟨by omega, hc.2⟩⟩
    · split
      · subst a
        split
        · exact Memory.wfFrom_mono (by omega) hc.2.2.2
        · exact (Memory.wfFrom_cons ..).mpr ⟨hlo, ha, ‹_›, hc.2.2.2⟩
      · exact (Memory.wfFrom_cons ..).mpr ⟨hc.1, hc.2.1, hc.2.2.1, ih (by omega) hc.2.2.2⟩

/-- A write keeps the canonical form of host memory. -/
theorem Memory.write_wf {m : Memory} (hm : Memory.wf m = true) {a : Nat} (ha : a < 2 ^ 32) (v : Byte) :
    Memory.wf (Memory.write m a v) = true :=
  Memory.write_wfFrom a v ha m (Nat.zero_le a) hm

/-- A write leaves every other byte alone. -/
theorem Memory.read_write_ne {a b : Nat} (h : b ≠ a) (v : Byte) (m : Memory) :
    Memory.read (Memory.write m a v) b = Memory.read m b := by
  induction m with
  | nil =>
    rw [Memory.write]
    split
    · rfl
    · simp only [Memory.read, if_neg (Ne.symm h)]
  | cons c rest ih =>
    obtain ⟨d, u⟩ := c
    rw [Memory.write]
    split
    · split
      · rfl
      · rw [Memory.read, if_neg (Ne.symm h)]
    · split
      · subst d
        split
        · rw [Memory.read, if_neg (Ne.symm h)]
        · simp only [Memory.read, if_neg (Ne.symm h)]
      · simp only [Memory.read, ih]

/-- A read gives the byte last written. -/
theorem Memory.read_write_eq (a : Nat) (v : Byte) (m : Memory) : ∀ {lo : Nat}, Memory.wfFrom lo m = true →
    Memory.read (Memory.write m a v) a = v := by
  induction m with
  | nil =>
    intro lo _
    rw [Memory.write]
    split
    · simp [Memory.read, *]
    · simp [Memory.read]
  | cons c rest ih =>
    obtain ⟨d, u⟩ := c
    intro lo hm
    have hc := (Memory.wfFrom_cons ..).mp hm
    rw [Memory.write]
    split
    · split
      · rw [Memory.read, if_neg (by omega), Memory.read_below hc.2.2.2 (by omega)]
        exact Eq.symm ‹_›
      · simp [Memory.read]
    · split
      · subst d
        split
        · rw [Memory.read_below hc.2.2.2 (by omega)]
          exact Eq.symm ‹_›
        · simp [Memory.read]
      · rw [Memory.read, if_neg (Ne.symm ‹_›)]
        exact ih hc.2.2.2

/-- Memory after reset has the canonical form. -/
theorem State.reset_wf : Memory.wf State.reset.mem = true := rfl

/-- A host write of memory keeps the canonical form. -/
theorem hostPoke_wf {s : State} (h : Memory.wf s.mem = true) (a : Word) (v : Byte) :
    Memory.wf (hostPoke a v s).mem = true :=
  Memory.write_wf h a.isLt v

/-- A read of `n` bytes is a number of `8 * n` bits. -/
theorem Memory.readLE_lt (m : Memory) (n : Nat) : ∀ a : Nat, Memory.readLE m a n < 256 ^ n := by
  induction n with
  | zero => intro a; simp [Memory.readLE]
  | succ n ih =>
    intro a
    have h := ih (a + 1)
    have hb := (Memory.read m a).isLt
    rw [Memory.readLE, pow_succ]
    omega

end Sys2Proof.Machine
end

