-- ==== Sys2Proof/Laws/Outcomes.lean ====
section
/-! SUPPORT. Everything a piece of a command can do, whatever the host does under it: `Reaches` says what can have happened
when the command goes on, and `Ended` how it can have ended. The proofs about all commands cite it instead of unfolding
the meanings. -/

namespace Sys2Proof.Machine

/-! ### The bracket discipline over runs of events -/

theorem foldl_bracketStep_none (sh : Bool) (es : List Event) : es.foldl (bracketStep sh) none = none := by
  induction es with
  | nil => rfl
  | cons e es ih => exact ih

/-- The discipline over two runs of events, one after the other. -/
theorem brackets_append {sh : Bool} {o p q : Bracket} {es fs : List Event} (h : brackets sh o es = some p)
    (h' : brackets sh p fs = some q) : brackets sh o (es ++ fs) = some q := by
  unfold brackets at *
  rw [List.foldl_append, h, h']

/-! ### What can happen inside a command -/

/-- The state `s` with what the host can change of it under a command as it is in `v`. -/
def State.hosted (s v : State) : State :=
  { s with args := v.args, racy := v.racy, mem := v.mem, regReads := v.regReads, host := v.host }

@[simp] theorem hosted_self (s : State) : s.hosted s = s := rfl

@[simp] theorem hosted_hosted (s t u : State) : (s.hosted t).hosted u = s.hosted u := rfl

/-- `t` is reached from `s` by actions of the host that leave the command running. -/
structure Still (s t : State) : Prop where
  eq : t = s.hosted t
  host : t.host <:+ s.host
  memory : Memory.wf s.mem = true → Memory.wf t.mem = true
  unwritten : (∀ a v, .poke a v ∉ s.host) → t.mem = s.mem

theorem Still.refl (s : State) : Still s s where
  eq := rfl
  host := List.suffix_rfl
  memory := id
  unwritten _ := rfl

theorem Still.trans {s t u : State} (h : Still s t) (h' : Still t u) : Still s u where
  eq := by rw [h'.eq, h.eq]; rfl
  host := h'.host.trans h.host
  memory := h'.memory ∘ h.memory
  unwritten hp := (h'.unwritten fun a v hm => hp a v (h.host.subset hm)).trans (h.unwritten hp)

/-- The actions still to do are those from a place in the list on. -/
theorem Still.behind {s t : State} (h : Still s t) {l : List HostAction} (hl : l <:+ s.host) : Still s { t with host := l } where
  eq := by rw [h.eq]; rfl
  host := hl
  memory := h.memory
  unwritten := h.unwritten

/-- `t` is reached from `s` inside a command: no register, latch or flag but `Sel` has changed, the host has gone on with
its actions, and memory changed by its writes only. -/
structure Follows (s t : State) : Prop where
  busy : t.busy = s.busy
  fault : t.fault = s.fault
  cstate : t.cstate = s.cstate
  panelInit : t.panelInit = s.panelInit
  bgValid : t.bgValid = s.bgValid
  fontValid : t.fontValid = s.fontValid
  cause : t.cause = s.cause
  faultInfo : t.faultInfo = s.faultInfo
  faultAddr : t.faultAddr = s.faultAddr
  result : t.result = s.result
  panelW : t.panelW = s.panelW
  panelH : t.panelH = s.panelH
  bg : t.bg = s.bg
  fontBase : t.fontBase = s.fontBase
  cmdL : t.cmdL = s.cmdL
  opL : t.opL = s.opL
  poll : t.poll = s.poll
  params : t.params = s.params
  request : s.sampleReq = none → t.sampleReq = none
  host : t.host <:+ s.host
  memory : Memory.wf s.mem = true → Memory.wf t.mem = true
  unwritten : (∀ a v, .poke a v ∉ s.host) → t.mem = s.mem

theorem Follows.refl (s : State) : Follows s s where
  busy := rfl
  fault := rfl
  cstate := rfl
  panelInit := rfl
  bgValid := rfl
  fontValid := rfl
  cause := rfl
  faultInfo := rfl
  faultAddr := rfl
  result := rfl
  panelW := rfl
  panelH := rfl
  bg := rfl
  fontBase := rfl
  cmdL := rfl
  opL := rfl
  poll := rfl
  params := rfl
  request := id
  host := List.suffix_rfl
  memory := id
  unwritten _ := rfl

theorem Follows.trans {s t u : State} (h : Follows s t) (h' : Follows t u) : Follows s u where
  busy := h'.busy.trans h.busy
  fault := h'.fault.trans h.fault
  cstate := h'.cstate.trans h.cstate
  panelInit := h'.panelInit.trans h.panelInit
  bgValid := h'.bgValid.trans h.bgValid
  fontValid := h'.fontValid.trans h.fontValid
  cause := h'.cause.trans h.cause
  faultInfo := h'.faultInfo.trans h.faultInfo
  faultAddr := h'.faultAddr.trans h.faultAddr
  result := h'.result.trans h.result
  panelW := h'.panelW.trans h.panelW
  panelH := h'.panelH.trans h.panelH
  bg := h'.bg.trans h.bg
  fontBase := h'.fontBase.trans h.fontBase
  cmdL := h'.cmdL.trans h.cmdL
  opL := h'.opL.trans h.opL
  poll := h'.poll.trans h.poll
  params := h'.params.trans h.params
  request := h'.request ∘ h.request
  host := h'.host.trans h.host
  memory := h'.memory ∘ h.memory
  unwritten hp := (h'.unwritten fun a v hm => hp a v (h.host.subset hm)).trans (h.unwritten hp)

theorem Still.follows {s t : State} (h : Still s t) : Follows s t := by
  have hh := h.host
  have hm := h.memory
  have hu := h.unwritten
  have he := h.eq
  generalize ht : t = u at *
  rw [he]
  exact { Follows.refl s with host := hh, memory := hm, unwritten := hu }

theorem Still.sel {s t : State} (h : Still s t) : t.sel = s.sel := by rw [h.eq]; rfl

theorem Still.trace {s t : State} (h : Still s t) : t.trace = s.trace := by rw [h.eq]; rfl

theorem Still.fault {s t : State} (h : Still s t) : t.fault = s.fault := by rw [h.eq]; rfl

/-! ### The host's turn -/

/-- The host's turn: it leaves the command running, or resets the block, or comes to a `CMD` write. -/
theorem turnFrom_outcome {onCommand : Word → Act Unit} {P : EStateM.Result Unit State Unit → Prop} {s : State}
    (hok : ∀ t, Still s t → P (.ok () t))
    (hreset : ∀ t, Still s t → .reset ∈ s.host → P (.error () (applyReset t)))
    (hcmd : ∀ w t rest, Still s t → t.host = .write 0 4 w :: rest → P (onCommand w t)) :
    ∀ (l : List HostAction) (t : State), Still s t → l <:+ s.host → P (turnFrom onCommand l t)
  | [], t, ht, hl => hok _ (ht.behind hl)
  | .pause :: rest, t, ht, hl => hok _ (ht.behind ((List.suffix_cons _ _).trans hl))
  | .waitIdle :: rest, t, ht, hl => hok _ (ht.behind hl)
  | .reset :: rest, t, ht, hl =>
    hreset _ (ht.behind ((List.suffix_cons _ _).trans hl)) (hl.subset (List.mem_cons_self ..))
  | .poke a v :: rest, t, ht, hl => by
    rw [turnFrom]
    refine turnFrom_outcome hok hreset hcmd rest _ ?_ ((List.suffix_cons _ _).trans hl)
    have hp : ¬∀ a v, .poke a v ∉ s.host := fun h => h a v (hl.subset (List.mem_cons_self ..))
    exact {
      eq := by rw [ht.eq]; rfl
      host := ht.host
      memory := fun hm => hostPoke_wf (ht.memory hm) a v
      unwritten := fun h => absurd h hp }
  | .read off size :: rest, t, ht, hl => by
    rw [turnFrom]
    split
    · refine turnFrom_outcome hok hreset hcmd rest _ ?_ ((List.suffix_cons _ _).trans hl)
      exact ht.trans { Still.refl t with eq := rfl }
    · exact hok _ (ht.behind hl)
  | .write off size value :: rest, t, ht, hl => by
    have hsuf := (List.suffix_cons _ _).trans hl
    rw [turnFrom]
    split
    · rename_i hacc
      split
      · rename_i hoff
        have hsize : size = 4 := by
          simp only [accessOk, Bool.and_eq_true, beq_iff_eq] at hacc
          exact hacc.1
        subst hoff hsize
        exact hcmd _ _ rest (ht.behind hl) rfl
      · refine turnFrom_outcome hok hreset hcmd rest _ ?_ hsuf
        exact ht.trans { Still.refl t with eq := rfl }
    · exact hok _ (ht.behind hl)

/-- The turn in which a `CMD` write waits: it leaves the command running, or resets the block. -/
theorem heldTurn_outcome (s : State) :
    match heldTurn s with
    | .ok _ t => Still s t
    | .error _ t => ∃ u, Still s u ∧ .reset ∈ s.host ∧ t = applyReset u := by
  refine turnFrom_outcome (s := s) (onCommand := hold) (P := fun r => match r with
    | .ok _ t => Still s t
    | .error _ t => ∃ u, Still s u ∧ .reset ∈ s.host ∧ t = applyReset u)
    (fun t h => h) (fun t h hr => ⟨t, h, hr, rfl⟩) (fun w t rest h _ => h) s.host s (Still.refl s) List.suffix_rfl

/-! ### Changes in turn -/

/-- A change that does not see what the host can change under a command, and leaves it alone. -/
def Unhosted (f : State → State) : Prop := ∀ s v, f (s.hosted v) = (f s).hosted v

theorem Unhosted.host {f : State → State} (hf : Unhosted f) (s : State) : (f s).host = s.host := by
  have h := congrArg State.host (hf s s)
  exact h

theorem Unhosted.mem {f : State → State} (hf : Unhosted f) (s : State) : (f s).mem = s.mem := by
  have h := congrArg State.mem (hf s s)
  exact h

theorem written_hosted : ∀ {fs : List (State → State)}, (∀ f ∈ fs, Unhosted f) → Unhosted (written fs)
  | [], _, _, _ => rfl
  | f :: fs, hf, s, v => by
    change written fs (f (s.hosted v)) = _
    rw [hf f (List.mem_cons_self ..)]
    exact written_hosted (fun g hg => hf g (List.mem_cons_of_mem _ hg)) _ v

/-- What the host did after a change it could as well have done before it. -/
theorem Unhosted.back {f : State → State} (hf : Unhosted f) {s v : State} (hv : Still (f s) v) :
    Still s (s.hosted v) ∧ v = f (s.hosted v) := by
  have hm := hf.mem s
  have hh := hf.host s
  refine ⟨{ eq := rfl, host := hh ▸ hv.host, memory := ?_, unwritten := ?_ }, ?_⟩
  · exact fun h => hv.memory (by rw [hm]; exact h)
  · exact fun h => (hv.unwritten (by rw [hh]; exact h)).trans hm
  · rw [hf, ← hv.eq]

/-- Changes in turn: the host has acted among them and all are made, or a turn after some of them ended the command. -/
theorem inTurn_outcome {turn : Act Unit} {Q : State → State → Prop}
    (hturn : ∀ s, match turn s with
      | .ok _ t => Still s t
      | .error _ t => Q s t) :
    ∀ {fs : List (State → State)}, (∀ f ∈ fs, Unhosted f) → ∀ s : State,
      match inTurn turn fs s with
      | .ok _ t => ∃ u, Still s u ∧ t = written fs u
      | .error _ t => ∃ u gs, Still s u ∧ gs <+: fs ∧ Q (written gs u) t
  | [], _, s => ⟨s, Still.refl s, rfl⟩
  | f :: fs, hf, s => by
    have hw := hf f (List.mem_cons_self ..)
    have h := hturn (f s)
    rw [inTurn, update_bind, act_bind]
    cases hx : turn (f s) with
    | error _ t =>
      rw [hx] at h
      exact ⟨s, [f], Still.refl s, ⟨fs, rfl⟩, h⟩
    | ok _ t =>
      rw [hx] at h
      have hr := inTurn_outcome hturn (fun g hg => hf g (List.mem_cons_of_mem _ hg)) t
      dsimp only
      cases hy : inTurn turn fs t with
      | ok _ w =>
        rw [hy] at hr
        obtain ⟨u, hu, rfl⟩ := hr
        obtain ⟨h1, h2⟩ := hw.back (h.trans hu)
        exact ⟨s.hosted u, h1, congrArg (written fs) h2⟩
      | error _ w =>
        rw [hy] at hr
        obtain ⟨u, gs, hu, hg, hq⟩ := hr
        obtain ⟨h1, h2⟩ := hw.back (h.trans hu)
        refine ⟨s.hosted u, f :: gs, h1, List.cons_prefix_cons.mpr ⟨rfl, hg⟩, ?_⟩
        rw [h2] at hq
        exact hq

/-! ### Fault entry -/

/-- The changes of fault entry are of nothing the host can change (R185). -/
theorem faultSteps_unhosted (c : Cause) (d : Nat) (v : Int) (a : Option Nat) (s : State) :
    ∀ f ∈ faultSteps c d v a s, Unhosted f :=
  faultSteps_all c d v a s (fun _ _ => rfl) (fun _ _ => rfl) (fun _ _ _ => rfl) (fun _ _ _ => rfl) (fun _ _ => rfl)
    fun _ _ => rfl

/-- The host's actions do not change what fault entry has to do. -/
theorem Still.faultSteps {s t : State} (h : Still s t) (c : Cause) (d : Nat) (v : Int) (a : Option Nat) :
    Machine.faultSteps c d v a s = Machine.faultSteps c d v a t := by
  rw [h.eq]
  rfl

/-- To a reset a change is no more than the events `es`. -/
def ResetsAs (f : State → State) (es : List Event) : Prop := ∀ s, applyReset (f s) = applyReset (s.emitted es)

/-- To a reset the first ones of some changes are the events of those. -/
theorem resetsAs_prefix {fs : List (State → State)} {ess : List (List Event)} (h : List.Forall₂ ResetsAs fs ess) :
    ∀ {gs}, gs <+: fs → ∃ ds, ds <+: ess ∧ ResetsAs (written gs) ds.flatten := by
  induction h with
  | nil => intro gs hg; exact ⟨[], List.prefix_rfl, by rw [List.prefix_nil.mp hg]; exact fun s => by simp [written]⟩
  | @cons f es fs ess hf _ ih =>
    intro gs hg
    cases gs with
    | nil => exact ⟨[], List.nil_prefix, fun s => by simp [written]⟩
    | cons g gs =>
      obtain ⟨rfl, hgs⟩ := List.cons_prefix_cons.mp hg
      obtain ⟨ds, hd, hr⟩ := ih hgs
      refine ⟨es :: ds, List.cons_prefix_cons.mpr ⟨rfl, hd⟩, fun s => ?_⟩
      have hcongr : applyReset ((g s).emitted ds.flatten) = applyReset ((s.emitted es).emitted ds.flatten) :=
        congrArg (fun t : State => ({ t with trace := t.trace ++ ds.flatten } : State)) (hf s)
      rw [List.flatten_cons, ← emitted_append, ← hcongr]
      exact hr (g s)

/-- To a reset what fault entry has done is a beginning of the close of an open bracket (R185, R201). -/
theorem faultSteps_prefix {c : Cause} {d : Nat} {v : Int} {a : Option Nat} {s : State} {gs : List (State → State)}
    (h : gs <+: faultSteps c d v a s) :
    ∃ es, es <+: (if s.sel then closeEvents s.params else []) ∧ ResetsAs (written gs) es := by
  have hnil {f : State → State} (hf : ∀ x, applyReset (f x) = applyReset x) : ResetsAs f [] := fun x => by
    rw [emitted_nil]
    exact hf x
  have hall : List.Forall₂ ResetsAs (faultSteps c d v a s) ([[], []] ++ (match a with | some _ => [[]] | none => []) ++
      (if s.sel then [.fin] :: (if s.params.sharedBus then [[.rel]] else []) ++ [[]] else []) ++ [[]]) := by
    have hpush (e : Event) : ResetsAs (pushEvent e) [e] := fun _ => rfl
    have h1 : ResetsAs (setCause c) [] := hnil fun _ => rfl
    have h2 : ResetsAs (setFaultInfo d v) [] := hnil fun _ => rfl
    have h3 (b : Nat) : ResetsAs (setFaultAddr b) [] := hnil fun _ => rfl
    have h4 : ResetsAs (setSel false) [] := hnil fun _ => rfl
    have h5 : ResetsAs setFault [] := hnil fun _ => rfl
    unfold faultSteps
    cases a <;> cases s.sel <;> cases s.params.sharedBus <;> simp [h1, h2, h3, h4, h5, hpush]
  obtain ⟨ds, ⟨rs, hd⟩, hr⟩ := resetsAs_prefix hall h
  refine ⟨ds.flatten, ⟨rs.flatten, ?_⟩, hr⟩
  rw [← List.flatten_append, hd]
  cases a <;> cases s.sel <;> cases hs : s.params.sharedBus <;> simp [closeEvents, hs]

/-! ### Where a command stands -/

/-- Where a command stands in the sequence of a bracket (R102, R103): before it, after `ACQ`, after `BEGIN`, in the
bracket with `Sel` set, after `END`, after all its events with `Sel` still set. -/
inductive Place where
  | idle
  | acquired
  | begun
  | opened
  | ended
  | released
deriving DecidableEq, Repr

def Place.sel : Place → Bool
  | .idle | .acquired | .begun => false
  | .opened | .ended | .released => true

def Place.bracket : Place → Bracket
  | .idle | .released => .closed
  | .acquired => .acquired
  | .begun | .opened => .opened
  | .ended => .ended

/-- The place of a block between two commands. -/
def Place.of (sel : Bool) : Place := if sel then .opened else .idle

@[simp] theorem Place.of_sel (b : Bool) : (Place.of b).sel = b := by cases b <;> rfl

@[simp] theorem Place.of_ne_begun (b : Bool) : Place.of b ≠ .begun := by cases b <;> decide

/-- `t` is reached from `s` inside a command that stood at `p` and stands at `q`: the events in between keep the bracket
discipline. -/
structure Reaches (p q : Place) (s t : State) : Prop where
  follows : Follows s t
  sel : t.sel = q.sel
  events : ∃ es, t.trace = s.trace ++ es ∧ brackets s.params.sharedBus p.bracket es = some q.bracket

theorem Reaches.refl {p : Place} {s : State} (h : s.sel = p.sel) : Reaches p p s s where
  follows := Follows.refl s
  sel := h
  events := ⟨[], by simp, rfl⟩

theorem Reaches.trans {p q r : Place} {s t u : State} (h : Reaches p q s t) (h' : Reaches q r t u) : Reaches p r s u where
  follows := h.follows.trans h'.follows
  sel := h'.sel
  events := by
    obtain ⟨es, he, hb⟩ := h.events
    obtain ⟨fs, hf, hb'⟩ := h'.events
    rw [h.follows.params] at hb'
    exact ⟨es ++ fs, by rw [hf, he, List.append_assoc], brackets_append hb hb'⟩

theorem Still.reaches {p : Place} {s t : State} (h : Still s t) (hs : s.sel = p.sel) : Reaches p p s t where
  follows := h.follows
  sel := h.sel.trans hs
  events := ⟨[], by simp [h.trace], rfl⟩

/-- How a command that stood at `p` and does not complete has ended: in a fault at some place `q`, its open bracket closed,
or by a reset among the host's actions. -/
inductive Ended (p : Place) (s : State) : State → Prop
  | fault {u : State} {es : List Event} (q : Place) (c : Cause) (d : Nat) (v : Int) (a : Option Nat) :
      q ≠ .begun → Follows s u → brackets s.params.sharedBus p.bracket es = some q.bracket →
      u.trace = s.trace ++ (es ++ if q.sel then closeEvents s.params else []) →
      c ≠ .none → (a = none ∨ c = .memError) → Ended p s (faultRegisters c d v a u)
  | reset {u : State} {es : List Event} :
      .reset ∈ s.host → Follows s u → u.trace = s.trace ++ es → Ended p s (applyReset u)

theorem Ended.after {p q : Place} {s t u : State} (h : Reaches p q s t) (h' : Ended q t u) : Ended p s u := by
  obtain ⟨es, he, hb⟩ := h.events
  cases h' with
  | fault r c d v a hr hf hbr htr hc ha =>
    rw [h.follows.params] at hbr htr
    exact .fault r c d v a hr (h.follows.trans hf) (brackets_append hb hbr)
      (by rw [htr, he]; simp only [List.append_assoc]) hc ha
  | reset hm hf htr =>
    exact .reset (h.follows.host.subset hm) (h.follows.trans hf) (by rw [htr, he, List.append_assoc])

/-- Fault entry ends the command. -/
theorem enterFault_error {α : Type} (c : Cause) (d : Nat) (v : Int) (a : Option Nat) (s : State) :
    ∃ t, (enterFault c d v a : Act α) s = .error () t := by
  rw [enterFault_eq]
  cases inTurn heldTurn (faultSteps c d v a s) s <;> exact ⟨_, rfl⟩

/-- Fault entry at a place other than between `BEGIN` and `Sel <- true`. -/
theorem enterFault_outcome {α : Type} {p : Place} (hp : p ≠ .begun) {s : State} (hs : s.sel = p.sel) {c : Cause}
    (hc : c ≠ .none) (d : Nat) (v : Int) {a : Option Nat} (ha : a = none ∨ c = .memError) :
    ∃ t, (enterFault c d v a : Act α) s = .error () t ∧ Ended p s t := by
  have h := inTurn_outcome heldTurn_outcome (faultSteps_unhosted c d v a s) s
  rw [enterFault_eq]
  cases hx : inTurn heldTurn (faultSteps c d v a s) s with
  | ok _ t =>
    rw [hx] at h
    obtain ⟨u, hu, rfl⟩ := h
    refine ⟨_, rfl, ?_⟩
    rw [hu.faultSteps, faultSteps_written]
    refine .fault p c d v a (es := []) hp (hu.follows.trans { Follows.refl u with }) rfl ?_ hc ha
    rw [State.emitted_trace, hu.trace, hu.sel, hs, hu.follows.params]
    rfl
  | error _ t =>
    rw [hx] at h
    obtain ⟨u, gs, hu, hg, v, hv, hm, rfl⟩ := h
    have hun : ∀ f ∈ gs, Unhosted f := fun f hf => faultSteps_unhosted _ _ _ _ _ f (hg.subset hf)
    obtain ⟨es, _, hr⟩ := faultSteps_prefix hg
    have hback := (written_hosted hun).back hv
    refine ⟨_, rfl, ?_⟩
    rw [hback.2, hr]
    refine .reset (es := es) (hu.host.subset ((written_hosted hun).host u ▸ hm))
      ((hu.trans hback.1).follows.trans { Follows.refl _ with }) ?_
    exact congrArg (· ++ es) hu.trace

/-- A `CMD` write under a running command ends it. -/
theorem overrun_error (w : Word) (s : State) : ∃ t, overrun w s = .error () t := by
  rw [overrun, update_bind, act_bind]
  cases heldTurn { s with host := s.host.tail } with
  | ok _ t => exact enterFault_error _ _ _ _ t
  | error _ t => exact ⟨t, rfl⟩

/-- `raise` ends the command. -/
theorem raise_error {α : Type} (c : Cause) (d : Nat) (v : Int) (s : State) : ∃ t, (raise c d v : Act α) s = .error () t := by
  rw [raise, act_bind]
  cases hostTurn s with
  | ok _ t => exact enterFault_error _ _ _ _ t
  | error _ t => exact ⟨t, rfl⟩

/-! ### Pieces of a command -/

variable {α β : Type} {sh : Bool} {p q r : Place}

/-- A piece that starts at the place `p` either goes on at `q`, or the command has ended. -/
def Act.Keeps (sh : Bool) (p q : Place) (x : Act α) : Prop :=
  ∀ s, s.params.sharedBus = sh → s.sel = p.sel → match x s with
    | .ok _ t => Reaches p q s t
    | .error _ t => Ended p s t

theorem Act.Keeps.ok {x : Act α} (h : Act.Keeps sh p q x) {s t : State} {a : α} (hsh : s.params.sharedBus = sh)
    (hs : s.sel = p.sel) (hx : x s = .ok a t) : Reaches p q s t := by
  have := h s hsh hs
  rwa [hx] at this

theorem Act.Keeps.error {x : Act α} (h : Act.Keeps sh p q x) {s t : State} {e : Unit} (hsh : s.params.sharedBus = sh)
    (hs : s.sel = p.sel) (hx : x s = .error e t) : Ended p s t := by
  have := h s hsh hs
  rwa [hx] at this

theorem Act.Keeps.bind {x : Act α} {f : α → Act β} (hx : Act.Keeps sh p q x) (hf : ∀ a, Act.Keeps sh q r (f a)) :
    Act.Keeps sh p r (x >>= f) := by
  intro s hsh hs
  rw [act_bind]
  cases h : x s with
  | error e t => exact hx.error hsh hs h
  | ok a t =>
    have ht := hx.ok hsh hs h
    have hsh' : t.params.sharedBus = sh := (congrArg Params.sharedBus ht.follows.params).trans hsh
    dsimp only
    cases h' : f a t with
    | error e u => exact ((hf a).error hsh' ht.sel h').after ht
    | ok c u => exact ht.trans ((hf a).ok hsh' ht.sel h')

theorem Act.Keeps.pure (a : α) : Act.Keeps sh p p (pure a) := fun _ _ hs => Reaches.refl hs

/-- Looking at the state changes nothing; the value seen is that of a state at the same place. -/
theorem Act.Keeps.peek_bind {g : State → α} {f : α → Act β}
    (hf : ∀ s, s.params.sharedBus = sh → s.sel = p.sel → Act.Keeps sh p q (f (g s))) :
    Act.Keeps sh p q (peek g >>= f) := fun s hsh hs => hf s hsh hs s hsh hs

/-- The same where the value seen does not matter. -/
theorem Act.Keeps.peek {g : State → α} {f : α → Act β} (hf : ∀ a, Act.Keeps sh p q (f a)) :
    Act.Keeps sh p q (Sys2Proof.Machine.peek g >>= f) := .peek_bind fun _ _ _ => hf _

theorem Act.Keeps.ite {c : Prop} [Decidable c] {x y : Act α} (hx : c → Act.Keeps sh p q x) (hy : ¬c → Act.Keeps sh p q y) :
    Act.Keeps sh p q (if c then x else y) := by
  split
  · exact hx ‹_›
  · exact hy ‹_›

theorem Act.Keeps.whenShared {x : Act Unit} (hx : sh = true → Act.Keeps sh p q x) (hp : sh = false → p = q) :
    Act.Keeps sh p q (whenShared x) := by
  intro s hsh hs
  rw [whenShared_eq, hsh]
  cases sh with
  | false => obtain rfl := hp rfl; exact Reaches.refl hs
  | true => exact hx rfl s hsh hs

theorem Act.Keeps.enterFault (hp : p ≠ .begun) {c : Cause} (hc : c ≠ .none) (d : Nat) (v : Int) {a : Option Nat}
    (ha : a = none ∨ c = .memError) : Act.Keeps sh p q (enterFault c d v a : Act α) := by
  intro s _ hs
  obtain ⟨t, ht, he⟩ := enterFault_outcome (α := α) hp hs hc d v ha
  rw [ht]
  exact he

theorem Act.Keeps.heldTurn : Act.Keeps sh p p heldTurn := by
  intro s _ hs
  have h := heldTurn_outcome s
  cases hx : Sys2Proof.Machine.heldTurn s with
  | ok _ t => rw [hx] at h; exact h.reaches hs
  | error _ t =>
    rw [hx] at h
    obtain ⟨u, hu, hm, rfl⟩ := h
    exact .reset (es := []) hm hu.follows (by simp [hu.trace])

/-- A `CMD` write under a running command: how it ends the command. -/
theorem overrun_outcome (hp : p ≠ .begun) (w : Word) {s t : State} (hs : s.sel = p.sel) (h : overrun w s = .error () t) :
    Ended p s t := by
  have hr : Reaches p p s { s with host := s.host.tail } := ((Still.refl s).behind (List.tail_suffix _)).reaches hs
  have hk : Act.Keeps s.params.sharedBus p p (Sys2Proof.Machine.heldTurn >>= fun _ =>
      (Sys2Proof.Machine.enterFault .cmdOverrun 0 (w.extractLsb' 0 16).toNat none : Act Unit)) :=
    Act.Keeps.heldTurn.bind fun _ => Act.Keeps.enterFault hp (by simp) _ _ (Or.inl rfl)
  rw [overrun, update_bind] at h
  exact Ended.after hr (hk.error (s := { s with host := s.host.tail }) rfl hr.sel h)

/-- A turn whose `CMD` write finds the state as `f` makes it: it leaves the command running, or resets the block, or ends
the command from there. -/
theorem hostTurnFrom_outcome (f : State → State) (s : State) :
    match hostTurnFrom f s with
    | .ok _ t => Still s t
    | .error _ t => (∃ u, Still s u ∧ .reset ∈ s.host ∧ t = applyReset u) ∨
        ∃ u, Still s u ∧ ∀ p : Place, p ≠ .begun → (f u).sel = p.sel → Ended p (f u) t := by
  refine turnFrom_outcome (s := s) (onCommand := fun w => update f >>= fun _ => overrun w) (P := fun r => match r with
    | .ok _ t => Still s t
    | .error _ t => (∃ u, Still s u ∧ .reset ∈ s.host ∧ t = applyReset u) ∨
        ∃ u, Still s u ∧ ∀ p : Place, p ≠ .begun → (f u).sel = p.sel → Ended p (f u) t)
    (fun t h => h) (fun t h hr => Or.inl ⟨t, h, hr, rfl⟩) (fun w t rest h _ => ?_) s.host s (Still.refl s) List.suffix_rfl
  obtain ⟨y, hy⟩ := overrun_error w (f t)
  rw [update_bind, hy]
  exact Or.inr ⟨t, h, fun p hp hs => overrun_outcome hp w hs hy⟩

/-- The host's turn before a step of a command, at any place but between `BEGIN` and `Sel <- true`. -/
theorem hostTurn_outcome (hp : p ≠ .begun) {s : State} (hs : s.sel = p.sel) :
    match hostTurn s with
    | .ok _ t => Still s t
    | .error _ t => Ended p s t := by
  have h := hostTurnFrom_outcome id s
  have he : hostTurnFrom id s = hostTurn s := rfl
  rw [he] at h
  cases hx : hostTurn s with
  | ok _ t => rw [hx] at h; exact h
  | error _ t =>
    rw [hx] at h
    rcases h with ⟨u, hu, hm, rfl⟩ | ⟨u, hu, h⟩
    · exact .reset (es := []) hm hu.follows (by simp [hu.trace])
    · exact (h p hp (hu.sel.trans hs)).after (hu.reaches hs)

theorem Act.Keeps.hostTurn (hp : p ≠ .begun) : Act.Keeps sh p p hostTurn := by
  intro s _ hs
  have h := hostTurn_outcome hp hs
  cases hx : Sys2Proof.Machine.hostTurn s with
  | ok u t => rw [hx] at h; exact h.reaches hs
  | error u t => rw [hx] at h; exact h

theorem Act.Keeps.raise (hp : p ≠ .begun) {c : Cause} (hc : c ≠ .none) (d : Nat) (v : Int) :
    Act.Keeps sh p q (raise c d v : Act α) :=
  (Act.Keeps.hostTurn hp).bind fun _ => .enterFault hp hc d v (Or.inl rfl)

/-- An event that the discipline allows at `p` and that leads to `q`, with `Sel` as it is. -/
theorem Act.Keeps.emit (hp : p ≠ .begun) {e : Event} (h : bracketStep sh (some p.bracket) e = some q.bracket)
    (hs : q.sel = p.sel) : Act.Keeps sh p q (emit e) := by
  refine (Act.Keeps.hostTurn hp).bind fun _ s hsh hsel => ?_
  exact { follows := { Follows.refl s with }, sel := hsel.trans hs.symm, events := ⟨[e], rfl, by rw [hsh]; exact h⟩ }

/-- An event that belongs to no bracket. -/
theorem Act.Keeps.emit_neutral {e : Event} (h : ∀ b, bracketStep sh (some b) e = some b) (hp : p ≠ .begun) :
    Act.Keeps sh p p (Sys2Proof.Machine.emit e) := .emit hp (h _) rfl

theorem Act.Keeps.setSel {b : Bool} (hq : q.sel = b) (hb : p.bracket = q.bracket) : Act.Keeps sh p q (update (setSel b)) :=
  fun s _ _ => { follows := { Follows.refl s with }, sel := hq.symm, events := ⟨[], by simp, by rw [← hb]; rfl⟩ }

/-- The turn between `BEGIN` and `Sel <- true`, whose overrun closes the bracket (R122). -/
theorem Act.Keeps.begunTurn : Act.Keeps sh .begun .begun (hostTurnFrom (Machine.setSel true)) := by
  intro s _ hs
  have h := hostTurnFrom_outcome (Machine.setSel true) s
  cases hx : hostTurnFrom (Machine.setSel true) s with
  | ok _ t => rw [hx] at h; exact h.reaches hs
  | error _ t =>
    rw [hx] at h
    rcases h with ⟨u, hu, hm, rfl⟩ | ⟨u, hu, h⟩
    · exact .reset (es := []) hm hu.follows (by simp [hu.trace])
    · refine ((h .opened (by simp) rfl).after ?_).after (hu.reaches hs)
      exact { follows := { Follows.refl u with }, sel := rfl, events := ⟨[], by simp, rfl⟩ }

theorem Act.Keeps.select : Act.Keeps sh .idle .opened select := by
  refine Act.Keeps.bind (q := if sh then .acquired else .idle) (.whenShared ?_ ?_) fun _ =>
    Act.Keeps.bind (q := .begun) (.emit ?_ ?_ ?_) fun _ => Act.Keeps.begunTurn.bind fun _ => .setSel rfl rfl
  · rintro rfl; exact .emit (by simp) rfl rfl
  · rintro rfl; rfl
  · cases sh <;> simp
  · cases sh <;> rfl
  · cases sh <;> rfl

theorem Act.Keeps.unselect : Act.Keeps sh .opened .idle unselect := by
  refine Act.Keeps.bind (q := if sh then .ended else .released) (.emit ?_ ?_ ?_) fun _ =>
    Act.Keeps.bind (q := .released) (.whenShared ?_ ?_) fun _ =>
    (Act.Keeps.hostTurn (by simp)).bind fun _ => .setSel rfl rfl
  · simp
  · cases sh <;> rfl
  · cases sh <;> rfl
  · rintro rfl; exact .emit (by simp) rfl rfl
  · rintro rfl; rfl

theorem Act.Keeps.sendCmd (k : Byte) : Act.Keeps sh .opened .opened (sendCmd k) := .emit (by simp) rfl rfl

theorem Act.Keeps.sendData (d : Byte) : Act.Keeps sh .opened .opened (sendData d) := .emit (by simp) rfl rfl

theorem Act.Keeps.sendDataList : ∀ ds : List Byte, Act.Keeps sh .opened .opened (sendDataList ds)
  | [] => Act.Keeps.pure ()
  | d :: ds => (Act.Keeps.sendData d).bind fun _ => Act.Keeps.sendDataList ds

theorem Act.Keeps.sendFrames : ∀ fs : List Frame, Act.Keeps sh .opened .opened (sendFrames fs)
  | [] => Act.Keeps.pure ()
  | f :: fs =>
    ((Act.Keeps.sendCmd f.cmd).bind fun _ => Act.Keeps.sendDataList f.data).bind fun _ => Act.Keeps.sendFrames fs

theorem Act.Keeps.performRead (a n : Nat) : Act.Keeps sh p p (performRead a n) := by
  intro s _ hs
  unfold Sys2Proof.Machine.performRead
  dsimp only
  by_cases hv : (s.racy.any fun b => decide (a ≤ b) && decide (b < a + n)) = true
  · rw [if_pos hv]
    exact { follows := { Follows.refl s with }, sel := hs, events := ⟨[], by simp, rfl⟩ }
  · rw [if_neg hv]
    exact { follows := { Follows.refl s with }, sel := hs, events := ⟨[], by simp, rfl⟩ }

theorem Act.Keeps.memRead (hp : p ≠ .begun) (a n : Nat) : Act.Keeps sh p p (memRead a n) :=
  .peek fun _ => (Act.Keeps.hostTurn hp).bind fun _ =>
    .ite (fun _ => .performRead a n) fun _ => .enterFault hp (by simp) 0 n (Or.inr rfl)

/-- A command that ends while it waits for a sample has withdrawn its request. -/
theorem Ended.unrequest {req : SampleReq} {s t : State} (h : Ended p (requestSample req s) t) : Ended p s t := by
  cases h with
  | @fault u _ q c d v a hq hf hb ht hc ha =>
    exact .fault (u := { u with sampleReq := s.sampleReq }) q c d v a hq { hf with request := id } hb ht hc ha
  | @reset u _ hm hf ht => exact .reset (u := { u with sampleReq := s.sampleReq }) hm { hf with request := id } ht

/-- The host's answer, the request withdrawn. -/
theorem answerSample_outcome (s : State) :
    ∃ c rest n, answerSample s = .ok c { s with sampleReq := none, samples := rest, draws := n } := by
  cases hl : s.samples with
  | nil => exact ⟨Config.freeSample s.draws, [], s.draws + 1, by simp [answerSample, hl]⟩
  | cons c rest => exact ⟨c, rest, s.draws, by simp [answerSample, hl]⟩

theorem Act.Keeps.sample (hp : p ≠ .begun) (req : SampleReq) : Act.Keeps sh p p (sample req) := by
  refine (Act.Keeps.hostTurn hp).bind fun _ s hsh hs => ?_
  rw [update_bind]
  have ht := hostTurn_outcome (s := requestSample req s) hp hs
  cases hx : Sys2Proof.Machine.hostTurn (requestSample req s) with
  | error e t =>
    rw [hx] at ht
    rw [act_bind_error _ hx]
    exact ht.unrequest
  | ok e t =>
    rw [hx] at ht
    obtain ⟨c, rest, n, ha⟩ := answerSample_outcome t
    rw [act_bind_ok _ hx, ha]
    exact { follows := { ht.follows with request := fun _ => rfl }, sel := ht.sel.trans hs,
            events := ⟨[], by simp [ht.trace], rfl⟩ }

theorem Act.Keeps.checkWindow (hp : p ≠ .begun) (xs xe ys ye : Int) : Act.Keeps sh p p (checkWindow xs xe ys ye) := by
  refine Act.Keeps.peek fun _ => ?_
  refine Act.Keeps.ite (fun _ => .raise hp (by simp) _ _) fun _ => ?_
  refine Act.Keeps.ite (fun _ => .raise hp (by simp) _ _) fun _ => ?_
  refine Act.Keeps.ite (fun _ => .raise hp (by simp) _ _) fun _ => ?_
  exact Act.Keeps.ite (fun _ => .raise hp (by simp) _ _) fun _ => .pure ()

theorem Act.Keeps.setAddressInternal (xs xe ys ye : Int) :
    Act.Keeps sh .opened .opened (setAddressInternal xs xe ys ye) :=
  (Act.Keeps.checkWindow (by simp) xs xe ys ye).bind fun _ => .peek fun _ => .sendFrames _

/-! ### The bodies of the controller commands -/

theorem Act.Keeps.startBody : Act.Keeps sh .idle .idle startBody :=
  .peek fun _ => (Act.Keeps.emit (q := .idle) (by simp) rfl rfl).bind fun _ => Act.Keeps.select.bind fun _ =>
    (Act.Keeps.emit (q := .opened) (by simp) rfl rfl).bind fun _ =>
    (Act.Keeps.emit (q := .opened) (by simp) rfl rfl).bind fun _ =>
    (Act.Keeps.emit (q := .opened) (by simp) rfl rfl).bind fun _ =>
    (Act.Keeps.emit (q := .opened) (by simp) rfl rfl).bind fun _ => (Act.Keeps.sendFrames _).bind fun _ =>
    (Act.Keeps.sendFrames _).bind fun _ => (Act.Keeps.sendFrames _).bind fun _ => (Act.Keeps.sendFrames _).bind fun _ =>
    (Act.Keeps.sendFrames _).bind fun _ => Act.Keeps.unselect

theorem Act.Keeps.stopBody : Act.Keeps sh .idle .idle stopBody :=
  .peek fun _ => Act.Keeps.select.bind fun _ => (Act.Keeps.sendFrames _).bind fun _ =>
    (Act.Keeps.sendFrames _).bind fun _ => Act.Keeps.unselect.bind fun _ => .emit (by simp) rfl rfl

theorem Act.Keeps.selectBody (b : Bool) : Act.Keeps sh (.of b) .opened selectBody := by
  refine .peek_bind fun s _ hs => ?_
  rw [hs]
  cases b with
  | true => exact .raise (by simp) (by simp) 0 0
  | false => exact Act.Keeps.select

theorem Act.Keeps.unselectBody (b : Bool) : Act.Keeps sh (.of b) .idle unselectBody := by
  refine .peek_bind fun s _ hs => ?_
  rw [hs]
  cases b with
  | true => exact Act.Keeps.unselect
  | false => exact .raise (by simp) (by simp) 1 0

/-- A command of the host's own protocol traffic goes on only in an open bracket. -/
theorem Act.Keeps.needBracket_bind (b : Bool) {x : Act Unit} (hx : Act.Keeps sh .opened .opened x) :
    Act.Keeps sh (.of b) (.of b) (needBracket >>= fun _ => x) := by
  intro s hsh hs
  have hn : needBracket s = if s.sel then .ok () s else Sys2Proof.Machine.raise .bracket 2 0 s := by
    rw [needBracket, Sys2Proof.Machine.peek_bind]
    split <;> rfl
  rw [act_bind, hn, hs]
  cases b with
  | true => exact hx s hsh hs
  | false =>
    obtain ⟨t, ht⟩ := raise_error (α := Unit) .bracket 2 0 s
    have hk : Act.Keeps sh .idle .idle (Sys2Proof.Machine.raise .bracket 2 0 : Act Unit) := .raise (by simp) (by simp) 2 0
    have he := hk.error hsh hs ht
    simp only [Place.of_sel, Bool.false_eq_true, if_false, ht]
    exact he

end Sys2Proof.Machine
end

