-- ==== Sys2Proof/Laws/Exec.lean ====
section
/-! SUPPORT. How each command keeps the discipline, and how every command ends (`exec_outcome`). -/

namespace Sys2Proof.Machine

variable {sh : Bool} {p q : Place}

/-! ### The remaining bodies -/

theorem Act.Keeps.sendCmdBody (b : Bool) : Act.Keeps sh (.of b) (.of b) sendCmdBody :=
  .peek fun _ => Act.Keeps.needBracket_bind b (Act.Keeps.sendCmd _)

theorem Act.Keeps.sendDataBody (b : Bool) : Act.Keeps sh (.of b) (.of b) sendDataBody :=
  .peek fun _ => Act.Keeps.needBracket_bind b (Act.Keeps.sendData _)

theorem Act.Keeps.setAddressBody (b : Bool) : Act.Keeps sh (.of b) (.of b) setAddressBody :=
  .peek fun _ => .peek fun _ => .peek fun _ => .peek fun _ =>
    Act.Keeps.needBracket_bind b (Act.Keeps.setAddressInternal _ _ _ _)

theorem Act.Keeps.updateBody : Act.Keeps sh .idle .idle updateBody :=
  .peek fun _ => Act.Keeps.select.bind fun _ => (Act.Keeps.sendFrames _).bind fun _ => Act.Keeps.unselect

theorem Act.Keeps.readBusyLevel : Act.Keeps sh p p readBusyLevel := by
  intro s _ hs
  rw [readBusyLevel_eq]
  exact { follows := { Follows.refl s with }, sel := hs, events := ⟨[.busy (s.levelAt 0)], rfl, by cases p <;> rfl⟩ }

theorem Act.Keeps.pollOnce : Act.Keeps sh .idle .idle pollOnce := by
  refine .peek fun _ => ?_
  refine Act.Keeps.bind (q := .idle) ?_ fun busy => ?_
  · exact (Act.Keeps.hostTurn (by simp)).bind fun _ => Act.Keeps.readBusyLevel.bind fun _ => .peek fun _ => .pure _
  · exact Act.Keeps.ite (fun _ => (Act.Keeps.emit (q := .idle) (by simp) rfl rfl).bind fun _ => .pure _) fun _ => .pure _

theorem Act.Keeps.sendRepeated (d : Byte) : ∀ n, Act.Keeps sh .opened .opened (sendRepeated d n)
  | 0 => .pure ()
  | n + 1 => (Act.Keeps.sendData d).bind fun _ => Act.Keeps.sendRepeated d n

theorem Act.Keeps.fillDisplayBody (c : Color) : Act.Keeps sh .idle .idle (fillDisplayBody c) := by
  refine .peek fun _ => .peek fun _ => ?_
  refine Act.Keeps.ite (fun _ => .raise (by simp) (by simp) _ _) fun _ => ?_
  exact Act.Keeps.select.bind fun _ => (Act.Keeps.setAddressInternal _ _ _ _).bind fun _ =>
    (Act.Keeps.sendRepeated _ _).bind fun _ => Act.Keeps.unselect

theorem Act.Keeps.srcSample (hp : p ≠ .begun) (src : PixelSource) (width height w h : Nat) :
    Act.Keeps sh p p (srcSample src width height w h) := by
  cases src with
  | solid => exact .pure _
  | mem base => exact (Act.Keeps.memRead hp _ _).bind fun _ => .pure _
  | host => exact Act.Keeps.sample hp _

theorem Act.Keeps.pick (hp : p ≠ .begun) (fg : Byte) (src : PixelSource) (width height w h : Nat) :
    Act.Keeps sh p p (pick fg src width height w h) := by
  refine (Act.Keeps.srcSample hp _ _ _ _ _).bind fun _ => .peek fun _ => .peek fun _ => ?_
  exact Act.Keeps.ite (fun _ => .pure _) fun _ => Act.Keeps.ite (fun _ => .pure _) fun _ => .raise hp (by simp) _ _

theorem Act.Keeps.packRows (fg : Byte) (src : PixelSource) (y width height w : Nat) :
    ∀ (left : Nat) (acc : Byte), Act.Keeps sh .opened .opened (packRows fg src y width height w left acc)
  | 0, _ => .pure ()
  | left + 1, _ => by
    refine (Act.Keeps.pick (by simp) _ _ _ _ _ _).bind fun _ => ?_
    exact Act.Keeps.ite (fun _ => (Act.Keeps.sendData _).bind fun _ => Act.Keeps.packRows fg src y width height w left _)
      fun _ => Act.Keeps.packRows fg src y width height w left _

theorem Act.Keeps.packColumns (fg : Byte) (src : PixelSource) (y width height : Nat) :
    ∀ left : Nat, Act.Keeps sh .opened .opened (packColumns fg src y width height left)
  | 0 => .pure ()
  | left + 1 => (Act.Keeps.packRows _ _ _ _ _ _ _ _).bind fun _ => Act.Keeps.packColumns fg src y width height left

theorem Act.Keeps.drawBitmapCore (c : Color) (x y width height : Nat) (src : PixelSource) :
    Act.Keeps sh .idle .idle (drawBitmapCore c x y width height src) :=
  .peek fun _ => Act.Keeps.select.bind fun _ => (Act.Keeps.setAddressInternal _ _ _ _).bind fun _ =>
    (Act.Keeps.packColumns _ _ _ _ _ _).bind fun _ => Act.Keeps.unselect

theorem Act.Keeps.drawOperands (c : Color) (src : PixelSource) : Act.Keeps sh .idle .idle (drawOperands c src) :=
  .peek fun _ => .peek fun _ => .peek fun _ => .peek fun _ => Act.Keeps.drawBitmapCore _ _ _ _ _ _

theorem Act.Keeps.readHeader (hp : p ≠ .begun) (f : Nat) : Act.Keeps sh p p (readHeader f) :=
  (Act.Keeps.memRead hp _ _).bind fun _ => (Act.Keeps.memRead hp _ _).bind fun _ => (Act.Keeps.memRead hp _ _).bind fun _ =>
    .pure _

theorem Act.Keeps.textWidthFrom (hp : p ≠ .begun) (f first last t : Nat) :
    ∀ left i tw : Nat, Act.Keeps sh p p (textWidthFrom f first last t left i tw)
  | 0, _, _ => .pure _
  | left + 1, i, tw => by
    refine (Act.Keeps.memRead hp _ _).bind fun c => ?_
    exact Act.Keeps.ite
      (fun _ => (Act.Keeps.memRead hp _ _).bind fun _ => Act.Keeps.textWidthFrom hp f first last t left _ _)
      fun _ => Act.Keeps.textWidthFrom hp f first last t left _ _

theorem Act.Keeps.panelInitBody (hp : p ≠ .begun) : Act.Keeps sh p p panelInitBody :=
  .peek fun _ => .peek fun _ => .peek fun _ => .peek fun _ =>
    Act.Keeps.ite (fun _ => .raise hp (by simp) _ _) fun _ => Act.Keeps.ite (fun _ => .raise hp (by simp) _ _) fun _ =>
      Act.Keeps.ite (fun _ => .raise hp (by simp) _ _) fun _ => .pure ()

theorem Act.Keeps.setFontBody (hp : p ≠ .begun) : Act.Keeps sh p p setFontBody := by
  refine .peek fun _ => (Act.Keeps.readHeader hp _).bind fun _ => .peek fun _ => ?_
  exact Act.Keeps.ite (fun _ => .raise hp (by simp) _ _) fun _ =>
    Act.Keeps.ite (fun _ => .raise hp (by simp) _ _) fun _ => .pure ()

theorem Act.Keeps.getTextWidthBody (hp : p ≠ .begun) : Act.Keeps sh p p getTextWidthBody :=
  .peek fun _ => .peek fun _ => .peek fun _ => (Act.Keeps.memRead hp _ _).bind fun _ =>
    (Act.Keeps.memRead hp _ _).bind fun _ => Act.Keeps.textWidthFrom hp _ _ _ _ _ _ _

theorem Act.Keeps.startColumn (hp : p ≠ .begun) (align : Align) (x f first last t n : Nat) :
    Act.Keeps sh p p (startColumn align x f first last t n) := by
  cases align with
  | left => exact .pure _
  | reserved => exact .pure _
  | center => exact (Act.Keeps.textWidthFrom hp _ _ _ _ _ _ _).bind fun _ => .pure _
  | right => exact (Act.Keeps.textWidthFrom hp _ _ _ _ _ _ _).bind fun _ => .pure _

theorem Act.Keeps.drawGlyphs (c : Color) (y f t panelW : Nat) (hdr : FontHeader) :
    ∀ left i cx : Nat, Act.Keeps sh .idle .idle (drawGlyphs c y f t panelW hdr left i cx)
  | 0, _, _ => .pure ()
  | left + 1, i, cx => by
    refine (Act.Keeps.memRead (by simp) _ _).bind fun _ => ?_
    refine Act.Keeps.ite (fun _ => (Act.Keeps.memRead (by simp) _ _).bind fun _ => ?_) fun _ =>
      Act.Keeps.drawGlyphs c y f t panelW hdr left _ _
    exact Act.Keeps.ite (fun _ => .pure ()) fun _ =>
      (Act.Keeps.drawBitmapCore _ _ _ _ _ _).bind fun _ => Act.Keeps.drawGlyphs c y f t panelW hdr left _ _

theorem Act.Keeps.drawTextBody (c : Color) (align : Align) : Act.Keeps sh .idle .idle (drawTextBody c align) := by
  refine .peek fun _ => Act.Keeps.ite (fun _ => ?_) fun _ => .raise (by simp) (by simp) _ _
  refine .peek fun _ => .peek fun _ => .peek fun _ => .peek fun _ => .peek fun _ =>
    .peek fun _ => .peek fun _ => (Act.Keeps.readHeader (by simp) _).bind fun _ => ?_
  exact Act.Keeps.ite (fun _ => .pure ()) fun _ =>
    (Act.Keeps.startColumn (by simp) _ _ _ _ _ _ _).bind fun _ => Act.Keeps.drawGlyphs _ _ _ _ _ _ _ _ _

/-! ### The register writes -/

/-- A write of registers that a command has and the host cannot change. -/
structure RegisterWrite (f : State → State) : Prop where
  unhosted : Unhosted f
  undone : ∀ s r, (f s).withRegisters r = s.withRegisters r

@[simp] theorem withRegisters_self (s : State) : s.withRegisters s = s := rfl

theorem RegisterWrite.reset {f : State → State} (hf : RegisterWrite f) (s : State) : applyReset (f s) = applyReset s := by
  have h := congrArg applyReset (hf.undone s s)
  exact h

theorem RegisterWrite.fault {f : State → State} (hf : RegisterWrite f) (s : State) : (f s).fault = s.fault := by
  have h := congrArg State.fault (hf.undone s s)
  exact h

theorem written_undone {fs : List (State → State)} (hf : ∀ f ∈ fs, RegisterWrite f) (s r : State) :
    (written fs s).withRegisters r = s.withRegisters r := by
  induction fs generalizing s with
  | nil => rfl
  | cons f fs ih =>
    exact (ih (fun g hg => hf g (List.mem_cons_of_mem _ hg)) (f s)).trans ((hf f (List.mem_cons_self ..)).undone s r)

/-- The register writes of a command: the host may act between two of them; a reset among its actions, or a `CMD` write, ends the
command, with the registers as they were before the first (R185). -/
theorem commit_outcome {fs : List (State → State)} (hf : ∀ f ∈ fs, RegisterWrite f) (hp : p ≠ .begun) {s : State}
    (hs : s.sel = p.sel) :
    match commit fs s with
    | .ok _ t => ∃ u, Still s u ∧ t = written fs u
    | .error _ t => Ended p s t := by
  have hun : ∀ f ∈ fs, Unhosted f := fun f h => (hf f h).unhosted
  have hsub := List.dropLast_subset fs
  have h := inTurn_outcome (hostTurnFrom_outcome fun t => t.withRegisters s) (fun f h => hun f (hsub h)) s
  rw [commit_eq]
  cases hx : inTurn (hostTurnFrom fun t => t.withRegisters s) fs.dropLast s with
  | ok _ t =>
    rw [hx] at h
    obtain ⟨u, hu, rfl⟩ := h
    exact ⟨u, hu, lastOf_written fs u⟩
  | error _ t =>
    rw [hx] at h
    obtain ⟨u, gs, hu, hg, h⟩ := h
    have hgs : ∀ f ∈ gs, RegisterWrite f := fun f h => hf f (hsub (hg.subset h))
    have hgu := written_hosted fun f h => (hgs f h).unhosted
    /- what the host did among the writes, with the writes undone -/
    have hback {v : State} (hv : Still (written gs u) v) : Still s (s.hosted v) ∧ v.withRegisters s = s.hosted v := by
      obtain ⟨h1, h2⟩ := hgu.back hv
      have hsv : s.hosted v = u.hosted v := by
        conv_rhs => rw [hu.eq]
        rfl
      refine ⟨hsv ▸ hu.trans h1, ?_⟩
      conv_lhs => rw [h2]
      rw [written_undone hgs, hu.eq]
      rfl
    rcases h with ⟨v, hv, hm, rfl⟩ | ⟨v, hv, h⟩
    · obtain ⟨h1, h2⟩ := hback hv
      have hr : applyReset v = applyReset (s.hosted v) := by
        have h := congrArg applyReset h2
        exact h
      rw [hr]
      exact .reset (es := []) (hu.host.subset (hgu.host u ▸ hm)) h1.follows (by simp [h1.trace])
    · obtain ⟨h1, h2⟩ := hback hv
      have he := h p hp ((congrArg State.sel h2).trans (h1.sel.trans hs))
      rw [h2] at he
      exact he.after (h1.reaches hs)

theorem noWrites_writes : ∀ a, ∀ f ∈ noWrites a, RegisterWrite f := fun _ _ h => nomatch h

/-! ### How a command ends -/

/-- A command: it has ended in a fault or by a reset, or its acceptance passed, its steps went on to a state `u` at the
place `q`, and it completed there with its writes. -/
theorem runCommand_outcome {α : Type} {own needs : Bool} {body : Act α} {writes : α → List (State → State)} {s : State}
    (hw : ∀ a, ∀ f ∈ writes a, RegisterWrite f) (hq : q ≠ .begun)
    (hbody : (own && s.sel) = false → Act.Keeps s.params.sharedBus (.of s.sel) q body) :
    Ended (.of s.sel) s (runCommand own needs body writes s) ∨
      ((own && s.sel) = false ∧ (needs && !s.panelInit) = false ∧
        ∃ a u v, body s = .ok a v ∧ Reaches (.of s.sel) q s u ∧
          runCommand own needs body writes s = endCommand (written (writes a) u)) := by
  have hraise (c : Cause) (hc : c ≠ .none) (d : Nat) (v : Int) :
      ∃ t, (raise c d v : Act Unit) s = .error () t ∧ Ended (.of s.sel) s t := by
    obtain ⟨t, ht⟩ := raise_error (α := Unit) c d v s
    exact ⟨t, ht, (Act.Keeps.raise (sh := s.params.sharedBus) (q := .of s.sel) (by simp) hc d v).error rfl (by simp) ht⟩
  rw [runCommand_eq, act_bind, acceptance_eq]
  by_cases ho : (own && s.sel) = true
  · rw [if_pos ho]
    obtain ⟨t, ht, he⟩ := hraise .bracket (by simp) 3 0
    rw [ht]
    exact Or.inl he
  · by_cases hn : (needs && !s.panelInit) = true
    · rw [if_neg ho, if_pos hn]
      obtain ⟨t, ht, he⟩ := hraise .config (by simp) 0 0
      rw [ht]
      exact Or.inl he
    · rw [if_neg ho, if_neg hn]
      have hk := hbody (by simpa using ho) s rfl (by simp)
      dsimp only
      rw [commandSteps, act_bind]
      cases hx : body s with
      | error e t => rw [hx] at hk; exact Or.inl hk
      | ok a t =>
        rw [hx] at hk
        have ht := hostTurn_outcome hq hk.sel
        dsimp only
        rw [act_bind]
        cases hy : hostTurn t with
        | error e u => rw [hy] at ht; exact Or.inl (ht.after hk)
        | ok e u =>
          rw [hy] at ht
          have hu := hk.trans (ht.reaches hk.sel)
          have hc := commit_outcome (hw a) hq hu.sel
          dsimp only
          cases hz : commit (writes a) u with
          | error _ v =>
            rw [hz] at hc
            exact Or.inl (hc.after hu)
          | ok _ v =>
            rw [hz] at hc
            obtain ⟨v, hv, rfl⟩ := hc
            exact Or.inr ⟨by simpa using ho, by simpa using hn, a, v, t, rfl, hu.trans (hv.reaches hu.sel), rfl⟩

/-- How the command `i` completes from the state `u`, which follows the state `s` in which it was accepted. -/
def Completes (i : Instr) (s u t : State) : Prop :=
  match i with
  | .start => u.sel = false ∧ t = endCommand { u with cstate := .started }
  | .stop => u.sel = false ∧ t = endCommand { u with cstate := .stopped }
  | .update => u.sel = false ∧ (t = endCommand u ∨ t = { u with poll := true })
  | .panelInit => u.sel = s.sel ∧ s.panelInit = false ∧ coord s 0 ≤ s.params.gates ∧ coord s 1 ≤ s.params.sources ∧
      t = endCommand { u with panelW := coordBits u 0, panelH := coordBits u 1, panelInit := true }
  | .setBg c => u.sel = s.sel ∧ t = endCommand { u with bg := c, bgValid := true }
  | .setFont => u.sel = s.sel ∧ s.panelInit = true ∧ t = endCommand { u with fontBase := addrBits u 4, fontValid := true }
  | .getTextWidth => u.sel = s.sel ∧ ∃ n : Nat, t = endCommand { u with result := BitVec.ofNat 32 n }
  | .select => u.sel = true ∧ t = endCommand u
  | .unselect => u.sel = false ∧ t = endCommand u
  | .nop | .sendCmd | .sendData | .setAddress => u.sel = s.sel ∧ t = endCommand u
  | .fillDisplay _ | .drawBitmap _ _ | .drawFilledRect _ | .drawText _ _ => u.sel = false ∧ t = endCommand u

/-- A pass of the poll loop: UPDATE has ended in a fault or by a reset, or it goes on or completes in a state that
follows. -/
theorem afterPoll_outcome {s : State} (hs : s.sel = false) :
    Ended .idle s (afterPoll (pollOnce s)) ∨
      ∃ u, Reaches .idle .idle s u ∧ (afterPoll (pollOnce s) = u ∨ afterPoll (pollOnce s) = endCommand u) := by
  have hk := Act.Keeps.pollOnce s rfl hs
  cases hx : pollOnce s with
  | error e t => rw [hx] at hk; exact Or.inl hk
  | ok more t =>
    rw [hx] at hk
    cases more with
    | true => exact Or.inr ⟨t, hk, Or.inl rfl⟩
    | false =>
      have ht := hostTurn_outcome (p := .idle) (by simp) hk.sel
      rw [afterPoll]
      cases hy : hostTurn t with
      | error e u => rw [hy] at ht; exact Or.inl (ht.after hk)
      | ok e u => rw [hy] at ht; exact Or.inr ⟨u, hk.trans (ht.reaches hk.sel), Or.inr rfl⟩

/-- A state that follows one in the poll loop, with the flag as it was before. -/
theorem Follows.unpoll {s u : State} (h : Follows { s with poll := true } u) : Follows s { u with poll := s.poll } :=
  { h with poll := rfl }

/-- An end is the same whether or not the poll loop was entered. -/
theorem Ended.unpoll {s t : State} (h : Ended p { s with poll := true } t) : Ended p s t := by
  cases h with
  | @fault u _ q c d v a hq hf hb ht hc ha =>
    exact .fault (u := { u with poll := s.poll }) q c d v a hq hf.unpoll hb ht hc ha
  | @reset u _ hm hf ht => exact .reset (u := { u with poll := s.poll }) hm hf.unpoll ht

/-- An illegal command (R89). -/
theorem raiseIllegal_ended (k : Illegal) (s : State) : Ended (.of s.sel) s (endOf (raiseIllegal k) s) := by
  obtain ⟨t, ht⟩ := raise_error (α := Unit) .illegal k.detail (s.cmdL.extractLsb' 0 16).toNat s
  have he := (Act.Keeps.raise (sh := s.params.sharedBus) (p := .of s.sel) (q := .of s.sel) (by simp) (by simp) _ _).error
    rfl (by simp) ht
  rw [endOf, raiseIllegal, peek_bind, ht]
  exact he

/-- Everything a command can do, whatever the host does under it: it ends in a fault or by a reset, or it completes. -/
theorem exec_outcome {i : Instr} {s t : State} (h : exec i s = .next t) :
    Ended (.of s.sel) s t ∨ ∃ u, Reaches (.of s.sel) (.of u.sel) s u ∧ Completes i s u t := by
  /- a command that keeps `Sel` or ends with it at `b` -/
  have hkeep {α : Type} {own needs : Bool} {body : Act α} {writes : α → List (State → State)} (b : Bool)
      (hw : ∀ a, ∀ f ∈ writes a, RegisterWrite f)
      (hbody : (own && s.sel) = false → Act.Keeps s.params.sharedBus (.of s.sel) (.of b) body) :
      Ended (.of s.sel) s (runCommand own needs body writes s) ∨
        ∃ u, Reaches (.of s.sel) (.of u.sel) s u ∧ u.sel = b ∧ (needs && !s.panelInit) = false ∧ ∃ a v, body s = .ok a v ∧
          runCommand own needs body writes s = endCommand (written (writes a) u) := by
    refine (runCommand_outcome hw (by simp) hbody).imp id fun ⟨_, hn, a, u, v, hv, hu, hr⟩ => ?_
    have hb : u.sel = b := by simpa using hu.sel
    exact ⟨u, by rw [hb]; exact hu, hb, hn, a, v, hv, hr⟩
  have hown {body : Act Unit} (hb : Act.Keeps s.params.sharedBus .idle .idle body) : (true && s.sel) = false →
      Act.Keeps s.params.sharedBus (.of s.sel) (.of false) body := fun ho => by
    rw [show s.sel = false by simpa using ho]
    exact hb
  cases i with
  | nop =>
    injection h with h
    subst h
    exact (hkeep s.sel noWrites_writes fun _ => .pure ()).imp id fun ⟨u, hu, hb, _, _, _, _, hr⟩ => ⟨u, hu, hb, hr⟩
  | start =>
    injection h with h
    subst h
    exact (hkeep false (by intro _ f hf; simp only [List.mem_singleton] at hf; subst hf; exact ⟨fun _ _ => rfl, fun _ _ => rfl⟩)
      (hown Act.Keeps.startBody)).imp id fun ⟨u, hu, hb, _, _, _, _, hr⟩ => ⟨u, hu, hb, hr⟩
  | stop =>
    injection h with h
    subst h
    exact (hkeep false (by intro _ f hf; simp only [List.mem_singleton] at hf; subst hf; exact ⟨fun _ _ => rfl, fun _ _ => rfl⟩)
      (hown Act.Keeps.stopBody)).imp id fun ⟨u, hu, hb, _, _, _, _, hr⟩ => ⟨u, hu, hb, hr⟩
  | update =>
    injection h with h
    subst h
    rw [act_bind, acceptance_eq]
    cases hs : s.sel with
    | true =>
      obtain ⟨t, ht⟩ := raise_error (α := Unit) .bracket 3 0 s
      have he := (Act.Keeps.raise (sh := s.params.sharedBus) (q := .opened) (p := .opened) (by simp) (by simp) _ _).error
        rfl hs ht
      simp only [Bool.and_self, if_true, ht]
      exact Or.inl he
    | false =>
      simp only [Bool.and_false, Bool.false_and, Bool.false_eq_true, if_false]
      have hk := Act.Keeps.updateBody s rfl hs
      rw [act_bind]
      cases hx : updateBody s with
      | error e t => rw [hx] at hk; exact Or.inl hk
      | ok a t =>
        rw [hx] at hk
        dsimp only
        rw [update_bind]
        rcases afterPoll_outcome (s := { t with poll := true }) hk.sel with he | ⟨u, hu, hr⟩
        · exact Or.inl (he.unpoll.after hk)
        · have hreach : Reaches .idle .idle t { u with poll := t.poll } :=
            { follows := hu.follows.unpoll, sel := hu.sel, events := hu.events }
          have hb : u.sel = false := hu.sel
          refine Or.inr ⟨{ u with poll := t.poll }, ?_, hb, ?_⟩
          · have hplace : Place.of ({ u with poll := t.poll } : State).sel = .idle := congrArg Place.of hb
            rw [hplace]
            exact hk.trans hreach
          · rcases hr with hr | hr
            · refine Or.inr (hr.trans ?_)
              have hp : u.poll = true := hu.follows.poll
              cases u
              subst hp
              rfl
            · exact Or.inl hr
  | select =>
    injection h with h
    subst h
    exact (hkeep true noWrites_writes fun _ => Act.Keeps.selectBody s.sel).imp id
      fun ⟨u, hu, hb, _, _, _, _, hr⟩ => ⟨u, hu, hb, hr⟩
  | unselect =>
    injection h with h
    subst h
    exact (hkeep false noWrites_writes fun _ => Act.Keeps.unselectBody s.sel).imp id
      fun ⟨u, hu, hb, _, _, _, _, hr⟩ => ⟨u, hu, hb, hr⟩
  | sendCmd =>
    injection h with h
    subst h
    exact (hkeep s.sel noWrites_writes fun _ => Act.Keeps.sendCmdBody _).imp id
      fun ⟨u, hu, hb, _, _, _, _, hr⟩ => ⟨u, hu, hb, hr⟩
  | sendData =>
    injection h with h
    subst h
    exact (hkeep s.sel noWrites_writes fun _ => Act.Keeps.sendDataBody _).imp id
      fun ⟨u, hu, hb, _, _, _, _, hr⟩ => ⟨u, hu, hb, hr⟩
  | setAddress =>
    injection h with h
    subst h
    exact (hkeep s.sel noWrites_writes fun _ => Act.Keeps.setAddressBody _).imp id
      fun ⟨u, hu, hb, _, _, _, _, hr⟩ => ⟨u, hu, hb, hr⟩
  | panelInit =>
    injection h with h
    subst h
    refine (hkeep s.sel ?_ fun _ => Act.Keeps.panelInitBody (by simp)).imp id fun ⟨u, hu, hb, _, _, v, hv, hr⟩ => ⟨u, hu, hb, ?_⟩
    · intro _ f hf
      simp only [List.mem_cons, List.not_mem_nil, or_false] at hf
      rcases hf with rfl | rfl | rfl <;> exact ⟨fun _ _ => rfl, fun _ _ => rfl⟩
    · have hbody : panelInitBody s =
          if s.panelInit then raise .config 1 0 s
          else if coord s 0 > s.params.gates then raise .panelExtent 0 (coord s 0) s
          else if coord s 1 > s.params.sources then raise .panelExtent 1 (coord s 1) s
          else .ok () s := by
        simp only [panelInitBody, peek_bind]
        repeat' split
        all_goals rfl
      have hne {c : Cause} {d : Nat} {x : Int} {w : State} : (raise c d x : Act Unit) s ≠ .ok () w := by
        obtain ⟨t, ht⟩ := raise_error (α := Unit) c d x s
        rw [ht]
        simp
      rw [hbody] at hv
      by_cases h1 : s.panelInit = true
      · rw [if_pos h1] at hv; exact absurd hv hne
      · by_cases h2 : coord s 0 > s.params.gates
        · rw [if_neg h1, if_pos h2] at hv; exact absurd hv hne
        · by_cases h3 : coord s 1 > s.params.sources
          · rw [if_neg h1, if_neg h2, if_pos h3] at hv; exact absurd hv hne
          · exact ⟨by simpa using h1, by omega, by omega, hr⟩
  | setBg c =>
    injection h with h
    subst h
    refine (hkeep s.sel ?_ fun _ => .pure ()).imp id fun ⟨u, hu, hb, _, _, _, _, hr⟩ => ⟨u, hu, hb, hr⟩
    intro _ f hf
    simp only [List.mem_cons, List.not_mem_nil, or_false] at hf
    rcases hf with rfl | rfl <;> exact ⟨fun _ _ => rfl, fun _ _ => rfl⟩
  | fillDisplay c =>
    injection h with h
    subst h
    exact (hkeep false noWrites_writes (hown (Act.Keeps.fillDisplayBody c))).imp id
      fun ⟨u, hu, hb, _, _, _, _, hr⟩ => ⟨u, hu, hb, hr⟩
  | drawBitmap c src =>
    have hsome : ∀ source : PixelSource,
        Ended (.of s.sel) s (runCommand true true (drawOperands c source) noWrites s) ∨
          ∃ u, Reaches (.of s.sel) (.of u.sel) s u ∧ u.sel = false ∧
            runCommand true true (drawOperands c source) noWrites s = endCommand u := fun source =>
      (hkeep false noWrites_writes (hown (Act.Keeps.drawOperands c source))).imp id
        fun ⟨u, hu, hb, _, _, _, _, hr⟩ => ⟨u, hu, hb, hr⟩
    cases src with
    | solid => injection h with h; subst h; exact hsome _
    | mem => injection h with h; subst h; exact hsome _
    | host => injection h with h; subst h; exact hsome _
    | reserved => injection h with h; subst h; exact Or.inl (raiseIllegal_ended _ s)
  | drawFilledRect c =>
    injection h with h
    subst h
    exact (hkeep false noWrites_writes (hown (Act.Keeps.drawOperands c .solid))).imp id
      fun ⟨u, hu, hb, _, _, _, _, hr⟩ => ⟨u, hu, hb, hr⟩
  | setFont =>
    injection h with h
    subst h
    refine (hkeep s.sel ?_ fun _ => Act.Keeps.setFontBody (by simp)).imp id
      fun ⟨u, hu, hb, hn, _, _, _, hr⟩ => ⟨u, hu, hb, by simpa using hn, hr⟩
    intro _ f hf
    simp only [List.mem_cons, List.not_mem_nil, or_false] at hf
    rcases hf with rfl | rfl <;> exact ⟨fun _ _ => rfl, fun _ _ => rfl⟩
  | getTextWidth =>
    injection h with h
    subst h
    exact (hkeep s.sel (by intro _ f hf; simp only [List.mem_singleton] at hf; subst hf; exact ⟨fun _ _ => rfl, fun _ _ => rfl⟩)
      fun _ => Act.Keeps.getTextWidthBody (by simp)).imp id fun ⟨u, hu, hb, _, n, _, _, hr⟩ => ⟨u, hu, hb, n, hr⟩
  | drawText c align =>
    rw [exec, execDrawText] at h
    split at h
    · injection h with h; subst h; exact Or.inl (raiseIllegal_ended _ s)
    · injection h with h
      subst h
      exact (hkeep false noWrites_writes (hown (Act.Keeps.drawTextBody c align))).imp id
        fun ⟨u, hu, hb, _, _, _, _, hr⟩ => ⟨u, hu, hb, hr⟩

end Sys2Proof.Machine
end

