-- ==== Sys2Proof/Laws/Latched.lean ====
section
/-! SUPPORT. A running command does not see the argument registers (R36, R44): under a host that waits for idle, each
piece of a command does the same from a state with other values in them. -/

namespace Sys2Proof.Machine

/-- The host's turn does not depend on the list it comes from: the list left is the one it sets. -/
theorem turnFrom_host (onCommand : Word → Act Unit) : ∀ (l l' : List HostAction) (s : State),
    turnFrom onCommand l { s with host := l' } = turnFrom onCommand l s
  | [], _, _ => rfl
  | .pause :: _, _, _ => rfl
  | .waitIdle :: _, _, _ => rfl
  | .reset :: _, _, _ => rfl
  | .poke a v :: rest, l', s => by
    rw [turnFrom, turnFrom]
    exact turnFrom_host onCommand rest l' (hostPoke a v s)
  | .read off size :: rest, l', s => by
    rw [turnFrom, turnFrom]
    split
    · exact turnFrom_host onCommand rest l' (hostRead off s)
    · rfl
  | .write off size value :: rest, l', s => by
    rw [turnFrom, turnFrom]
    split
    · split
      · rfl
      · exact turnFrom_host onCommand rest l' (writeReg off value s)
    · rfl

variable {α β : Type}

/-- A piece of a command that does not see the argument registers. -/
def Act.Latched (x : Act α) : Prop :=
  ∀ (s : State) (a : Vector Word 7), s.quiet = true → match x s with
    | .ok r t => x { s with args := a } = .ok r { t with args := a } ∧ t.quiet = true
    | .error e t => x { s with args := a } = .error e { t with args := a }

theorem Act.Latched.bind {x : Act α} {f : α → Act β} (hx : Act.Latched x) (hf : ∀ r, Act.Latched (f r)) :
    Act.Latched (x >>= f) := by
  intro s a hq
  have h := hx s a hq
  rw [act_bind, act_bind]
  cases hs : x s with
  | error e t => rw [hs] at h; rw [h]
  | ok r t =>
    rw [hs] at h
    rw [h.1]
    exact hf r t a h.2

theorem Act.Latched.pure (r : α) : Act.Latched (pure r) := fun _ _ hq => ⟨rfl, hq⟩

theorem Act.Latched.peek {g : State → α} (hg : ∀ s a, g { s with args := a } = g s) : Act.Latched (peek g) := by
  intro s a hq
  exact ⟨by rw [peek_apply, hg], hq⟩

theorem Act.Latched.ite {p : Prop} [Decidable p] {x y : Act α} (hx : Act.Latched x) (hy : Act.Latched y) :
    Act.Latched (if p then x else y) := by
  split
  · exact hx
  · exact hy

theorem Act.Latched.update {f : State → State} (hf : ∀ s a, f { s with args := a } = { f s with args := a })
    (hh : ∀ s, (f s).host = s.host) : Act.Latched (update f) := by
  intro s a hq
  exact ⟨congrArg (EStateM.Result.ok ()) (hf s a), (quiet_of_host (hh s)).trans hq⟩

theorem Act.Latched.hostTurn : Act.Latched hostTurn := by
  intro s a hq
  rw [hostTurn_quiet hq]
  exact ⟨hostTurn_quiet hq, hq⟩

theorem Act.Latched.hostTurnFrom (f : State → State) : Act.Latched (hostTurnFrom f) := by
  intro s a hq
  rw [hostTurnFrom_quiet f hq]
  exact ⟨hostTurnFrom_quiet f hq, hq⟩

theorem Act.Latched.push (e : Event) : Act.Latched (Sys2Proof.Machine.update (pushEvent e)) :=
  .update (fun _ _ => rfl) fun _ => rfl

theorem Act.Latched.emit (e : Event) : Act.Latched (emit e) := Act.Latched.hostTurn.bind fun _ => .push e

theorem Act.Latched.whenShared {x : Act Unit} (hx : Act.Latched x) : Act.Latched (whenShared x) :=
  (Act.Latched.peek fun _ _ => rfl).bind fun _ => .ite hx (.pure ())

theorem Act.Latched.enterFault (c : Cause) (d : Nat) (v : Int) (addr : Option Nat) :
    Act.Latched (enterFault c d v addr : Act α) := by
  intro s a hq
  rw [enterFault_quiet hq, enterFault_quiet (s := { s with args := a }) hq]
  rfl

theorem Act.Latched.raise (c : Cause) (d : Nat) (v : Int) : Act.Latched (raise c d v : Act α) :=
  Act.Latched.hostTurn.bind fun _ => .enterFault _ _ _ _

theorem Act.Latched.select : Act.Latched select :=
  (Act.Latched.emit _).whenShared.bind fun _ => (Act.Latched.emit _).bind fun _ => (Act.Latched.hostTurnFrom _).bind fun _ =>
    .update (fun _ _ => rfl) fun _ => rfl

theorem Act.Latched.unselect : Act.Latched unselect :=
  (Act.Latched.emit _).bind fun _ => (Act.Latched.emit _).whenShared.bind fun _ => Act.Latched.hostTurn.bind fun _ =>
    .update (fun _ _ => rfl) fun _ => rfl

theorem Act.Latched.sendDataList : ∀ ds : List Byte, Act.Latched (sendDataList ds)
  | [] => .pure ()
  | _ :: ds => (Act.Latched.emit _).bind fun _ => Act.Latched.sendDataList ds

theorem Act.Latched.sendFrames : ∀ fs : List Frame, Act.Latched (sendFrames fs)
  | [] => .pure ()
  | f :: fs => ((Act.Latched.emit _).bind fun _ => Act.Latched.sendDataList f.data).bind fun _ => Act.Latched.sendFrames fs

theorem Act.Latched.memRead (b n : Nat) : Act.Latched (memRead b n) := by
  intro s a hq
  rw [memRead_eq hq, memRead_eq (s := { s with args := a }) hq]
  by_cases hr : s.params.readable b n = true
  · rw [if_pos hr, if_pos (by exact hr)]
    by_cases hv : (s.racy.any fun c => decide (b ≤ c) && decide (c < b + n)) = true
    · have hy : performRead b n s = _ := if_pos hv
      have hy' : performRead b n { s with args := a } = _ := if_pos hv
      rw [hy, hy']
      exact ⟨rfl, hq⟩
    · have hy : performRead b n s = _ := if_neg hv
      have hy' : performRead b n { s with args := a } = _ := if_neg hv
      rw [hy, hy']
      exact ⟨rfl, hq⟩
  · rw [if_neg hr, if_neg (by exact hr)]
    rfl

theorem Act.Latched.sample (req : SampleReq) : Act.Latched (sample req) := by
  refine Act.Latched.hostTurn.bind fun _ => ?_
  refine (Act.Latched.update (f := requestSample req) (fun _ _ => rfl) fun _ => rfl).bind fun _ => Act.Latched.hostTurn.bind fun _ => ?_
  intro s a hq
  cases hl : s.samples with
  | nil =>
    have hx : answerSample s = .ok (Config.freeSample s.draws) { s with sampleReq := none, draws := s.draws + 1 } := by
      simp [answerSample, hl]
    rw [hx]
    exact ⟨by simp [answerSample, hl], hq⟩
  | cons c rest =>
    have hx : answerSample s = .ok c { s with sampleReq := none, samples := rest } := by simp [answerSample, hl]
    rw [hx]
    exact ⟨by simp [answerSample], hq⟩

theorem Act.Latched.needBracket : Act.Latched needBracket :=
  (Act.Latched.peek fun _ _ => rfl).bind fun _ => .ite (.pure ()) (.raise _ _ _)

theorem Act.Latched.checkWindow (xs xe ys ye : Int) : Act.Latched (checkWindow xs xe ys ye) :=
  (Act.Latched.peek fun _ _ => rfl).bind fun _ =>
    .ite (.raise _ _ _) (.ite (.raise _ _ _) (.ite (.raise _ _ _) (.ite (.raise _ _ _) (.pure ()))))

theorem Act.Latched.setAddressInternal (xs xe ys ye : Int) : Act.Latched (setAddressInternal xs xe ys ye) :=
  (Act.Latched.checkWindow _ _ _ _).bind fun _ => (Act.Latched.peek fun _ _ => rfl).bind fun _ => .sendFrames _

theorem Act.Latched.acceptance (own needs : Bool) : Act.Latched (acceptance own needs) :=
  (Act.Latched.peek fun _ _ => rfl).bind fun _ => (Act.Latched.peek fun _ _ => rfl).bind fun _ =>
    .ite (.raise _ _ _) (.ite (.raise _ _ _) (.pure ()))

theorem Act.Latched.pollOnce : Act.Latched pollOnce := by
  have hlevel : Act.Latched readBusyLevel := by
    intro s a hq
    rw [readBusyLevel_eq, readBusyLevel_eq]
    exact ⟨rfl, hq⟩
  refine (Act.Latched.peek fun _ _ => rfl).bind fun _ => Act.Latched.bind ?_ fun _ => .ite ?_ (.pure _)
  · exact Act.Latched.hostTurn.bind fun _ => hlevel.bind fun _ => (Act.Latched.peek fun _ _ => rfl).bind fun _ => .pure _
  · exact (Act.Latched.emit _).bind fun _ => .pure _

theorem Act.Latched.sendRepeated (d : Byte) : ∀ n, Act.Latched (sendRepeated d n)
  | 0 => .pure ()
  | n + 1 => (Act.Latched.emit _).bind fun _ => Act.Latched.sendRepeated d n

theorem Act.Latched.pick (fg : Byte) (src : PixelSource) (width height w h : Nat) :
    Act.Latched (pick fg src width height w h) := by
  refine Act.Latched.bind ?_ fun _ => (Act.Latched.peek fun _ _ => rfl).bind fun _ =>
    (Act.Latched.peek fun _ _ => rfl).bind fun _ => .ite (.pure _) (.ite (.pure _) (.raise _ _ _))
  cases src with
  | solid => exact .pure _
  | mem base => exact (Act.Latched.memRead _ _).bind fun _ => .pure _
  | host => exact Act.Latched.sample _

theorem Act.Latched.packRows (fg : Byte) (src : PixelSource) (y width height w : Nat) :
    ∀ (left : Nat) (acc : Byte), Act.Latched (packRows fg src y width height w left acc)
  | 0, _ => .pure ()
  | left + 1, _ => (Act.Latched.pick _ _ _ _ _ _).bind fun _ =>
    .ite ((Act.Latched.emit _).bind fun _ => Act.Latched.packRows fg src y width height w left _)
      (Act.Latched.packRows fg src y width height w left _)

theorem Act.Latched.packColumns (fg : Byte) (src : PixelSource) (y width height : Nat) :
    ∀ left : Nat, Act.Latched (packColumns fg src y width height left)
  | 0 => .pure ()
  | left + 1 => (Act.Latched.packRows _ _ _ _ _ _ _ _).bind fun _ => Act.Latched.packColumns fg src y width height left

theorem Act.Latched.drawBitmapCore (c : Color) (x y width height : Nat) (src : PixelSource) :
    Act.Latched (drawBitmapCore c x y width height src) :=
  (Act.Latched.peek fun _ _ => rfl).bind fun _ => Act.Latched.select.bind fun _ =>
    (Act.Latched.setAddressInternal _ _ _ _).bind fun _ => (Act.Latched.packColumns _ _ _ _ _ _).bind fun _ =>
    Act.Latched.unselect

theorem Act.Latched.readHeader (f : Nat) : Act.Latched (readHeader f) :=
  (Act.Latched.memRead _ _).bind fun _ => (Act.Latched.memRead _ _).bind fun _ => (Act.Latched.memRead _ _).bind fun _ =>
    .pure _

theorem Act.Latched.textWidthFrom (f first last t : Nat) :
    ∀ left i tw : Nat, Act.Latched (textWidthFrom f first last t left i tw)
  | 0, _, _ => .pure _
  | left + 1, _, _ => (Act.Latched.memRead _ _).bind fun _ =>
    .ite ((Act.Latched.memRead _ _).bind fun _ => Act.Latched.textWidthFrom f first last t left _ _)
      (Act.Latched.textWidthFrom f first last t left _ _)

theorem Act.Latched.startColumn (align : Align) (x f first last t n : Nat) :
    Act.Latched (startColumn align x f first last t n) := by
  cases align with
  | left => exact .pure _
  | reserved => exact .pure _
  | center => exact (Act.Latched.textWidthFrom _ _ _ _ _ _ _).bind fun _ => .pure _
  | right => exact (Act.Latched.textWidthFrom _ _ _ _ _ _ _).bind fun _ => .pure _

theorem Act.Latched.drawGlyphs (c : Color) (y f t panelW : Nat) (hdr : FontHeader) :
    ∀ left i cx : Nat, Act.Latched (drawGlyphs c y f t panelW hdr left i cx)
  | 0, _, _ => .pure ()
  | left + 1, _, _ => (Act.Latched.memRead _ _).bind fun _ =>
    .ite ((Act.Latched.memRead _ _).bind fun _ =>
        .ite (.pure ()) ((Act.Latched.drawBitmapCore _ _ _ _ _ _).bind fun _ =>
          Act.Latched.drawGlyphs c y f t panelW hdr left _ _))
      (Act.Latched.drawGlyphs c y f t panelW hdr left _ _)

theorem Act.Latched.commit {fs : List (State → State)}
    (hf : ∀ f ∈ fs, (∀ s a, f { s with args := a } = { f s with args := a }) ∧ ∀ s, (f s).host = s.host) :
    Act.Latched (commit fs) := by
  have hw : ∀ s : State, (∀ a, written fs { s with args := a } = { written fs s with args := a }) ∧
      (written fs s).host = s.host := by
    induction fs with
    | nil => exact fun _ => ⟨fun _ => rfl, rfl⟩
    | cons f fs ih =>
      intro s
      have h := hf f (List.mem_cons_self ..)
      have ih := ih (fun g hg => hf g (List.mem_cons_of_mem _ hg)) (f s)
      exact ⟨fun a => (congrArg (written fs) (h.1 s a)).trans (ih.1 a), ih.2.trans (h.2 s)⟩
  intro s a hq
  have hh : ∀ f ∈ fs, ∀ t, (f t).host = t.host := fun f h => (hf f h).2
  rw [commit_quiet fs hq hh]
  exact ⟨by rw [← (hw s).1]; exact commit_quiet fs hq hh, (quiet_of_host (hw s).2).trans hq⟩

/-- A command whose steps and writes do not see the argument registers does not see them. -/
theorem runCommand_latched {own needs : Bool} {body : Act α} {writes : α → List (State → State)} (hb : Act.Latched body)
    (hw : ∀ r, ∀ f ∈ writes r, (∀ s a, f { s with args := a } = { f s with args := a }) ∧ ∀ s, (f s).host = s.host)
    {s : State} (hq : s.quiet = true) (a : Vector Word 7) :
    runCommand own needs body writes { s with args := a } = { runCommand own needs body writes s with args := a } := by
  have hwhole : Act.Latched (acceptance own needs >>= fun _ => commandSteps body writes) :=
    (Act.Latched.acceptance own needs).bind fun _ => hb.bind fun r => Act.Latched.hostTurn.bind fun _ =>
      Act.Latched.commit (hw r)
  have h := hwhole s a hq
  rw [runCommand_eq, runCommand_eq]
  cases hs : (acceptance own needs >>= fun _ => commandSteps body writes) s with
  | error e t => rw [hs] at h; rw [h]
  | ok r t => rw [hs] at h; rw [h.1]; rfl

end Sys2Proof.Machine
end

