-- ==== Sys2Proof/Laws/PerInstr.lean ====
section
/-! SUPPORT. The families of statements about every command as syntax, one lemma for each constructor. -/

namespace Sys2Proof.Laws

/-- The word that encodes a command is the command's opcode under the mask of rule R88. -/
def EncodeMatches.Statement (i : Instr) : Prop := encode i &&& 0xFFFFC0FF#32 = i.opcode.setWidth 32

theorem EncodeMatches.nop : EncodeMatches.Statement .nop := by unfold EncodeMatches.Statement; decide
theorem EncodeMatches.start : EncodeMatches.Statement .start := by unfold EncodeMatches.Statement; decide
theorem EncodeMatches.stop : EncodeMatches.Statement .stop := by unfold EncodeMatches.Statement; decide
theorem EncodeMatches.update : EncodeMatches.Statement .update := by unfold EncodeMatches.Statement; decide
theorem EncodeMatches.select : EncodeMatches.Statement .select := by unfold EncodeMatches.Statement; decide
theorem EncodeMatches.unselect : EncodeMatches.Statement .unselect := by unfold EncodeMatches.Statement; decide
theorem EncodeMatches.sendCmd : EncodeMatches.Statement .sendCmd := by unfold EncodeMatches.Statement; decide
theorem EncodeMatches.sendData : EncodeMatches.Statement .sendData := by unfold EncodeMatches.Statement; decide
theorem EncodeMatches.setAddress : EncodeMatches.Statement .setAddress := by unfold EncodeMatches.Statement; decide
theorem EncodeMatches.panelInit : EncodeMatches.Statement .panelInit := by unfold EncodeMatches.Statement; decide
theorem EncodeMatches.setFont : EncodeMatches.Statement .setFont := by unfold EncodeMatches.Statement; decide
theorem EncodeMatches.getTextWidth : EncodeMatches.Statement .getTextWidth := by unfold EncodeMatches.Statement; decide

theorem EncodeMatches.setBg (c : Color) : EncodeMatches.Statement (.setBg c) := by
  unfold EncodeMatches.Statement
  revert c
  decide

theorem EncodeMatches.fillDisplay (c : Color) : EncodeMatches.Statement (.fillDisplay c) := by
  unfold EncodeMatches.Statement
  revert c
  decide

theorem EncodeMatches.drawFilledRect (c : Color) : EncodeMatches.Statement (.drawFilledRect c) := by
  unfold EncodeMatches.Statement
  revert c
  decide

theorem EncodeMatches.drawBitmap (c : Color) (src : Src) : EncodeMatches.Statement (.drawBitmap c src) := by
  unfold EncodeMatches.Statement
  cases src <;> revert c <;> decide

theorem EncodeMatches.drawText (c : Color) (align : Align) : EncodeMatches.Statement (.drawText c align) := by
  unfold EncodeMatches.Statement
  cases align <;> revert c <;> decide

end Sys2Proof.Laws
end

