-- ==== Sys2Proof/Laws/Text.lean ====
section
/-! SUPPORT. Font access and the text passes under a host that waits for idle: the header (R160), the width of a text
(R164), the start column (R168), the draw pass (R167, R169, R170). -/

namespace Sys2Proof.Machine

variable {s : State}

/-- A part of a command that only read memory. -/
theorem drawn_reads (s : State) (rs : List MemReq) : s.drawn [] rs [] = { s with memReads := s.memReads ++ rs } := by
  simp [State.drawn, State.afterAnswers]

/-- The header reads (R160). -/
theorem readHeader_drawn (hq : s.quiet = true) (hr : s.racy = []) (es : List Event) (rs : List MemReq) {f : Nat}
    (ha : ∀ r ∈ headerReads f, s.params.readable r.addr r.width = true) :
    readHeader f (s.drawn es rs []) = .ok (headerAt s.mem f) (s.drawn es (rs ++ headerReads f) []) := by
  have h1 : s.params.readable (f + 2) 2 = true := ha ⟨f + 2, 2⟩ (by simp [headerReads])
  have h2 : s.params.readable (f + 4) 2 = true := ha ⟨f + 4, 2⟩ (by simp [headerReads])
  have h3 : s.params.readable (f + 6) 1 = true := ha ⟨f + 6, 1⟩ (by simp [headerReads])
  rw [readHeader, act_bind_ok _ (memRead_drawn hq hr es rs [] h1), act_bind_ok _ (memRead_drawn hq hr es _ [] h2),
    act_bind_ok _ (memRead_drawn hq hr es _ [] h3), act_pure]
  simp [headerAt, headerReads]

/-- A text byte (R61). -/
theorem readCode_drawn (hq : s.quiet = true) (hr : s.racy = []) (es : List Event) (rs : List MemReq) {t i : Nat}
    (ha : s.params.readable (t + i) 1 = true) :
    memRead (t + i) 1 (s.drawn es rs []) = .ok (textCode s.mem t i) (s.drawn es (rs ++ [⟨t + i, 1⟩]) []) :=
  memRead_drawn hq hr es rs [] ha

/-- A char-table entry (R161). -/
theorem readEntry_drawn (hq : s.quiet = true) (hr : s.racy = []) (es : List Event) (rs : List MemReq) {f first c : Nat}
    (ha : s.params.readable (f + 8 + 4 * (c - first)) 4 = true) :
    readEntry f first c (s.drawn es rs []) =
      .ok (entryAt s.mem f first c) (s.drawn es (rs ++ [⟨f + 8 + 4 * (c - first), 4⟩]) []) :=
  memRead_drawn hq hr es rs [] ha

/-- The width of the text bytes `i` to `i + n - 1`. -/
def widthFrom (m : Memory) (f first last t i n : Nat) : Nat :=
  ((List.range n).map fun k => codeWidth m f first last (textCode m t (i + k))).sum

theorem widthFrom_zero (m : Memory) (f first last t n : Nat) : widthFrom m f first last t 0 n = widthOf m f first last t n := by
  simp [widthFrom, widthOf]

theorem widthFrom_succ (m : Memory) (f first last t i n : Nat) :
    widthFrom m f first last t i (n + 1) =
      codeWidth m f first last (textCode m t i) + widthFrom m f first last t (i + 1) n := by
  simp only [widthFrom, List.range_succ_eq_map, List.map_cons, List.map_map, List.sum_cons, Nat.add_zero]
  simp only [Function.comp_def, Nat.succ_eq_add_one, Nat.add_assoc, Nat.add_comm 1]

/-- The reads of the text bytes `i` to `i + n - 1`. -/
def readsFrom (m : Memory) (f first last t i n : Nat) : List MemReq :=
  (List.range n).flatMap fun k => codeReads m f first last t (i + k)

theorem readsFrom_zero (m : Memory) (f first last t n : Nat) : readsFrom m f first last t 0 n = widthReads m f first last t n := by
  simp [readsFrom, widthReads]

theorem readsFrom_succ (m : Memory) (f first last t i n : Nat) :
    readsFrom m f first last t i (n + 1) = codeReads m f first last t i ++ readsFrom m f first last t (i + 1) n := by
  simp only [readsFrom, List.range_succ_eq_map, List.flatMap_cons, List.flatMap_map, Nat.add_zero]
  simp only [Nat.succ_eq_add_one, Nat.add_assoc, Nat.add_comm 1]

/-- The width pass (R164, R170). -/
theorem textWidthFrom_drawn (hq : s.quiet = true) (hr : s.racy = []) (f first last t : Nat) :
    ∀ (n i tw : Nat) (es : List Event) (rs : List MemReq),
      (∀ r ∈ readsFrom s.mem f first last t i n, s.params.readable r.addr r.width = true) →
      textWidthFrom f first last t n i tw (s.drawn es rs []) =
        .ok (tw + widthFrom s.mem f first last t i n) (s.drawn es (rs ++ readsFrom s.mem f first last t i n) [])
  | 0, i, tw, es, rs, _ => by simp [textWidthFrom, widthFrom, readsFrom]
  | n + 1, i, tw, es, rs, ha => by
    rw [readsFrom_succ] at ha
    have hb : s.params.readable (t + i) 1 = true := ha ⟨t + i, 1⟩ (by simp [codeReads])
    have hrest : ∀ r ∈ readsFrom s.mem f first last t (i + 1) n, s.params.readable r.addr r.width = true :=
      fun r h => ha r (List.mem_append_right _ h)
    rw [textWidthFrom, act_bind_ok _ (readCode_drawn hq hr es rs hb), widthFrom_succ, readsFrom_succ]
    by_cases hc : representable first last (textCode s.mem t i) = true
    · have he : s.params.readable (f + 8 + 4 * (textCode s.mem t i - first)) 4 = true :=
        ha ⟨f + 8 + 4 * (textCode s.mem t i - first), 4⟩ (by simp [codeReads, hc])
      rw [if_pos hc, act_bind_ok _ (readEntry_drawn hq hr es _ he),
        textWidthFrom_drawn hq hr f first last t n (i + 1) _ es _ hrest]
      simp [codeWidth, codeReads, hc, entryAt, Nat.add_assoc]
    · rw [if_neg hc, textWidthFrom_drawn hq hr f first last t n (i + 1) tw es _ hrest]
      simp [codeWidth, codeReads, hc]

/-- `TextWidth` (R164). -/
theorem textWidth_drawn (hq : s.quiet = true) (hr : s.racy = []) (f first last t n : Nat) (es : List Event)
    (rs : List MemReq) (ha : ∀ r ∈ widthReads s.mem f first last t n, s.params.readable r.addr r.width = true) :
    textWidth f first last t n (s.drawn es rs []) =
      .ok (widthOf s.mem f first last t n) (s.drawn es (rs ++ widthReads s.mem f first last t n) []) := by
  rw [textWidth, textWidthFrom_drawn hq hr f first last t n 0 0 es rs (by rwa [readsFrom_zero]), readsFrom_zero,
    widthFrom_zero, Nat.zero_add]

/-- The start column (R168). -/
theorem startColumn_drawn (hq : s.quiet = true) (hr : s.racy = []) (align : Align) (x f first last t n : Nat)
    (es : List Event) (rs : List MemReq)
    (ha : ∀ r ∈ alignReads s.mem align f first last t n, s.params.readable r.addr r.width = true) :
    startColumn align x f first last t n (s.drawn es rs []) =
      .ok (alignedColumn s.mem align x f first last t n) (s.drawn es (rs ++ alignReads s.mem align f first last t n) []) := by
  cases align with
  | left => simp [startColumn, alignedColumn, alignReads]
  | reserved => simp [startColumn, alignedColumn, alignReads]
  | center => rw [startColumn, act_bind_ok _ (textWidth_drawn hq hr f first last t n es rs ha)]; rfl
  | right => rw [startColumn, act_bind_ok _ (textWidth_drawn hq hr f first last t n es rs ha)]; rfl

/-- A glyph drawn after a part of a command (R138, R162). -/
theorem drawGlyph_drawn (hq : s.quiet = true) (hr : s.racy = []) (hs : s.sel = false) (color : Color)
    (cx y gw gh base : Nat) (es : List Event) (rs : List MemReq)
    (hw : (s.window cx y gw gh).inRange s.params = true)
    (ha : ∀ r ∈ bitmapReads base gw gh, s.params.readable r.addr r.width = true)
    (hd : bitmapDrawable s base gw gh = true) :
    drawBitmapCore color cx y gw gh (.mem base) (s.drawn es rs []) =
      .ok () (s.drawn (es ++ drawEvents s.params (s.window cx y gw gh) (bitmapBytes s color base y gw gh))
        (rs ++ bitmapReads base gw gh) []) := by
  have hp := picksAs_mem (s := { s.drawn es rs [] with sel := true }) color base (by exact hq) (by exact hr)
    (by exact ha) (by exact hd)
  have h := drawBitmapCore_quiet (s := s.drawn es rs []) (by exact hq) (by exact hs) (by exact hw) hp
  rw [← bitmapReads_eq, show pixelsBefore (fun _ _ => ([] : List SampleReq)) gh gw 0 = [] by simp [pixelsBefore],
    drawn_drawn] at h
  exact h

/-- The draw pass (R167, R169, R170). -/
theorem drawGlyphs_drawn (hq : s.quiet = true) (hr : s.racy = []) (hs : s.sel = false) (color : Color) (y f t : Nat)
    (hdr : FontHeader) :
    ∀ (n i cx : Nat) (es : List Event) (rs : List MemReq),
      (∀ r ∈ (glyphPass s.mem f t s.panelW.toNat hdr n i cx).2, s.params.readable r.addr r.width = true) →
      (∀ g ∈ (glyphPass s.mem f t s.panelW.toNat hdr n i cx).1,
        (s.window g.cx y g.gw hdr.gh).inRange s.params = true ∧ bitmapDrawable s g.base g.gw hdr.gh = true) →
      drawGlyphs color y f t s.panelW.toNat hdr n i cx (s.drawn es rs []) =
        .ok () (s.drawn
          (es ++ (glyphPass s.mem f t s.panelW.toNat hdr n i cx).1.flatMap fun g =>
            drawEvents s.params (s.window g.cx y g.gw hdr.gh) (bitmapBytes s color g.base y g.gw hdr.gh))
          (rs ++ (glyphPass s.mem f t s.panelW.toNat hdr n i cx).2) [])
  | 0, i, cx, es, rs, _, _ => by simp [drawGlyphs, glyphPass]
  | n + 1, i, cx, es, rs, ha, hg => by
    rw [glyphPass] at ha hg ⊢
    rw [drawGlyphs]
    by_cases hc : representable hdr.first hdr.last (textCode s.mem t i) = true
    · by_cases hcut : cx + entryWidth (entryAt s.mem f hdr.first (textCode s.mem t i)) > s.panelW.toNat
      · simp only [hc, hcut, if_true] at ha hg ⊢
        have hb : s.params.readable (t + i) 1 = true := ha ⟨t + i, 1⟩ (by simp [codeReads])
        have he : s.params.readable (f + 8 + 4 * (textCode s.mem t i - hdr.first)) 4 = true :=
          ha ⟨f + 8 + 4 * (textCode s.mem t i - hdr.first), 4⟩ (by simp [codeReads, hc])
        rw [act_bind_ok _ (readCode_drawn hq hr es rs hb)]
        rw [if_pos hc, act_bind_ok _ (readEntry_drawn hq hr es _ he)]
        rw [if_pos hcut, act_pure]
        simp [codeReads, hc]
      · simp only [hc, hcut, if_true, if_false] at ha hg ⊢
        have hb : s.params.readable (t + i) 1 = true := ha ⟨t + i, 1⟩ (by simp [codeReads])
        have he : s.params.readable (f + 8 + 4 * (textCode s.mem t i - hdr.first)) 4 = true :=
          ha ⟨f + 8 + 4 * (textCode s.mem t i - hdr.first), 4⟩ (by simp [codeReads, hc])
        have hg0 := hg _ (List.mem_cons_self ..)
        rw [act_bind_ok _ (readCode_drawn hq hr es rs hb)]
        rw [if_pos hc, act_bind_ok _ (readEntry_drawn hq hr es _ he)]
        rw [if_neg hcut]
        have hd := drawGlyph_drawn hq hr hs color cx y (entryWidth (entryAt s.mem f hdr.first (textCode s.mem t i)))
          hdr.gh (f + entryOffset (entryAt s.mem f hdr.first (textCode s.mem t i))) es
          (rs ++ [⟨t + i, 1⟩] ++ [⟨f + 8 + 4 * (textCode s.mem t i - hdr.first), 4⟩]) hg0.1
          (fun r h => ha r (List.mem_append_left _ (List.mem_append_right _ h))) hg0.2
        have hn := drawGlyphs_drawn hq hr hs color y f t hdr n (i + 1)
          (cx + entryWidth (entryAt s.mem f hdr.first (textCode s.mem t i)))
        refine (act_bind_ok _ hd).trans ((hn _ _ (fun r h => ha r (List.mem_append_right _ h))
          (fun g h => hg g (List.mem_cons_of_mem _ h))).trans ?_)
        simp [codeReads, hc]
    · simp only [hc] at ha hg ⊢
      have hb : s.params.readable (t + i) 1 = true := ha ⟨t + i, 1⟩ (by simp [codeReads])
      rw [act_bind_ok _ (readCode_drawn hq hr es rs hb)]
      rw [if_neg hc, drawGlyphs_drawn hq hr hs color y f t hdr n (i + 1) cx es _
        (fun r h => ha r (List.mem_append_right _ h)) hg]
      simp [codeReads, hc]

end Sys2Proof.Machine
end

