-- ==== Sys2Proof/Laws/Stop.lean ====
section
/-! SUPPORT. Commands that end at a pixel, a read or a text byte, under a host that waits for idle: what a draw has done
when it comes to a pixel (R138), and what DRAW_TEXT has done when it comes to a text byte (R167). -/

namespace Sys2Proof.Machine

variable {fg : Byte} {src : PixelSource} {width height : Nat} {s : State} {pk : Nat → Nat → Byte}
  {rd : Nat → Nat → List MemReq} {rq : Nat → Nat → List SampleReq}

/-! ### The window check -/

/-- The window check fails with the first value out of range (R111). -/
theorem checkWindow_bad {w : Window} {d : Nat} {v : Int} (hq : s.quiet = true) (h : w.firstBad s.params = some (d, v)) :
    checkWindow w.xs w.xe w.ys w.ye s = .error () (faultEntry .windowRange d v none s) := by
  have hx : s.params.xbytes = s.params.sources / 4 := rfl
  have hneg (a : Int) (b : Nat) : (¬(0 ≤ a ∧ a < b)) ↔ (a < 0 ∨ (b : Int) ≤ a) := by omega
  simp only [checkWindow_eq, hx, hneg, raise_quiet hq]
  rw [Window.firstBad] at h
  repeat' split at h
  · rw [if_pos ‹_›]; cases h; rfl
  · rw [if_neg ‹_›, if_pos ‹_›]; cases h; rfl
  · rw [if_neg ‹_›, if_neg ‹_›, if_pos ‹_›]; cases h; rfl
  · rw [if_neg ‹_›, if_neg ‹_›, if_neg ‹_›, if_pos ‹_›]; cases h; rfl
  · cases h

/-! ### A draw that comes to a pixel -/

/-- Pixel `(w, h)` comes before `(w0, h0)` in drawing order. -/
def pixelBefore (w0 h0 w h : Nat) : Prop := w < w0 ∨ (w = w0 ∧ h < h0)

/-- The samples before the pixel `(w0, h0)` are known, as in `PicksAs`. -/
def PicksUntil (fg : Byte) (src : PixelSource) (width height : Nat) (s : State) (pk : Nat → Nat → Byte)
    (rd : Nat → Nat → List MemReq) (rq : Nat → Nat → List SampleReq) (w0 h0 : Nat) : Prop :=
  ∀ w h es, w < width → h < height → pixelBefore w0 h0 w h →
    pick fg src width height w h (s.drawn es (pixelsBefore rd height w h) (pixelsBefore rq height w h)) =
      .ok (pk w h) (s.drawn es (pixelsBefore rd height w h ++ rd w h) (pixelsBefore rq height w h ++ rq w h))

/-- The rows of a column up to row `h0`: the bytes of the whole groups before it were sent. -/
theorem packRows_until (hq : s.quiet = true) {w h0 : Nat} (hp : PicksUntil fg src width height s pk rd rq w h0) (y : Nat)
    (hw : w < width) (hh : h0 < height) : ∀ (left : Nat) (acc : Byte) (es : List Event), left ≤ height → height - left ≤ h0 →
    ∃ acc' bs, packRows fg src y width height w left acc
        (s.drawn es (pixelsBefore rd height w (height - left)) (pixelsBefore rq height w (height - left))) =
      packRows fg src y width height w (height - h0) acc'
        (s.drawn (es ++ bs.map Event.dat) (pixelsBefore rd height w h0) (pixelsBefore rq height w h0)) ∧
      rowBytes (pk w) y height left acc = bs ++ rowBytes (pk w) y height (height - h0) acc' ∧
      bs.length = (y + h0) / 4 - (y + (height - left)) / 4
  | 0, acc, es, _, hh' => by omega
  | left + 1, acc, es, hle, hh' => by
    by_cases heq : height - (left + 1) = h0
    · refine ⟨acc, [], ?_, ?_, ?_⟩
      · rw [heq, show height - h0 = left + 1 by omega]; simp
      · rw [show height - h0 = left + 1 by omega]; rfl
      · rw [heq]; simp
    · have hnext : height - (left + 1) + 1 = height - left := by omega
      rw [packRows, act_bind_ok _ (hp w (height - (left + 1)) es hw (by omega) (Or.inr ⟨rfl, by omega⟩)),
        ← pixelsBefore_row, ← pixelsBefore_row, hnext, rowBytes, hnext]
      split
      · rename_i hc
        rw [act_bind_ok _ (sendData_drawn hq ..)]
        obtain ⟨b, hb⟩ : ∃ b, b = acc ||| (pk w (height - (left + 1)) &&& slotMask ((y + (height - (left + 1))) % 4)) := ⟨_, rfl⟩
        rw [← hb]
        obtain ⟨acc', bs, h1, h2, h3⟩ := packRows_until hq hp y hw hh left 0 (es ++ [.dat b]) (by omega) (by omega)
        refine ⟨acc', b :: bs, h1.trans (by simp), by rw [h2]; rfl, ?_⟩
        rw [List.length_cons, h3]
        omega
      · rename_i hc
        obtain ⟨acc', bs, h1, h2, h3⟩ := packRows_until hq hp y hw hh left _ es (by omega) (by omega)
        exact ⟨acc', bs, h1, h2, by rw [h3]; omega⟩

/-- A draw that ends at the pixel `(w0, h0)`: what was sent before it. -/
theorem packColumns_stop (hq : s.quiet = true) {w0 h0 : Nat} (hp : PicksUntil fg src width height s pk rd rq w0 h0)
    (y : Nat) (hw : w0 < width) (hh : h0 < height) {stop : List Event → State}
    (hstop : ∀ es, pick fg src width height w0 h0 (s.drawn es (pixelsBefore rd height w0 h0) (pixelsBefore rq height w0 h0)) =
      .error () (stop es)) : ∀ (left : Nat) (es : List Event), left ≤ width → width - left ≤ w0 →
    packColumns fg src y width height left
        (s.drawn es (pixelsBefore rd height (width - left) 0) (pixelsBefore rq height (width - left) 0)) =
      .error () (stop (es ++ (((List.range' (width - left) (w0 - (width - left))).flatMap fun w => columnBytes (pk w) y height) ++
        (columnBytes (pk w0) y height).take ((y + h0) / 4 - y / 4)).map Event.dat))
  | 0, es, _, h => by omega
  | left + 1, es, hle, h => by
    by_cases heq : width - (left + 1) = w0
    · obtain ⟨acc', bs, h1, h2, h3⟩ := packRows_until hq hp y hw hh height 0 es (Nat.le_refl _) (by omega)
      rw [Nat.sub_self] at h1 h3
      rw [rowBytes_column] at h2
      have hrows : packRows fg src y width height w0 (height - h0) acc'
          (s.drawn (es ++ bs.map Event.dat) (pixelsBefore rd height w0 h0) (pixelsBefore rq height w0 h0)) =
          .error () (stop (es ++ bs.map Event.dat)) := by
        obtain ⟨n, hn⟩ : ∃ n, height - h0 = n + 1 := ⟨height - h0 - 1, by omega⟩
        rw [hn, packRows, show height - (n + 1) = h0 by omega]
        exact act_bind_error _ (hstop _)
      have htake : (columnBytes (pk w0) y height).take ((y + h0) / 4 - y / 4) = bs := by
        rw [h2, show (y + h0) / 4 - y / 4 = bs.length by rw [h3]; simp]
        simp
      rw [packColumns, heq, act_bind_error _ (h1.trans hrows), htake, Nat.sub_self]
      simp
    · have hrow := packRows_quiet hq y (width - (left + 1))
        (fun h es hh' => hp _ h es (by omega) hh' (Or.inl (by omega))) height 0 es (Nat.le_refl _)
      rw [Nat.sub_self, rowBytes_column, ← pixelsBefore_column, ← pixelsBefore_column,
        show width - (left + 1) + 1 = width - left by omega] at hrow
      rw [packColumns, act_bind_ok _ hrow, packColumns_stop hq hp y hw hh hstop left _ (by omega) (by omega),
        show w0 - (width - (left + 1)) = (w0 - (width - left)) + 1 by omega, List.range'_succ,
        show width - (left + 1) + 1 = width - left by omega]
      simp

/-! ### Beginnings of a draw -/

/-- The columns before `w0` and a beginning of column `w0` are a beginning of all the columns. -/
theorem columns_prefix {β : Type} (F : Nat → List β) {w0 width : Nat} (hw : w0 < width) {bs : List β} (hb : bs <+: F w0) :
    (List.range w0).flatMap F ++ bs <+: (List.range width).flatMap F := by
  obtain ⟨cs, hcs⟩ := hb
  obtain ⟨n, hn⟩ : ∃ n, width = w0 + (n + 1) := ⟨width - w0 - 1, by omega⟩
  rw [hn, List.range_add, List.flatMap_append, List.range_succ_eq_map, List.map_cons, List.flatMap_cons, Nat.add_zero, ← hcs,
    List.append_assoc bs, ← List.append_assoc _ bs]
  exact List.prefix_append _ _

/-- The rows before `h0` are a beginning of all the rows. -/
theorem rows_prefix {β : Type} (F : Nat → List β) {h0 height : Nat} (h : h0 ≤ height) :
    (List.range h0).flatMap F <+: (List.range height).flatMap F := by
  obtain ⟨n, rfl⟩ := Nat.exists_eq_add_of_le h
  rw [List.range_add, List.flatMap_append]
  exact List.prefix_append _ _

/-- What the pixels before number `k` contribute, one item each, is what the first `k` pixels contribute. -/
theorem pixelsBefore_take {β : Type} (g : Nat → Nat → β) {height width k : Nat} (hk : k < width * height) :
    pixelsBefore (fun w h => [g w h]) height (k / height) (k % height) =
      (pixelsBefore (fun w h => [g w h]) height width 0).take k := by
  have hh : 0 < height := Nat.pos_of_ne_zero fun h => by simp [h] at hk
  have hw : k / height < width := Nat.div_lt_of_lt_mul (by rwa [Nat.mul_comm])
  have hcol := rows_prefix (fun h => [g (k / height) h]) (Nat.le_of_lt (Nat.mod_lt k hh))
  have hp := columns_prefix (fun w => (List.range height).flatMap fun h => [g w h]) hw hcol
  have hl := pixelsBefore_length (fun w h => [g w h]) (fun _ _ => rfl) height (k / height) (k % height)
  rw [Nat.mul_comm, Nat.div_add_mod] at hl
  rw [pixelsBefore_all]
  conv_rhs => rw [← hl]
  exact List.prefix_iff_eq_take.mp hp

/-- The bytes sent before pixel number `k` are the first `bytesBefore` bytes of the draw. -/
theorem drawBytes_take (pk : Nat → Nat → Byte) (y : Nat) {width height k : Nat} (hk : k < width * height) :
    (List.range (k / height)).flatMap (fun w => columnBytes (pk w) y height) ++
        (columnBytes (pk (k / height)) y height).take ((y + k % height) / 4 - y / 4) =
      (drawBytes pk y width height).take (bytesBefore y height k) := by
  have hh : 0 < height := Nat.pos_of_ne_zero fun h => by simp [h] at hk
  have hw : k / height < width := Nat.div_lt_of_lt_mul (by rwa [Nat.mul_comm])
  have hm := Nat.mod_lt k hh
  have hp := columns_prefix (fun w => columnBytes (pk w) y height) hw (List.take_prefix ((y + k % height) / 4 - y / 4) _)
  have hc (w : Nat) : (columnBytes (pk w) y height).length = (y + height - 1) / 4 - y / 4 + 1 := by
    rw [columnBytes_length, if_neg (by omega)]
  have hl : ((List.range (k / height)).flatMap (fun w => columnBytes (pk w) y height) ++
      (columnBytes (pk (k / height)) y height).take ((y + k % height) / 4 - y / 4)).length = bytesBefore y height k := by
    rw [List.length_append, List.length_flatMap, List.length_take, hc, Nat.min_eq_left (by omega), bytesBefore]
    simp [hc]
  conv_rhs => rw [← hl]
  exact List.prefix_iff_eq_take.mp hp

/-- `DrawBitmapCore` whose window fails the check (R138): only the opening of the bracket was emitted. -/
theorem drawBitmapCore_bad {color : Color} {x y d : Nat} {v : Int} (hq : s.quiet = true)
    (hw : (s.window x y width height).firstBad s.params = some (d, v)) :
    drawBitmapCore color x y width height src s = .error () (faultEntry .windowRange d v none (openBracket s)) := by
  rw [drawBitmapCore, peek_bind, act_bind_ok _ (select_quiet hq)]
  have hb := checkWindow_bad (s := openBracket s) (w := s.window x y width height) hq hw
  have hset : setAddressInternal (s.window x y width height).xs (s.window x y width height).xe
      (s.window x y width height).ys (s.window x y width height).ye (openBracket s) = _ := act_bind_error _ hb
  exact act_bind_error _ hset

/-- `DrawBitmapCore` that ends at its pixel number `k` (R138): what was sent before it. -/
theorem drawBitmapCore_stop {color : Color} {x y k : Nat} (hq : s.quiet = true)
    (hw : (s.window x y width height).inRange s.params = true) (hk : k < width * height)
    (hp : PicksUntil (colorByte color) src width height { s with sel := true } pk rd rq (k / height) (k % height))
    {stop : List Event → State}
    (hstop : ∀ es, pick (colorByte color) src width height (k / height) (k % height)
      (({ s with sel := true } : State).drawn es (pixelsBefore rd height (k / height) (k % height))
        (pixelsBefore rq height (k / height) (k % height))) = .error () (stop es)) :
    drawBitmapCore color x y width height src s =
      .error () (stop (openEvents s.params ++ windowEvents s.params (s.window x y width height) ++
        ((drawBytes pk y width height).take (bytesBefore y height k)).map Event.dat)) := by
  have hh : 0 < height := Nat.pos_of_ne_zero fun h => by simp [h] at hk
  have hw0 : k / height < width := Nat.div_lt_of_lt_mul (by rwa [Nat.mul_comm])
  have hopen : openBracket s = ({ s with sel := true } : State).emitted (openEvents s.params) := rfl
  have hset : setAddressInternal (s.window x y width height).xs (s.window x y width height).xe
      (s.window x y width height).ys (s.window x y width height).ye (openBracket s) =
      .ok () (({ s with sel := true } : State).drawn
        (openEvents s.params ++ windowEvents s.params (s.window x y width height)) [] []) := by
    rw [setAddressInternal_quiet (by exact hq) (by exact hw), hopen, emitted_append, emitted_drawn]
    rfl
  have hcols := packColumns_stop (by exact hq) hp y hw0 (Nat.mod_lt _ hh) hstop width
    (openEvents s.params ++ windowEvents s.params (s.window x y width height)) (Nat.le_refl _)
    (by rw [Nat.sub_self]; exact Nat.zero_le _)
  rw [Nat.sub_self, pixelsBefore_zero, pixelsBefore_zero, Nat.sub_zero, ← List.range_eq_range', drawBytes_take pk y hk] at hcols
  rw [drawBitmapCore, peek_bind, act_bind_ok _ (select_quiet hq)]
  change (setAddressInternal (s.window x y width height).xs (s.window x y width height).xe
      (s.window x y width height).ys (s.window x y width height).ye >>= _) _ = _
  rw [act_bind_ok _ hset]
  exact act_bind_error _ hcols

/-! ### The pixel at which a draw ends -/

/-- The number of a pixel that comes before pixel number `k` is less than `k`. -/
theorem number_lt {height k w h : Nat} (hh : h < height) (hb : pixelBefore (k / height) (k % height) w h) :
    w * height + h < k := by
  have hk := Nat.div_add_mod k height
  rcases hb with hb | ⟨rfl, hb⟩
  · have : (w + 1) * height ≤ k / height * height := Nat.mul_le_mul_right _ hb
    have h1 : (w + 1) * height = w * height + height := by ring
    have h2 : k / height * height = height * (k / height) := Nat.mul_comm _ _
    omega
  · rw [Nat.mul_comm]; omega

theorem number_div {height w h : Nat} (hh : h < height) : (w * height + h) / height = w := by
  rw [Nat.mul_comm, Nat.mul_add_div (by omega), Nat.div_eq_of_lt hh, Nat.add_zero]

theorem number_mod {height w h : Nat} (hh : h < height) : (w * height + h) % height = h := by
  rw [Nat.mul_comm, Nat.mul_add_mod, Nat.mod_eq_of_lt hh]

/-- The samples of a bitmap in host memory up to pixel number `k` (R137). -/
theorem picksUntil_mem (color : Color) (base k : Nat) (hq : s.quiet = true) (hr : s.racy = []) (hk : k < width * height)
    (ha : ∀ r ∈ (bitmapReads base width height).take k, s.params.readable r.addr r.width = true)
    (hd : s.bgValid = true ∨ ∀ j < k, bitmapBit s.mem base width (j / height) (j % height) = true) :
    PicksUntil (colorByte color) (.mem base) width height s
      (fun w h => pixelByte color s.bg (bitmapBit s.mem base width w h))
      (fun w h => [⟨bitmapAddr base width w h, 1⟩]) (fun _ _ => []) (k / height) (k % height) := by
  intro w h es hw hh hb
  have hj := number_lt hh hb
  have hread : s.params.readable (bitmapAddr base width w h) 1 = true := by
    refine ha ⟨bitmapAddr base width w h, 1⟩ ?_
    rw [bitmapReads_eq, ← pixelsBefore_take _ hk]
    rcases hb with hb | ⟨rfl, hb⟩
    · exact List.mem_append_left _ (List.mem_flatMap.mpr ⟨w, List.mem_range.mpr hb,
        List.mem_flatMap.mpr ⟨h, List.mem_range.mpr hh, List.mem_singleton.mpr rfl⟩⟩)
    · exact List.mem_append_right _ (List.mem_flatMap.mpr ⟨h, List.mem_range.mpr hb, List.mem_singleton.mpr rfl⟩)
  rw [pick_of_sample (glyphBit_drawn hq hr base w h es _ _ hread)]
  · simp
  · refine hd.imp id fun hall => ?_
    have := hall _ hj
    rwa [number_div hh, number_mod hh] at this

/-- The samples of a `HOST` source up to pixel number `k` (R136). -/
theorem picksUntil_host (color : Color) (k : Nat) (hq : s.quiet = true)
    (hd : s.bgValid = true ∨ ∀ j < k, s.answerAt j = true) :
    PicksUntil (colorByte color) .host width height s
      (fun w h => pixelByte color s.bg (s.answerAt (w * height + h)))
      (fun _ _ => []) (fun w h => [{ width := width, height := height, w := w, h := h }]) (k / height) (k % height) := by
  intro w h es hw hh hb
  have hs : srcSample .host width height w h (s.drawn es (pixelsBefore (fun _ _ => []) height w h)
      (pixelsBefore (fun w h => [{ width := width, height := height, w := w, h := h }]) height w h)) = _ :=
    sample_drawn hq es _ _ { width := width, height := height, w := w, h := h }
  rw [pixelsBefore_length _ (fun _ _ => rfl)] at hs
  rw [pick_of_sample hs]
  · simp
  · exact hd.imp id fun hall => hall _ (number_lt hh hb)

/-- What the pixels before number `k` and that pixel contribute. -/
theorem pixelsBefore_take_succ {β : Type} (g : Nat → Nat → β) {height width k : Nat} (hk : k < width * height) :
    pixelsBefore (fun w h => [g w h]) height (k / height) (k % height) ++ [g (k / height) (k % height)] =
      (pixelsBefore (fun w h => [g w h]) height width 0).take (k + 1) := by
  have hh : 0 < height := Nat.pos_of_ne_zero fun h => by simp [h] at hk
  have hw : k / height < width := Nat.div_lt_of_lt_mul (by rwa [Nat.mul_comm])
  rw [← pixelsBefore_row (fun w h => [g w h])]
  have hcol := rows_prefix (fun h => [g (k / height) h]) (Nat.mod_lt k hh)
  have hp := columns_prefix (fun w => (List.range height).flatMap fun h => [g w h]) hw hcol
  have hl := pixelsBefore_length (fun w h => [g w h]) (fun _ _ => rfl) height (k / height) (k % height + 1)
  rw [← Nat.add_assoc, Nat.mul_comm, Nat.div_add_mod] at hl
  rw [pixelsBefore_all]
  conv_rhs => rw [← hl]
  exact List.prefix_iff_eq_take.mp hp

/-- A draw from host memory with no background ends at its first false sample (R138). -/
theorem drawMem_unset {color : Color} {x y base k : Nat} (hq : s.quiet = true) (hr : s.racy = [])
    (hw : (s.window x y width height).inRange s.params = true) (hb : s.bgValid = false) (hk : k < width * height)
    (ha : ∀ r ∈ (bitmapReads base width height).take (k + 1), s.params.readable r.addr r.width = true)
    (hall : ∀ j < k, bitmapBit s.mem base width (j / height) (j % height) = true)
    (hbit : bitmapBit s.mem base width (k / height) (k % height) = false) :
    drawBitmapCore color x y width height (.mem base) s =
      .error () (faultEntry .bgUnset 0 0 none
        { s.drawnTo (s.window x y width height) (bitmapBytes s color base y width height) y height k with
          memReads := s.memReads ++ (bitmapReads base width height).take (k + 1) }) := by
  have hpu := picksUntil_mem (s := { s with sel := true }) color base k (by exact hq) (by exact hr) hk
    (fun r hr' => ha r (List.take_subset_take_left _ (Nat.le_succ k) hr')) (Or.inr hall)
  have htake := pixelsBefore_take_succ (fun w h => (⟨bitmapAddr base width w h, 1⟩ : MemReq)) hk
  have hread : s.params.readable (bitmapAddr base width (k / height) (k % height)) 1 = true := by
    refine ha ⟨_, 1⟩ ?_
    rw [bitmapReads_eq, ← htake]
    exact List.mem_append_right _ (List.mem_singleton.mpr rfl)
  refine (drawBitmapCore_stop hq hw hk hpu (stop := fun es => faultEntry .bgUnset 0 0 none
    (({ s with sel := true } : State).drawn es ((bitmapReads base width height).take (k + 1))
      (pixelsBefore (fun _ _ => []) height (k / height) (k % height)))) ?_).trans ?_
  · intro es
    have hs := glyphBit_drawn (s := { s with sel := true }) (height := height) (by exact hq) (by exact hr) base (k / height)
      (k % height) es (pixelsBefore (fun w h => [⟨bitmapAddr base width w h, 1⟩]) height (k / height) (k % height))
      (pixelsBefore (fun _ _ => []) height (k / height) (k % height)) hread
    rw [show bitmapBit ({ s with sel := true } : State).mem base width (k / height) (k % height) = false from hbit, htake,
      ← bitmapReads_eq] at hs
    exact pick_unset (by exact hq) hs hb
  · have hn : pixelsBefore (fun _ _ => ([] : List SampleReq)) height (k / height) (k % height) = [] := by simp [pixelsBefore]
    rw [hn]
    simp [State.drawn, State.afterAnswers, State.drawnTo, State.emitted, bitmapBytes]

/-- A draw from host memory ends at its first read that is refused (R138, R182). -/
theorem drawMem_refused {color : Color} {x y base k : Nat} (hq : s.quiet = true) (hr : s.racy = [])
    (hw : (s.window x y width height).inRange s.params = true) (hk : k < width * height)
    (ha : ∀ r ∈ (bitmapReads base width height).take k, s.params.readable r.addr r.width = true)
    (hd : s.bgValid = true ∨ ∀ j < k, bitmapBit s.mem base width (j / height) (j % height) = true)
    (hn : s.params.readable (bitmapAddr base width (k / height) (k % height)) 1 = false) :
    drawBitmapCore color x y width height (.mem base) s =
      .error () (faultEntry .memError 0 1 (some (bitmapAddr base width (k / height) (k % height)))
        { s.drawnTo (s.window x y width height) (bitmapBytes s color base y width height) y height k with
          memReads := s.memReads ++ (bitmapReads base width height).take k }) := by
  have hpu := picksUntil_mem (s := { s with sel := true }) color base k (by exact hq) (by exact hr) hk ha hd
  have htake := pixelsBefore_take (fun w h => (⟨bitmapAddr base width w h, 1⟩ : MemReq)) hk
  refine (drawBitmapCore_stop hq hw hk hpu (stop := fun es =>
    faultEntry .memError 0 1 (some (bitmapAddr base width (k / height) (k % height)))
    (({ s with sel := true } : State).drawn es ((bitmapReads base width height).take k)
      (pixelsBefore (fun _ _ => []) height (k / height) (k % height)))) ?_).trans ?_
  · intro es
    rw [htake, ← bitmapReads_eq, pick, srcSample, glyphBit]
    refine act_bind_error _ (act_bind_error _ ?_)
    rw [memRead_eq (by exact hq)]
    exact if_neg (by simpa [bitmapAddr] using hn)
  · have hn : pixelsBefore (fun _ _ => ([] : List SampleReq)) height (k / height) (k % height) = [] := by simp [pixelsBefore]
    rw [hn]
    simp [State.drawn, State.afterAnswers, State.drawnTo, State.emitted, bitmapBytes]

/-- A draw from the host's samples with no background ends at its first false sample (R138). -/
theorem drawHost_unset {color : Color} {x y k : Nat} (hq : s.quiet = true)
    (hw : (s.window x y width height).inRange s.params = true) (hb : s.bgValid = false) (hk : k < width * height)
    (hall : ∀ j < k, s.answerAt j = true) (hans : s.answerAt k = false) :
    drawBitmapCore color x y width height .host s =
      .error () (faultEntry .bgUnset 0 0 none
        { (s.afterAnswers (k + 1)).drawnTo (s.window x y width height)
            (drawBytes (fun w h => pixelByte color s.bg (s.answerAt (w * height + h))) y width height) y height k with
          sampleLog := s.sampleLog ++ (drawRequests width height).take (k + 1) }) := by
  have hpu := picksUntil_host (s := { s with sel := true }) (width := width) (height := height) color k (by exact hq)
    (Or.inr hall)
  have htake := pixelsBefore_take_succ
    (fun w h => ({ width := width, height := height, w := w, h := h } : SampleReq)) hk
  refine (drawBitmapCore_stop hq hw hk hpu (stop := fun es => faultEntry .bgUnset 0 0 none
    (({ s with sel := true } : State).drawn es (pixelsBefore (fun _ _ => []) height (k / height) (k % height))
      ((drawRequests width height).take (k + 1)))) ?_).trans ?_
  · intro es
    have hs := sample_drawn (s := { s with sel := true }) (by exact hq) es
      (pixelsBefore (fun _ _ => []) height (k / height) (k % height))
      (pixelsBefore (fun w h => [{ width := width, height := height, w := w, h := h }]) height (k / height) (k % height))
      { width := width, height := height, w := k / height, h := k % height }
    rw [pixelsBefore_length _ (fun _ _ => rfl), Nat.mul_comm, Nat.div_add_mod, htake, ← drawRequests_eq] at hs
    rw [show ({ s with sel := true } : State).answerAt k = false from hans] at hs
    exact pick_unset (by exact hq) hs hb
  · have hn : pixelsBefore (fun _ _ => ([] : List MemReq)) height (k / height) (k % height) = [] := by simp [pixelsBefore]
    have hlen : ((drawRequests width height).take (k + 1)).length = k + 1 := by
      rw [drawRequests_eq, ← htake, List.length_append, pixelsBefore_length _ (fun _ _ => rfl), Nat.mul_comm, Nat.div_add_mod]
      rfl
    rw [hn]
    simp [State.drawn, State.afterAnswers, State.drawnTo, State.emitted, hlen, faultEntry, faultRegisters, endCommand,
      State.answerAt]

/-! ### The first read that is refused -/

/-- A read that is not admitted, in a part of a command (R13). -/
theorem memRead_refused (hq : s.quiet = true) (es : List Event) (rs : List MemReq) {a n : Nat}
    (hn : s.params.readable a n = false) :
    memRead a n (s.drawn es rs []) = .error () (faultEntry .memError 0 n (some a) (s.drawn es rs [])) := by
  rw [memRead_eq (by exact hq)]
  exact if_neg (by simpa using hn)

/-- A header of which one read is refused (R160, R182). -/
theorem readHeader_refused (hq : s.quiet = true) (hr : s.racy = []) (es : List Event) (rs : List MemReq) {f : Nat}
    {pre post : List MemReq} {r : MemReq} (hf : headerReads f = pre ++ r :: post)
    (ha : ∀ q ∈ pre, s.params.readable q.addr q.width = true) (hn : s.params.readable r.addr r.width = false) :
    readHeader f (s.drawn es rs []) =
      .error () (faultEntry .memError 0 r.width (some r.addr) (s.drawn es (rs ++ pre) [])) := by
  match pre, hf with
  | [], hf =>
    injection hf with h1 _
    subst h1
    rw [readHeader, act_bind_error _ (memRead_refused hq es rs hn), List.append_nil]
  | [_], hf =>
    injection hf with h1 hf
    injection hf with h2 _
    subst h1 h2
    rw [readHeader, act_bind_ok _ (memRead_drawn hq hr es rs [] (ha _ (List.mem_cons_self ..))),
      act_bind_error _ (memRead_refused hq es _ hn)]
  | [_, _], hf =>
    injection hf with h1 hf
    injection hf with h2 hf
    injection hf with h3 _
    subst h1 h2 h3
    rw [readHeader, act_bind_ok _ (memRead_drawn hq hr es rs [] (ha _ (List.mem_cons_self ..))),
      act_bind_ok _ (memRead_drawn hq hr es _ [] (ha _ (List.mem_cons_of_mem _ (List.mem_cons_self ..)))),
      act_bind_error _ (memRead_refused hq es _ hn), List.append_assoc]
    rfl
  | _ :: _ :: _ :: pre, hf =>
    have hl := congrArg List.length hf
    simp [headerReads] at hl

/-- A width pass of which one read is refused (R164, R170). -/
theorem textWidthFrom_refused (hq : s.quiet = true) (hr : s.racy = []) (f first last t : Nat) {post : List MemReq}
    {r : MemReq} (hn : s.params.readable r.addr r.width = false) :
    ∀ (n i tw : Nat) (es : List Event) (rs pre : List MemReq), readsFrom s.mem f first last t i n = pre ++ r :: post →
      (∀ q ∈ pre, s.params.readable q.addr q.width = true) →
      textWidthFrom f first last t n i tw (s.drawn es rs []) =
        .error () (faultEntry .memError 0 r.width (some r.addr) (s.drawn es (rs ++ pre) []))
  | 0, i, tw, es, rs, pre, hf, _ => by simp [readsFrom] at hf
  | n + 1, i, tw, es, rs, pre, hf, ha => by
    rw [readsFrom_succ, codeReads, List.cons_append] at hf
    rw [textWidthFrom]
    cases pre with
    | nil =>
      injection hf with h1 _
      subst h1
      rw [act_bind_error _ (memRead_refused hq es rs hn), List.append_nil]
    | cons q pre =>
      injection hf with h1 hf
      subst h1
      rw [act_bind_ok _ (readCode_drawn hq hr es rs (ha _ (List.mem_cons_self ..)))]
      have ha' := fun q h => ha q (List.mem_cons_of_mem _ h)
      by_cases hc : representable first last (textCode s.mem t i) = true
      · rw [if_pos hc] at hf ⊢
        cases pre with
        | nil =>
          injection hf with h1 _
          subst h1
          exact act_bind_error _ (memRead_refused hq es _ hn)
        | cons q pre =>
          injection hf with h1 hf
          subst h1
          rw [act_bind_ok _ (readEntry_drawn hq hr es _ (ha' _ (List.mem_cons_self ..))),
            textWidthFrom_refused hq hr f first last t hn n (i + 1) _ es _ pre hf fun q h => ha' q (List.mem_cons_of_mem _ h)]
          simp
      · rw [if_neg hc] at hf ⊢
        rw [textWidthFrom_refused hq hr f first last t hn n (i + 1) tw es _ pre hf ha']
        simp

/-- The alignment of a text of which one read is refused (R168, R170). -/
theorem startColumn_refused (hq : s.quiet = true) (hr : s.racy = []) (align : Align) (x f first last t n : Nat)
    (es : List Event) (rs : List MemReq) {pre post : List MemReq} {r : MemReq}
    (hf : alignReads s.mem align f first last t n = pre ++ r :: post)
    (ha : ∀ q ∈ pre, s.params.readable q.addr q.width = true) (hn : s.params.readable r.addr r.width = false) :
    startColumn align x f first last t n (s.drawn es rs []) =
      .error () (faultEntry .memError 0 r.width (some r.addr) (s.drawn es (rs ++ pre) [])) := by
  cases align with
  | left => simp [alignReads] at hf
  | reserved => simp [alignReads] at hf
  | center =>
    rw [alignReads, ← readsFrom_zero] at hf
    exact act_bind_error _ (textWidthFrom_refused hq hr f first last t hn n 0 0 es rs pre hf ha)
  | right =>
    rw [alignReads, ← readsFrom_zero] at hf
    exact act_bind_error _ (textWidthFrom_refused hq hr f first last t hn n 0 0 es rs pre hf ha)

/-! ### DRAW_TEXT that comes to a text byte -/

/-- The draw pass over the next `k` text bytes, none of whose glyphs fails or passes the right edge (R167, R169, R170). -/
theorem drawGlyphs_until (hq : s.quiet = true) (hr : s.racy = []) (hs : s.sel = false) (color : Color) (y f t : Nat)
    (hdr : FontHeader) (m : Nat) :
    ∀ (k i cx : Nat) (es : List Event) (rs : List MemReq),
      (∀ r ∈ (glyphPass s.mem f t s.panelW.toNat hdr k i cx).2, s.params.readable r.addr r.width = true) →
      (∀ g ∈ (glyphPass s.mem f t s.panelW.toNat hdr k i cx).1,
        (s.window g.cx y g.gw hdr.gh).inRange s.params = true ∧ bitmapDrawable s g.base g.gw hdr.gh = true) →
      (∀ j < k, representable hdr.first hdr.last (textCode s.mem t (i + j)) = true →
        cx + widthFrom s.mem f hdr.first hdr.last t i (j + 1) ≤ s.panelW.toNat) →
      drawGlyphs color y f t s.panelW.toNat hdr (k + m) i cx (s.drawn es rs []) =
        drawGlyphs color y f t s.panelW.toNat hdr m (i + k) (cx + widthFrom s.mem f hdr.first hdr.last t i k) (s.drawn
          (es ++ (glyphPass s.mem f t s.panelW.toNat hdr k i cx).1.flatMap fun g =>
            drawEvents s.params (s.window g.cx y g.gw hdr.gh) (bitmapBytes s color g.base y g.gw hdr.gh))
          (rs ++ (glyphPass s.mem f t s.panelW.toNat hdr k i cx).2) [])
  | 0, i, cx, es, rs, _, _, _ => by simp [glyphPass, widthFrom]
  | k + 1, i, cx, es, rs, ha, hg, hfit => by
    rw [glyphPass] at ha hg ⊢
    rw [show k + 1 + m = (k + m) + 1 by omega, drawGlyphs]
    by_cases hc : representable hdr.first hdr.last (textCode s.mem t i) = true
    · have h0 := hfit 0 (by omega) hc
      rw [widthFrom_succ, codeWidth, if_pos hc] at h0
      have hw0 : widthFrom s.mem f hdr.first hdr.last t (i + 1) 0 = 0 := by simp [widthFrom]
      have hcut : ¬cx + entryWidth (entryAt s.mem f hdr.first (textCode s.mem t i)) > s.panelW.toNat := by omega
      simp only [hc, hcut, if_true, if_false] at ha hg ⊢
      have hb : s.params.readable (t + i) 1 = true := ha ⟨t + i, 1⟩ (by simp [codeReads])
      have he : s.params.readable (f + 8 + 4 * (textCode s.mem t i - hdr.first)) 4 = true :=
        ha ⟨f + 8 + 4 * (textCode s.mem t i - hdr.first), 4⟩ (by simp [codeReads, hc])
      have hg0 := hg _ (List.mem_cons_self ..)
      rw [act_bind_ok _ (readCode_drawn hq hr es rs hb)]
      rw [if_pos hc, act_bind_ok _ (readEntry_drawn hq hr es _ he)]
      rw [if_neg hcut]
      have hd := drawGlyph_drawn hq hr hs color cx y (entryWidth (entryAt s.mem f hdr.first (textCode s.mem t i)))
        hdr.gh (f + entryOffset (entryAt s.mem f hdr.first (textCode s.mem t i))) es
        (rs ++ [⟨t + i, 1⟩] ++ [⟨f + 8 + 4 * (textCode s.mem t i - hdr.first), 4⟩]) hg0.1
        (fun r h => ha r (List.mem_append_left _ (List.mem_append_right _ h))) hg0.2
      have hn := drawGlyphs_until hq hr hs color y f t hdr m k (i + 1)
        (cx + entryWidth (entryAt s.mem f hdr.first (textCode s.mem t i)))
      refine (act_bind_ok _ hd).trans ((hn _ _ (fun r h => ha r (List.mem_append_right _ h))
        (fun g h => hg g (List.mem_cons_of_mem _ h)) fun j hj hcj => ?_).trans ?_)
      · have hj' := hfit (j + 1) (by omega) (by rwa [Nat.add_comm j 1, ← Nat.add_assoc])
        rw [widthFrom_succ, codeWidth, if_pos hc] at hj'
        omega
      · rw [widthFrom_succ, codeWidth, if_pos hc, show i + 1 + k = i + (k + 1) by omega]
        simp [codeReads, hc, Nat.add_assoc]
    · simp only [hc] at ha hg ⊢
      have hb : s.params.readable (t + i) 1 = true := ha ⟨t + i, 1⟩ (by simp [codeReads])
      rw [act_bind_ok _ (readCode_drawn hq hr es rs hb)]
      rw [if_neg hc, drawGlyphs_until hq hr hs color y f t hdr m k (i + 1) cx es _
        (fun r h => ha r (List.mem_append_right _ h)) hg fun j hj hcj => ?_]
      · rw [widthFrom_succ, codeWidth, if_neg hc, show i + 1 + k = i + (k + 1) by omega]
        simp [codeReads, hc]
      · have hj' := hfit (j + 1) (by omega) (by rwa [Nat.add_comm j 1, ← Nat.add_assoc])
        rw [widthFrom_succ, codeWidth, if_neg hc] at hj'
        omega

/-- DRAW_TEXT of which nothing fails before byte `i` of its text comes to that byte. -/
theorem drawText_reaches {align : Align} {i : Nat} (h : TextReaches s align i) (color : Color) :
    drawTextBody color align s =
      drawGlyphs color (coord s 1) s.fontBase.toNat (addrOperand s 5) s.panelW.toNat s.font (lengthOperand s - i) i
        (s.textCursor align i) (s.textTo color align i []) := by
  have hread := h.readable
  rw [State.textReads] at hread
  have h1 : ∀ r ∈ headerReads s.fontBase.toNat, s.params.readable r.addr r.width = true :=
    fun r hr => hread r (List.mem_append_left _ (List.mem_append_left _ hr))
  have h2 := fun r hr => hread r (List.mem_append_left _ (List.mem_append_right _ hr))
  have h3 := fun r hr => hread r (List.mem_append_right _ hr)
  have hhdr := readHeader_drawn h.quiet h.unchanged [] [] h1
  rw [drawn_nil] at hhdr
  have hstart := startColumn_drawn h.quiet h.unchanged align (coord s 0) s.fontBase.toNat s.font.first s.font.last
    (addrOperand s 5) (lengthOperand s) [] ([] ++ headerReads s.fontBase.toNat) h2
  have hpass := drawGlyphs_until h.quiet h.unchanged h.closed color (coord s 1) s.fontBase.toNat (addrOperand s 5) s.font
    (lengthOperand s - i) i 0 (s.textStart align) []
    ([] ++ headerReads s.fontBase.toNat ++ alignReads s.mem align s.fontBase.toNat s.font.first s.font.last (addrOperand s 5)
      (lengthOperand s)) h3 (fun g hg => ⟨h.windows g hg, h.drawable g hg⟩) (by
      intro j hj hc
      rw [widthFrom_zero]
      exact h.fits j hj (by rwa [Nat.zero_add] at hc))
  rw [show i + (lengthOperand s - i) = lengthOperand s by have := h.inText; omega, widthFrom_zero, Nat.zero_add] at hpass
  have hbody : drawTextBody color align s = drawTextWithFont color align s := by
    rw [drawTextBody, peek_bind]
    simp [h.font]
  rw [hbody, drawTextWithFont]
  simp only [peek_bind]
  rw [act_bind_ok _ hhdr]
  change (if coord s 1 + s.font.gh > s.panelH.toNat then _ else _ : Act Unit) _ = _
  rw [if_neg (by have := h.height; omega)]
  refine (act_bind_ok _ hstart).trans (hpass.trans ?_)
  congr 1
  simp [State.drawn, State.afterAnswers, State.textTo, State.textReads, State.textPass, State.emitted]

/-- A DRAW_TEXT that has come to a text byte, as a part of a command. -/
theorem textTo_drawn (color : Color) (align : Align) (i : Nat) (more : List MemReq) :
    s.textTo color align i more = s.drawn ((s.textPass align i).1.flatMap fun g =>
      drawEvents s.params (s.window g.cx (coord s 1) g.gw s.font.gh) (bitmapBytes s color g.base (coord s 1) g.gw s.font.gh))
      (s.textReads align i ++ more) [] := by
  simp [State.textTo, State.drawn, State.afterAnswers, State.emitted]

/-- DRAW_TEXT at a byte of its text whose reads are admitted and whose glyph lies inside the panel draws that glyph next. -/
theorem drawText_glyph {align : Align} {i : Nat} (h : GlyphReaches s align i) (color : Color) {t : State}
    (hd : drawBitmapCore color (s.textCursor align i) (coord s 1) (s.glyphWidth i) s.font.gh (.mem (s.glyphBase i))
      (s.textTo color align i (s.readsOf i)) = .error () t) :
    drawTextBody color align s = .error () t := by
  have hc : representable s.font.first s.font.last (textCode s.mem (addrOperand s 5) i) = true := h.code
  have hb : s.params.readable (addrOperand s 5 + i) 1 = true := h.readableCode ⟨_, 1⟩ (by simp [State.readsOf, codeReads])
  have he : s.params.readable (s.fontBase.toNat + 8 + 4 * (textCode s.mem (addrOperand s 5) i - s.font.first)) 4 = true :=
    h.readableCode ⟨_, 4⟩ (by simp [State.readsOf, codeReads, hc])
  obtain ⟨n, hn⟩ : ∃ n, lengthOperand s - i = n + 1 := ⟨lengthOperand s - i - 1, by have := h.inText; omega⟩
  have h1 := readCode_drawn h.quiet h.unchanged ((s.textPass align i).1.flatMap fun g =>
    drawEvents s.params (s.window g.cx (coord s 1) g.gw s.font.gh) (bitmapBytes s color g.base (coord s 1) g.gw s.font.gh))
    (s.textReads align i ++ []) hb
  have h2 := readEntry_drawn h.quiet h.unchanged ((s.textPass align i).1.flatMap fun g =>
    drawEvents s.params (s.window g.cx (coord s 1) g.gw s.font.gh) (bitmapBytes s color g.base (coord s 1) g.gw s.font.gh))
    (s.textReads align i ++ [] ++ [⟨addrOperand s 5 + i, 1⟩]) he
  have hreads : s.textReads align i ++ [] ++ [⟨addrOperand s 5 + i, 1⟩] ++
      [⟨s.fontBase.toNat + 8 + 4 * (textCode s.mem (addrOperand s 5) i - s.font.first), 4⟩] =
      s.textReads align i ++ s.readsOf i := by
    simp [State.readsOf, codeReads, hc]
  rw [hreads, ← textTo_drawn] at h2
  rw [drawText_reaches h.toTextReaches, hn, drawGlyphs, textTo_drawn]
  refine (act_bind_ok _ h1).trans ?_
  rw [if_pos hc]
  refine (act_bind_ok _ h2).trans ?_
  change (if s.textCursor align i + s.glyphWidth i > s.panelW.toNat then _ else _ : Act Unit) _ = _
  rw [if_neg (by have := h.inside; omega)]
  exact act_bind_error _ hd

/-- DRAW_TEXT at a byte of its text whose byte or entry is refused. -/
theorem drawText_refused {align : Align} {i : Nat} (h : TextReaches s align i) (color : Color) {pre post : List MemReq}
    {r : MemReq} (hr : s.readsOf i = pre ++ r :: post)
    (hpre : ∀ q ∈ pre, s.params.readable q.addr q.width = true) (hn : s.params.readable r.addr r.width = false) :
    drawTextBody color align s =
      .error () (faultEntry .memError 0 r.width (some r.addr) (s.textTo color align i pre)) := by
  obtain ⟨n, hn'⟩ : ∃ n, lengthOperand s - i = n + 1 := ⟨lengthOperand s - i - 1, by have := h.inText; omega⟩
  rw [drawText_reaches h, hn', drawGlyphs]
  rw [State.readsOf, codeReads] at hr
  cases pre with
  | nil =>
    injection hr with h1 h2
    subst h1
    refine act_bind_error _ ?_
    rw [memRead_eq (by exact h.quiet)]
    exact if_neg (by rw [show (s.textTo color align i []).params = s.params from rfl]; simpa using hn)
  | cons q pre =>
    injection hr with h1 h2
    subst h1
    have hb : s.params.readable (addrOperand s 5 + i) 1 = true := hpre ⟨_, 1⟩ (List.mem_cons_self ..)
    by_cases hc : representable s.font.first s.font.last (textCode s.mem (addrOperand s 5) i) = true
    · rw [if_pos hc] at h2
      cases pre with
      | nil =>
        injection h2 with h1 h2
        subst h1
        have h1 := readCode_drawn h.quiet h.unchanged ((s.textPass align i).1.flatMap fun g =>
          drawEvents s.params (s.window g.cx (coord s 1) g.gw s.font.gh)
            (bitmapBytes s color g.base (coord s 1) g.gw s.font.gh)) (s.textReads align i ++ []) hb
        rw [textTo_drawn]
        refine (act_bind_ok _ h1).trans ?_
        rw [if_pos hc]
        refine act_bind_error _ ?_
        rw [readEntry, memRead_eq (by exact h.quiet)]
        refine (if_neg (by simpa using hn)).trans ?_
        rw [textTo_drawn]
        simp
      | cons q pre =>
        injection h2 with h1 h2
        exact absurd h2 (by simp)
    · rw [if_neg hc] at h2
      exact absurd h2 (by simp)

end Sys2Proof.Machine
end

