-- ==== Sys2Proof/Laws/Strike.lean ====
section
/-! SUPPORT. A host action that comes in the middle of a command (R17, R183, R200): the host waits `k` turns and then
writes `CMD` or resets the block. Each piece of a command either does what it does under a host that waits for idle, the
action still to come, or the command is struck at a stage between its start and its undisturbed end. -/

namespace Sys2Proof.Machine

/-! ### The action that is due -/

/-- `s` with the action `h` to come after `k` turns of the host, and `rest` after it. -/
def State.due (s : State) (k : Nat) (h : HostAction) (rest : List HostAction) : State :=
  { s with host := List.replicate k .pause ++ h :: rest }

/-- A reset, or a `CMD` write with nothing after it. -/
def Strikes (h : HostAction) (rest : List HostAction) : Prop := h = .reset ∨ ((∃ w, h = .write 0 4 w) ∧ rest = [])

/-- What a command does before its register writes: everything but this stays. -/
def State.worked (s v : State) : State :=
  { s with
    sel := v.sel, poll := v.poll, sampleReq := v.sampleReq, pins := v.pins, trace := v.trace, busyLine := v.busyLine
    samples := v.samples, draws := v.draws, memReads := v.memReads, sampleLog := v.sampleLog }

/-- What crossed the interface up to `s` is a beginning of what did up to `u`. -/
structure Grows (s u : State) : Prop where
  trace : s.trace <+: u.trace
  memReads : s.memReads <+: u.memReads
  sampleLog : s.sampleLog <+: u.sampleLog
  params : u.params = s.params
  mem : u.mem = s.mem

theorem Grows.refl (s : State) : Grows s s := ⟨List.prefix_rfl, List.prefix_rfl, List.prefix_rfl, rfl, rfl⟩

theorem Grows.trans {s t u : State} (h : Grows s t) (h' : Grows t u) : Grows s u where
  trace := h.trace.trans h'.trace
  memReads := h.memReads.trans h'.memReads
  sampleLog := h.sampleLog.trans h'.sampleLog
  params := h'.params.trans h.params
  mem := h'.mem.trans h.mem

/-- A command that starts in `s` and ends undisturbed in `u` was struck by `h` at a stage in between. -/
inductive Struck (h : HostAction) (rest : List HostAction) (s u : State) : State → Prop
  | overrun (w : Word) (v : State) : h = .write 0 4 w → v = s.worked v → Grows s v → Grows v u →
      Struck h rest s u (faultEntry .cmdOverrun 0 (w.toNat % 65536 : Nat) none v)
  | reset (v : State) : h = .reset → Grows s v → Grows v u → Struck h rest s u (applyReset { v with host := rest })

variable {α β : Type} {h : HostAction} {rest : List HostAction}

theorem Struck.later {s t u w : State} (hs : Struck h rest s t w) (hu : Grows t u) : Struck h rest s u w := by
  cases hs with
  | overrun w v hh hv hsv hvt => exact .overrun w v hh hv hsv (hvt.trans hu)
  | reset v hh hsv hvt => exact .reset v hh hsv (hvt.trans hu)

theorem Struck.earlier {s t u w : State} (hs : Struck h rest t u w) (hw : t = s.worked t) (hg : Grows s t) :
    Struck h rest s u w := by
  cases hs with
  | overrun w v hh hv hsv hvt => exact .overrun w v hh (by rw [hv, hw]; rfl) (hg.trans hsv) hvt
  | reset v hh hsv hvt => exact .reset v hh (hg.trans hsv) hvt

/-- A piece of a command under a host that strikes after some turns. -/
def Act.Strikes (x : Act α) : Prop :=
  ∀ (s : State) (h : HostAction) (rest : List HostAction) (k : Nat), s.host = [] → Sys2Proof.Machine.Strikes h rest →
    match x s with
    | .ok a u => u.host = [] ∧ u = s.worked u ∧ Grows s u ∧
        ((∃ j, u.stepsDone + j ≤ s.stepsDone + k ∧ x (s.due k h rest) = .ok a (u.due j h rest)) ∨
          ∃ t, x (s.due k h rest) = .error () t ∧ Struck h rest s u t)
    | .error e u => Grows s u ∧ u.fault = true ∧
        ((∃ j, j ≤ k ∧ x (s.due k h rest) = .error e (u.due j h rest)) ∨
          ∃ t, x (s.due k h rest) = .error () t ∧ Struck h rest s u t)

theorem Act.Strikes.bind {x : Act α} {f : α → Act β} (hx : Act.Strikes x) (hf : ∀ r, Act.Strikes (f r)) :
    Act.Strikes (x >>= f) := by
  intro s h rest k hq hs
  have h1 := hx s h rest k hq hs
  rw [act_bind, act_bind]
  cases hxs : x s with
  | error e t =>
    rw [hxs] at h1
    obtain ⟨hg, hf, ⟨j, hj, he⟩ | ⟨t', he, ht'⟩⟩ := h1
    · exact ⟨hg, hf, Or.inl ⟨j, hj, by rw [he]⟩⟩
    · exact ⟨hg, hf, Or.inr ⟨t', by rw [he], ht'⟩⟩
  | ok r t =>
    rw [hxs] at h1
    obtain ⟨hqt, hwt, hg, h1⟩ := h1
    dsimp only
    rcases h1 with ⟨j, hj, he⟩ | ⟨t', he, ht'⟩
    · have h2 := hf r t h rest j hqt hs
      rw [he]
      dsimp only
      cases hfs : f r t with
      | error e u =>
        rw [hfs] at h2
        obtain ⟨hgu, hfu, ⟨i, hi, he'⟩ | ⟨t', he', ht'⟩⟩ := h2
        · refine ⟨hg.trans hgu, hfu, Or.inl ⟨i, ?_, he'⟩⟩
          have := hg.trace.length_le
          have := hg.memReads.length_le
          have := hg.sampleLog.length_le
          simp only [State.stepsDone] at hj
          omega
        · exact ⟨hg.trans hgu, hfu, Or.inr ⟨t', he', ht'.earlier hwt hg⟩⟩
      | ok r' u =>
        rw [hfs] at h2
        obtain ⟨hqu, hwu, hgu, h2⟩ := h2
        refine ⟨hqu, by rw [hwu, hwt]; rfl, hg.trans hgu, ?_⟩
        rcases h2 with ⟨i, hi, he'⟩ | ⟨t', he', ht'⟩
        · exact Or.inl ⟨i, by omega, he'⟩
        · exact Or.inr ⟨t', he', ht'.earlier hwt hg⟩
    · rw [he]
      have h2 := hf r t h rest 0 hqt hs
      dsimp only
      cases hfs : f r t with
      | error e u =>
        rw [hfs] at h2
        exact ⟨hg.trans h2.1, h2.2.1, Or.inr ⟨t', rfl, ht'.later h2.1⟩⟩
      | ok r' u =>
        rw [hfs] at h2
        exact ⟨h2.1, by rw [h2.2.1, hwt]; rfl, hg.trans h2.2.2.1, Or.inr ⟨t', rfl, ht'.later h2.2.2.1⟩⟩

theorem Act.Strikes.pure (r : α) : Act.Strikes (pure r) :=
  fun s _ _ k hq _ => ⟨hq, rfl, Grows.refl s, Or.inl ⟨k, Nat.le_refl _, rfl⟩⟩

theorem Act.Strikes.peek {g : State → α} (hg : ∀ s l, g { s with host := l } = g s) : Act.Strikes (peek g) := by
  intro s h rest k hq _
  exact ⟨hq, rfl, Grows.refl s, Or.inl ⟨k, Nat.le_refl _, by rw [peek_apply, State.due, hg]⟩⟩

theorem Act.Strikes.ite {p : Prop} [Decidable p] {x y : Act α} (hx : Act.Strikes x) (hy : Act.Strikes y) :
    Act.Strikes (if p then x else y) := by
  split
  · exact hx
  · exact hy

/-! ### The host's turn -/

theorem nil_quiet {s : State} (h : s.host = []) : s.quiet = true := by simp [State.quiet, h]

theorem due_succ (s : State) (k : Nat) (onCommand : Word → Act Unit) :
    turnFrom onCommand (s.due (k + 1) h rest).host (s.due (k + 1) h rest) = .ok () (s.due k h rest) := rfl

/-- A turn whose `CMD` write finds the state as `f` makes it, where `f` undoes to `u` what the state `s` is ahead of it. -/
theorem hostTurnFrom_due {f : State → State} {s u : State} (k : Nat) (hq : u.host = [])
    (hf : ∀ l, f { s with host := l } = { u with host := l }) (hg : Grows s u ∧ Grows u s) (hs : Strikes h rest) :
    (∃ j, j + 1 ≤ k ∧ hostTurnFrom f (s.due k h rest) = .ok () (s.due j h rest)) ∨
      ∃ t, hostTurnFrom f (s.due k h rest) = .error () t ∧ Struck h rest u u t := by
  cases k with
  | succ k => exact Or.inl ⟨k, Nat.le_refl _, due_succ s k _⟩
  | zero =>
    right
    rcases hs with rfl | ⟨⟨w, rfl⟩, rfl⟩
    · exact ⟨_, rfl, .reset s rfl hg.2 hg.1⟩
    · have hback : { u with host := [] } = u := by rw [← hq]
      have ho : hostTurnFrom f (s.due 0 (.write 0 4 w) []) = overrun w { u with host := [.write 0 4 w] } :=
        congrArg (overrun w) (hf _)
      refine ⟨_, ho.trans (overrun_quiet (by change State.quiet { u with host := [] } = true; rfl) w), ?_⟩
      change Struck _ _ u u (faultEntry _ _ _ _ { u with host := [] })
      rw [hback]
      exact .overrun w u rfl rfl (Grows.refl u) (Grows.refl u)

/-- A turn at which a `CMD` write is taken. -/
theorem hostTurn_due (s : State) (k : Nat) (hq : s.host = []) (hs : Strikes h rest) :
    (∃ j, j + 1 ≤ k ∧ hostTurn (s.due k h rest) = .ok () (s.due j h rest)) ∨
      ∃ t, hostTurn (s.due k h rest) = .error () t ∧ Struck h rest s s t :=
  hostTurnFrom_due (f := id) k hq (fun _ => rfl) ⟨Grows.refl s, Grows.refl s⟩ hs

/-- A turn at which a `CMD` write waits. -/
theorem heldTurn_due (s : State) (k : Nat) (hs : Strikes h rest) :
    (∃ j, j ≤ k ∧ heldTurn (s.due k h rest) = .ok () (s.due j h rest)) ∨
      (h = .reset ∧ heldTurn (s.due k h rest) = .error () (applyReset { s with host := rest })) := by
  cases k with
  | succ k => exact Or.inl ⟨k, Nat.le_succ _, due_succ s k hold⟩
  | zero =>
    rcases hs with rfl | ⟨⟨w, rfl⟩, rfl⟩
    · exact Or.inr ⟨rfl, rfl⟩
    · exact Or.inl ⟨0, Nat.le_refl _, rfl⟩

theorem Act.Strikes.hostTurn : Act.Strikes hostTurn := by
  intro s h rest k hq hs
  rw [hostTurn_quiet (nil_quiet hq)]
  refine ⟨hq, rfl, Grows.refl s, ?_⟩
  rcases hostTurn_due s k hq hs with ⟨j, hj, he⟩ | ⟨t, he, ht⟩
  · exact Or.inl ⟨j, by omega, he⟩
  · exact Or.inr ⟨t, he, ht⟩

/-- A step of a command: the host's turn, then at most one event, read or request. -/
theorem Act.Strikes.step {x : Act α}
    (hx : ∀ s, s.host = [] → ∃ r u, x s = .ok r u ∧ u.host = [] ∧ u = s.worked u ∧ Grows s u ∧
      u.stepsDone ≤ s.stepsDone + 1 ∧ ∀ l, x { s with host := l } = .ok r { u with host := l }) :
    Act.Strikes (Sys2Proof.Machine.hostTurn >>= fun _ => x) := by
  intro s h rest k hq hs
  obtain ⟨r, u, hxs, hqu, hwu, hgu, hn, hl⟩ := hx s hq
  rw [act_bind_ok _ (hostTurn_quiet (nil_quiet hq)), act_bind, hxs]
  refine ⟨hqu, hwu, hgu, ?_⟩
  rcases hostTurn_due s k hq hs with ⟨j, hj, he⟩ | ⟨t, he, ht⟩
  · rw [he]
    exact Or.inl ⟨j, by omega, hl _⟩
  · exact Or.inr ⟨t, by rw [he], ht.later hgu⟩

/-- A change of the state that is no event, read or request. -/
theorem Act.Strikes.update {f : State → State} (hw : ∀ s, f s = s.worked (f s)) (hg : ∀ s, Grows s (f s))
    (hn : ∀ s, (f s).stepsDone = s.stepsDone) (hl : ∀ s l, f { s with host := l } = { f s with host := l }) :
    Act.Strikes (update f) := by
  intro s h rest k hq _
  refine ⟨?_, hw s, hg s, Or.inl ⟨k, by rw [hn], congrArg (EStateM.Result.ok ()) (hl s _)⟩⟩
  rw [hw s]
  exact hq

theorem Act.Strikes.emit (e : Event) : Act.Strikes (emit e) := by
  refine Act.Strikes.step fun s hq => ⟨_, _, rfl, hq, rfl, ?_, ?_, fun _ => rfl⟩
  · exact { Grows.refl s with trace := List.prefix_append _ _ }
  · simp [State.stepsDone, pushEvent]
    omega

theorem Act.Strikes.whenShared {x : Act Unit} (hx : Act.Strikes x) : Act.Strikes (whenShared x) :=
  (Act.Strikes.peek fun _ _ => rfl).bind fun _ => .ite hx (.pure ())

/-! ### Faults -/

theorem grows_emitted (s : State) (es : List Event) : Grows s (s.emitted es) :=
  { Grows.refl s with trace := List.prefix_append _ _ }

theorem Unhosted.due {f : State → State} (hf : Unhosted f) (s : State) (k : Nat) :
    f (s.due k h rest) = (f s).due k h rest := by
  have h1 : f (s.due k h rest) = (f s).hosted (s.due k h rest) := hf s (s.due k h rest)
  have h2 : f s = (f s).hosted s := hf s s
  rw [h1, h2]
  rfl

/-- Changes in turn, struck or not, where a turn that passes takes `c` of the host's turns. -/
theorem inTurn_due {turn : Act Unit} {c : Nat} {fs : List (State → State)} (hf : ∀ f ∈ fs, Unhosted f)
    {Q : List (State → State) → State → Prop} (s : State) (hturn : ∀ gs, gs <+: fs → ∀ k,
      (∃ j, j + c ≤ k ∧ turn ((written gs s).due k h rest) = .ok () ((written gs s).due j h rest)) ∨
        ∃ t, turn ((written gs s).due k h rest) = .error () t ∧ Q gs t) :
    ∀ k, (∃ j, j + c * fs.length ≤ k ∧ inTurn turn fs (s.due k h rest) = .ok () ((written fs s).due j h rest)) ∨
      ∃ gs t, gs <+: fs ∧ inTurn turn fs (s.due k h rest) = .error () t ∧ Q gs t := by
  induction fs generalizing s Q with
  | nil => exact fun k => Or.inl ⟨k, by simp, rfl⟩
  | cons f fs ih =>
    intro k
    rw [inTurn, update_bind, (hf f (List.mem_cons_self ..)).due, act_bind]
    have h1 := hturn [f] ⟨fs, rfl⟩ k
    change (∃ j, j + c ≤ k ∧ turn ((f s).due k h rest) = .ok () ((f s).due j h rest)) ∨ _ at h1
    rcases h1 with ⟨j, hj, he⟩ | ⟨t, he, hq⟩
    · rw [he]
      have h2 := ih (fun g hg => hf g (List.mem_cons_of_mem _ hg)) (Q := fun gs => Q (f :: gs)) (f s)
        (fun gs hg => hturn (f :: gs) (List.cons_prefix_cons.mpr ⟨rfl, hg⟩)) j
      rcases h2 with ⟨i, hi, he'⟩ | ⟨gs, t, hg, he', hq⟩
      · refine Or.inl ⟨i, ?_, he'⟩
        rw [List.length_cons, Nat.mul_succ]
        omega
      · exact Or.inr ⟨f :: gs, t, List.cons_prefix_cons.mpr ⟨rfl, hg⟩, he', hq⟩
    · exact Or.inr ⟨[f], t, ⟨fs, rfl⟩, by change turn ((f s).due k h rest) = _ at he; rw [he], hq⟩

theorem Act.Strikes.enterFault (c : Cause) (d : Nat) (v : Int) (a : Option Nat) :
    Act.Strikes (enterFault c d v a : Act α) := by
  intro s h rest k hq hs
  have hg : Grows s (faultEntry c d v a s) := { grows_emitted s (if s.sel then closeEvents s.params else []) with }
  have hun := faultSteps_unhosted c d v a s
  have hd : faultSteps c d v a (s.due k h rest) = faultSteps c d v a s := rfl
  have ht := inTurn_due (turn := heldTurn) (h := h) (rest := rest) (c := 0) hun
    (Q := fun gs t => h = .reset ∧ t = applyReset { written gs s with host := rest }) s
    (fun gs _ k => (heldTurn_due (written gs s) k hs).imp id fun ⟨h1, h2⟩ => ⟨_, h2, h1, rfl⟩) k
  rw [enterFault_quiet (nil_quiet hq), enterFault_eq, hd]
  refine ⟨hg, rfl, ?_⟩
  rcases ht with ⟨j, hj, he⟩ | ⟨gs, t, hgs, he, hh, rfl⟩
  · rw [he]
    refine Or.inl ⟨j, by omega, ?_⟩
    rw [← faultSteps_written]
    rfl
  · obtain ⟨es, hes, hr⟩ := faultSteps_prefix hgs
    rw [he]
    have hback : applyReset { written gs s with host := rest } = applyReset { s.emitted es with host := rest } :=
      congrArg (fun t : State => ({ t with host := rest } : State)) (hr s)
    refine Or.inr ⟨_, rfl, ?_⟩
    rw [hback]
    refine .reset (s.emitted es) hh (grows_emitted s es) ⟨?_, List.prefix_rfl, List.prefix_rfl, rfl, rfl⟩
    exact (List.prefix_append_right_inj s.trace).mpr hes

theorem Act.Strikes.raise (c : Cause) (d : Nat) (v : Int) : Act.Strikes (raise c d v : Act α) :=
  Act.Strikes.hostTurn.bind fun _ => .enterFault _ _ _ _

/-! ### The pieces of the commands -/

theorem Act.Strikes.setSel (b : Bool) : Act.Strikes (Sys2Proof.Machine.update (setSel b)) :=
  .update (fun _ => rfl) (fun s => { Grows.refl s with }) (fun _ => rfl) fun _ _ => rfl

/-- The turn between `BEGIN` and `Sel <- true`. -/
theorem Act.Strikes.begunTurn : Act.Strikes (hostTurnFrom (Machine.setSel true)) := by
  intro s h rest k hq hs
  rw [hostTurnFrom_quiet _ (nil_quiet hq)]
  refine ⟨hq, rfl, Grows.refl s, ?_⟩
  have hg : Grows s (Machine.setSel true s) := { Grows.refl s with }
  have hg' : Grows (Machine.setSel true s) s := { Grows.refl s with }
  rcases hostTurnFrom_due (f := Machine.setSel true) (s := s) (u := Machine.setSel true s) k hq (fun _ => rfl) ⟨hg, hg'⟩ hs with ⟨j, hj, he⟩ | ⟨t, he, ht⟩
  · exact Or.inl ⟨j, by omega, he⟩
  · exact Or.inr ⟨t, he, (ht.earlier rfl hg).later hg'⟩

theorem Act.Strikes.select : Act.Strikes select :=
  (Act.Strikes.emit _).whenShared.bind fun _ => (Act.Strikes.emit _).bind fun _ => Act.Strikes.begunTurn.bind fun _ =>
    .setSel _

theorem Act.Strikes.unselect : Act.Strikes unselect :=
  (Act.Strikes.emit _).bind fun _ => (Act.Strikes.emit _).whenShared.bind fun _ => Act.Strikes.hostTurn.bind fun _ =>
    .setSel _

theorem Act.Strikes.sendDataList : ∀ ds : List Byte, Act.Strikes (sendDataList ds)
  | [] => .pure ()
  | _ :: ds => (Act.Strikes.emit _).bind fun _ => Act.Strikes.sendDataList ds

theorem Act.Strikes.sendFrames : ∀ fs : List Frame, Act.Strikes (sendFrames fs)
  | [] => .pure ()
  | f :: fs => ((Act.Strikes.emit _).bind fun _ => Act.Strikes.sendDataList f.data).bind fun _ => Act.Strikes.sendFrames fs

theorem Act.Strikes.memRead (b n : Nat) : Act.Strikes (memRead b n) := by
  refine (Act.Strikes.peek fun _ _ => rfl).bind fun p => ?_
  by_cases hr : p.readable b n = true
  · simp only [hr, if_true]
    refine Act.Strikes.step fun s hq => ?_
    have hg : Grows s { s with memReads := s.memReads ++ [⟨b, n⟩] } :=
      { Grows.refl s with memReads := List.prefix_append _ _ }
    have hn : State.stepsDone { s with memReads := s.memReads ++ [⟨b, n⟩] } ≤ s.stepsDone + 1 := by
      simp only [State.stepsDone, List.length_append, List.length_singleton]
      omega
    by_cases hv : (s.racy.any fun c => decide (b ≤ c) && decide (c < b + n)) = true
    · exact ⟨_, _, if_pos hv, hq, rfl, { hg with }, hn, fun _ => if_pos hv⟩
    · exact ⟨_, _, if_neg hv, hq, rfl, hg, hn, fun _ => if_neg hv⟩
  · simp only [hr, Bool.false_eq_true, if_false]
    exact Act.Strikes.hostTurn.bind fun _ => .enterFault _ _ _ _

theorem Act.Strikes.sample (req : SampleReq) : Act.Strikes (sample req) := by
  have hreq : Act.Strikes (Sys2Proof.Machine.hostTurn >>= fun _ => Sys2Proof.Machine.update (requestSample req)) :=
    .step fun s hq => ⟨_, _, rfl, hq, rfl, { Grows.refl s with sampleLog := List.prefix_append _ _ },
      by simp [State.stepsDone, requestSample]; omega, fun _ => rfl⟩
  have hans : Act.Strikes (Sys2Proof.Machine.hostTurn >>= fun _ => answerSample) := by
    refine .step fun s hq => ?_
    cases hl : s.samples with
    | nil =>
      refine ⟨Config.freeSample s.draws, { s with sampleReq := none, draws := s.draws + 1 }, ?_, hq, rfl,
        { Grows.refl s with }, Nat.le_succ _, fun _ => ?_⟩ <;> simp [answerSample, hl]
    | cons c rest =>
      refine ⟨c, { s with sampleReq := none, samples := rest }, ?_, hq, rfl,
        { Grows.refl s with }, Nat.le_succ _, fun _ => ?_⟩ <;> simp [answerSample, hl]
  have h := hreq.bind fun _ => hans
  rw [act_assoc] at h
  exact h

theorem Act.Strikes.needBracket : Act.Strikes needBracket :=
  (Act.Strikes.peek fun _ _ => rfl).bind fun _ => .ite (.pure ()) (.raise _ _ _)

theorem Act.Strikes.checkWindow (xs xe ys ye : Int) : Act.Strikes (checkWindow xs xe ys ye) :=
  (Act.Strikes.peek fun _ _ => rfl).bind fun _ =>
    .ite (.raise _ _ _) (.ite (.raise _ _ _) (.ite (.raise _ _ _) (.ite (.raise _ _ _) (.pure ()))))

theorem Act.Strikes.setAddressInternal (xs xe ys ye : Int) : Act.Strikes (setAddressInternal xs xe ys ye) :=
  (Act.Strikes.checkWindow _ _ _ _).bind fun _ => (Act.Strikes.peek fun _ _ => rfl).bind fun _ => .sendFrames _

theorem Act.Strikes.acceptance (own needs : Bool) : Act.Strikes (acceptance own needs) :=
  (Act.Strikes.peek fun _ _ => rfl).bind fun _ => (Act.Strikes.peek fun _ _ => rfl).bind fun _ =>
    .ite (.raise _ _ _) (.ite (.raise _ _ _) (.pure ()))

theorem Act.Strikes.pollOnce : Act.Strikes pollOnce := by
  have hlevel : Act.Strikes (Sys2Proof.Machine.hostTurn >>= fun _ => readBusyLevel) := by
    refine .step fun s hq => ⟨_, _, readBusyLevel_eq s, hq, rfl,
      { Grows.refl s with trace := List.prefix_append _ _ }, ?_, fun _ => readBusyLevel_eq _⟩
    simp [State.stepsDone, State.afterLevels]
    omega
  have hbusy : Act.Strikes readBusy := by
    have h := hlevel.bind fun v => (Act.Strikes.peek (g := fun s => s.params.busyActiveLevel) fun _ _ => rfl).bind
      fun active => .pure (v == active)
    rw [act_assoc] at h
    exact h
  exact (Act.Strikes.peek fun _ _ => rfl).bind fun _ => hbusy.bind fun _ =>
    .ite ((Act.Strikes.emit _).bind fun _ => .pure _) (.pure _)

theorem Act.Strikes.sendRepeated (d : Byte) : ∀ n, Act.Strikes (sendRepeated d n)
  | 0 => .pure ()
  | n + 1 => (Act.Strikes.emit _).bind fun _ => Act.Strikes.sendRepeated d n

theorem Act.Strikes.pick (fg : Byte) (src : PixelSource) (width height w h : Nat) :
    Act.Strikes (pick fg src width height w h) := by
  refine Act.Strikes.bind ?_ fun _ => (Act.Strikes.peek fun _ _ => rfl).bind fun _ =>
    (Act.Strikes.peek fun _ _ => rfl).bind fun _ => .ite (.pure _) (.ite (.pure _) (.raise _ _ _))
  cases src with
  | solid => exact .pure _
  | mem base => exact (Act.Strikes.memRead _ _).bind fun _ => .pure _
  | host => exact Act.Strikes.sample _

theorem Act.Strikes.packRows (fg : Byte) (src : PixelSource) (y width height w : Nat) :
    ∀ (left : Nat) (acc : Byte), Act.Strikes (packRows fg src y width height w left acc)
  | 0, _ => .pure ()
  | left + 1, _ => (Act.Strikes.pick _ _ _ _ _ _).bind fun _ =>
    .ite ((Act.Strikes.emit _).bind fun _ => Act.Strikes.packRows fg src y width height w left _)
      (Act.Strikes.packRows fg src y width height w left _)

theorem Act.Strikes.packColumns (fg : Byte) (src : PixelSource) (y width height : Nat) :
    ∀ left : Nat, Act.Strikes (packColumns fg src y width height left)
  | 0 => .pure ()
  | left + 1 => (Act.Strikes.packRows _ _ _ _ _ _ _ _).bind fun _ => Act.Strikes.packColumns fg src y width height left

theorem Act.Strikes.drawBitmapCore (c : Color) (x y width height : Nat) (src : PixelSource) :
    Act.Strikes (drawBitmapCore c x y width height src) :=
  (Act.Strikes.peek fun _ _ => rfl).bind fun _ => Act.Strikes.select.bind fun _ =>
    (Act.Strikes.setAddressInternal _ _ _ _).bind fun _ => (Act.Strikes.packColumns _ _ _ _ _ _).bind fun _ =>
    Act.Strikes.unselect

theorem Act.Strikes.readHeader (f : Nat) : Act.Strikes (readHeader f) :=
  (Act.Strikes.memRead _ _).bind fun _ => (Act.Strikes.memRead _ _).bind fun _ => (Act.Strikes.memRead _ _).bind fun _ =>
    .pure _

theorem Act.Strikes.textWidthFrom (f first last t : Nat) :
    ∀ left i tw : Nat, Act.Strikes (textWidthFrom f first last t left i tw)
  | 0, _, _ => .pure _
  | left + 1, _, _ => (Act.Strikes.memRead _ _).bind fun _ =>
    .ite ((Act.Strikes.memRead _ _).bind fun _ => Act.Strikes.textWidthFrom f first last t left _ _)
      (Act.Strikes.textWidthFrom f first last t left _ _)

theorem Act.Strikes.startColumn (align : Align) (x f first last t n : Nat) :
    Act.Strikes (startColumn align x f first last t n) := by
  cases align with
  | left => exact .pure _
  | reserved => exact .pure _
  | center => exact (Act.Strikes.textWidthFrom _ _ _ _ _ _ _).bind fun _ => .pure _
  | right => exact (Act.Strikes.textWidthFrom _ _ _ _ _ _ _).bind fun _ => .pure _

theorem Act.Strikes.drawGlyphs (c : Color) (y f t panelW : Nat) (hdr : FontHeader) :
    ∀ left i cx : Nat, Act.Strikes (drawGlyphs c y f t panelW hdr left i cx)
  | 0, _, _ => .pure ()
  | left + 1, _, _ => (Act.Strikes.memRead _ _).bind fun _ =>
    .ite ((Act.Strikes.memRead _ _).bind fun _ =>
        .ite (.pure ()) ((Act.Strikes.drawBitmapCore _ _ _ _ _ _).bind fun _ =>
          Act.Strikes.drawGlyphs c y f t panelW hdr left _ _))
      (Act.Strikes.drawGlyphs c y f t panelW hdr left _ _)

/-! ### The whole command -/

theorem RegisterWrite.grows {f : State → State} (hf : RegisterWrite f) (s : State) : Grows s (f s) ∧ Grows (f s) s := by
  have hr := hf.undone s s
  have ht : (f s).trace = s.trace := by have h := congrArg State.trace hr; exact h
  have hm : (f s).memReads = s.memReads := by have h := congrArg State.memReads hr; exact h
  have hl : (f s).sampleLog = s.sampleLog := by have h := congrArg State.sampleLog hr; exact h
  have hp : (f s).params = s.params := by have h := congrArg State.params hr; exact h
  have hmem := hf.unhosted.mem s
  exact ⟨⟨by rw [ht], by rw [hm], by rw [hl], hp, hmem⟩, ⟨by rw [ht], by rw [hm], by rw [hl], hp.symm, hmem.symm⟩⟩

/-- Register writes leave the logs, the flag and the host's actions as they were. -/
theorem written_grows : ∀ {fs : List (State → State)}, (∀ f ∈ fs, RegisterWrite f) → ∀ s : State,
    Grows s (written fs s) ∧ Grows (written fs s) s ∧ (written fs s).fault = s.fault
  | [], _, s => ⟨Grows.refl s, Grows.refl s, rfl⟩
  | f :: fs, hf, s => by
    have h1 := (hf f (List.mem_cons_self ..)).grows s
    have h2 := written_grows (fun g hg => hf g (List.mem_cons_of_mem _ hg)) (f s)
    exact ⟨h1.1.trans h2.1, h2.2.1.trans h1.2, h2.2.2.trans ((hf f (List.mem_cons_self ..)).fault s)⟩

/-- The register writes of a command, struck or not: a struck command has made none of them. -/
theorem commit_due {fs : List (State → State)} (hf : ∀ f ∈ fs, RegisterWrite f) (s : State) (k : Nat) (hq : s.host = [])
    (hs : Strikes h rest) :
    (∃ j, j + fs.dropLast.length ≤ k ∧ commit fs (s.due k h rest) = .ok () ((written fs s).due j h rest)) ∨
      ∃ t, commit fs (s.due k h rest) = .error () t ∧ Struck h rest s s t := by
  have hsub := List.dropLast_subset fs
  have hlast : Unhosted (lastOf fs) := lastOf_all (fun _ _ => rfl) fun f h => (hf f h).unhosted
  have ht := inTurn_due (turn := hostTurnFrom fun t => t.withRegisters (s.due k h rest)) (h := h) (rest := rest) (c := 1)
    (fun f h => (hf f (hsub h)).unhosted) (Q := fun _ t => Struck h rest s s t) s (fun gs hg k' => by
      have hgs : ∀ f ∈ gs, RegisterWrite f := fun f h => hf f (hsub (hg.subset h))
      have hgr := written_grows hgs s
      refine hostTurnFrom_due k' hq (fun l => ?_) ⟨hgr.2.1, hgr.1⟩ hs
      have hu := congrArg (fun t : State => ({ t with host := l } : State)) (written_undone hgs s s)
      exact hu) k
  rw [commit_eq]
  rcases ht with ⟨j, hj, he⟩ | ⟨gs, t, _, he, ht⟩
  · refine Or.inl ⟨j, by omega, ?_⟩
    rw [he]
    dsimp only
    rw [hlast.due, lastOf_written]
  · exact Or.inr ⟨t, by rw [he], ht⟩

/-- What a host that strikes makes of a run with `n` turns among its register writes: it is struck, or it ends as it would undisturbed with
the action still to come, and then, if it did not fault, it took no more than `k` steps, those turns included. -/
def StruckOrNot (n : Nat) (run : State → State) : Prop :=
  ∀ (s : State) (h : HostAction) (rest : List HostAction) (k : Nat), s.host = [] → Strikes h rest →
    Grows s (run s) ∧
      ((∃ j, j ≤ k ∧ ((run s).fault = true ∨ (run s).stepsDone + n + j ≤ s.stepsDone + k) ∧
          run (s.due k h rest) = (run s).due j h rest) ∨
        Struck h rest s (run s) (run (s.due k h rest)))

/-- No more steps were taken than turns given. -/
theorem turns_le {s u : State} {j k : Nat} (hg : Grows s u) (hn : u.stepsDone + j ≤ s.stepsDone + k) : j ≤ k := by
  have := hg.trace.length_le
  have := hg.memReads.length_le
  have := hg.sampleLog.length_le
  simp only [State.stepsDone] at hn
  omega

/-- A command whose steps can be struck can be struck. -/
theorem runCommand_struck {own needs : Bool} {body : Act α} {writes : α → List (State → State)} (hb : Act.Strikes body)
    {n : Nat} (hw : ∀ a, (∀ f ∈ writes a, RegisterWrite f) ∧ (writes a).dropLast.length = n) :
    StruckOrNot n (runCommand own needs body writes) := by
  intro s h rest k hq hs
  have hbody : Act.Strikes (acceptance own needs >>= fun _ => body >>= fun a => hostTurn >>= fun _ => pure a) :=
    (Act.Strikes.acceptance own needs).bind fun _ => hb.bind fun _ => Act.Strikes.hostTurn.bind fun _ => .pure _
  have heq (t : State) : runCommand own needs body writes t =
      match (acceptance own needs >>= fun _ => body >>= fun a => hostTurn >>= fun _ => pure a) t with
      | .ok a t' => match commit (writes a) t' with
        | .ok _ t'' => endCommand t''
        | .error _ t'' => t''
      | .error _ t' => t' := by
    rw [runCommand_eq, act_bind, act_bind]
    cases acceptance own needs t with
    | error _ _ => rfl
    | ok _ t1 =>
      dsimp only
      rw [commandSteps, act_bind, act_bind]
      cases body t1 with
      | error _ _ => rfl
      | ok a t2 =>
        dsimp only
        rw [act_bind, act_bind]
        cases hostTurn t2 <;> rfl
  have h1 := hbody s h rest k hq hs
  rw [heq, heq]
  cases hx : (acceptance own needs >>= fun _ => body >>= fun a => hostTurn >>= fun _ => pure a) s with
  | error e u =>
    rw [hx] at h1
    obtain ⟨hg, hf, ⟨j, hj, he⟩ | ⟨t, he, ht⟩⟩ := h1
    · exact ⟨hg, Or.inl ⟨j, hj, Or.inl hf, by rw [he]⟩⟩
    · exact ⟨hg, Or.inr (by rw [he]; exact ht)⟩
  | ok a u =>
    rw [hx] at h1
    obtain ⟨hqu, hwu, hg, h1⟩ := h1
    have hc := commit_quiet (writes a) (nil_quiet hqu) fun f hf => ((hw a).1 f hf).unhosted.host
    have hgr := written_grows (hw a).1 u
    have hend : Grows u (endCommand (written (writes a) u)) := { hgr.1 with }
    dsimp only
    rw [hc]
    refine ⟨hg.trans hend, ?_⟩
    rcases h1 with ⟨j, hj, he⟩ | ⟨t, he, ht⟩
    · rw [he]
      dsimp only
      rcases commit_due (h := h) (rest := rest) (hw a).1 u j hqu hs with ⟨i, hi, he'⟩ | ⟨t, he', ht⟩
      · rw [he']
        have hn : (endCommand (written (writes a) u)).stepsDone = u.stepsDone := by
          have ht := List.IsPrefix.length_le hgr.1.trace
          have ht' := List.IsPrefix.length_le hgr.2.1.trace
          have hm := List.IsPrefix.length_le hgr.1.memReads
          have hm' := List.IsPrefix.length_le hgr.2.1.memReads
          have hl := List.IsPrefix.length_le hgr.1.sampleLog
          have hl' := List.IsPrefix.length_le hgr.2.1.sampleLog
          change (written (writes a) u).stepsDone = u.stepsDone
          simp only [State.stepsDone]
          omega
        rw [(hw a).2] at hi
        exact Or.inl ⟨i, by have := turns_le hg hj; omega, Or.inr (by rw [hn]; omega), rfl⟩
      · rw [he']
        exact Or.inr ((ht.earlier hwu hg).later hend)
    · rw [he]
      exact Or.inr (ht.later hend)

/-- A pass that ends in the poll loop or completes can be struck. -/
theorem afterPoll_struck {x : Act Bool} (hx : Act.Strikes x) : StruckOrNot 0 fun s => afterPoll (x s) := by
  intro s h rest k hq hs
  have h1 := hx s h rest k hq hs
  dsimp only
  cases hxs : x s with
  | error e u =>
    rw [hxs] at h1
    obtain ⟨hg, hf, ⟨j, hj, he⟩ | ⟨t, he, ht⟩⟩ := h1
    · exact ⟨hg, Or.inl ⟨j, hj, Or.inl hf, by rw [he]; rfl⟩⟩
    · exact ⟨hg, Or.inr (by rw [he]; exact ht)⟩
  | ok more u =>
    rw [hxs] at h1
    obtain ⟨hqu, hwu, hg, h1⟩ := h1
    cases more with
    | true =>
      rcases h1 with ⟨j, hj, he⟩ | ⟨t, he, ht⟩
      · exact ⟨hg, Or.inl ⟨j, turns_le hg hj, Or.inr hj, by rw [he]; rfl⟩⟩
      · exact ⟨hg, Or.inr (by rw [he]; exact ht)⟩
    | false =>
      have hend : Grows u (endCommand u) := { Grows.refl u with }
      have hu : afterPoll (.ok false u) = endCommand u := by rw [afterPoll, hostTurn_quiet (nil_quiet hqu)]
      rw [hu]
      refine ⟨hg.trans hend, ?_⟩
      rcases h1 with ⟨j, hj, he⟩ | ⟨t, he, ht⟩
      · rw [he, afterPoll]
        rcases hostTurn_due u j hqu hs with ⟨i, hi, he'⟩ | ⟨t, he', ht'⟩
        · rw [he']
          refine Or.inl ⟨i, by have := turns_le hg hj; omega, Or.inr ?_, rfl⟩
          change u.stepsDone + i ≤ _
          omega
        · rw [he']
          exact Or.inr ((ht'.earlier hwu hg).later hend)
      · rw [he]
        exact Or.inr (ht.later hend)

/-! ### Every command -/

/-- A piece that looks at the state first. -/
theorem Act.Strikes.look {g : State → α} {f : α → Act β} (hf : ∀ a, Act.Strikes (f a))
    (hg : ∀ s l, g { s with host := l } = g s := by intros; rfl) : Act.Strikes (Sys2Proof.Machine.peek g >>= f) :=
  (Act.Strikes.peek hg).bind hf

/-- A piece that always ends in a fault can be struck. -/
theorem endOf_struck {x : Act Unit} (hx : Act.Strikes x) : StruckOrNot 0 (endOf x) := by
  intro s h rest k hq hs
  have h1 := hx s h rest k hq hs
  rw [endOf, endOf]
  cases hxs : x s with
  | error e u =>
    rw [hxs] at h1
    obtain ⟨hg, hf, ⟨j, hj, he⟩ | ⟨t, he, ht⟩⟩ := h1
    · exact ⟨hg, Or.inl ⟨j, hj, Or.inl hf, by rw [he]⟩⟩
    · exact ⟨hg, Or.inr (by rw [he]; exact ht)⟩
  | ok a u =>
    rw [hxs] at h1
    obtain ⟨_, _, hg, ⟨j, hj, he⟩ | ⟨t, he, ht⟩⟩ := h1
    · exact ⟨hg, Or.inl ⟨j, turns_le hg hj, Or.inr hj, by rw [he]⟩⟩
    · exact ⟨hg, Or.inr (by rw [he]; exact ht)⟩

theorem Act.Strikes.raiseIllegal (k : Illegal) : Act.Strikes (raiseIllegal k) := .look fun _ => .raise _ _ _

theorem Act.Strikes.startBody : Act.Strikes startBody :=
  .look fun _ => (Act.Strikes.emit _).bind fun _ => Act.Strikes.select.bind fun _ => (Act.Strikes.emit _).bind fun _ =>
    (Act.Strikes.emit _).bind fun _ => (Act.Strikes.emit _).bind fun _ => (Act.Strikes.emit _).bind fun _ =>
    (Act.Strikes.sendFrames _).bind fun _ => (Act.Strikes.sendFrames _).bind fun _ => (Act.Strikes.sendFrames _).bind fun _ =>
    (Act.Strikes.sendFrames _).bind fun _ => (Act.Strikes.sendFrames _).bind fun _ => Act.Strikes.unselect

theorem Act.Strikes.stopBody : Act.Strikes stopBody :=
  .look fun _ => Act.Strikes.select.bind fun _ => (Act.Strikes.sendFrames _).bind fun _ =>
    (Act.Strikes.sendFrames _).bind fun _ => Act.Strikes.unselect.bind fun _ => Act.Strikes.emit _

theorem Act.Strikes.updateBody : Act.Strikes updateBody :=
  .look fun _ => Act.Strikes.select.bind fun _ => (Act.Strikes.sendFrames _).bind fun _ => Act.Strikes.unselect

theorem Act.Strikes.setAddressBody : Act.Strikes setAddressBody :=
  .look fun _ => .look fun _ => .look fun _ => .look fun _ => Act.Strikes.needBracket.bind fun _ => .setAddressInternal _ _ _ _

theorem Act.Strikes.panelInitBody : Act.Strikes panelInitBody :=
  .look fun _ => .look fun _ => .look fun _ => .look fun _ =>
    .ite (.raise _ _ _) (.ite (.raise _ _ _) (.ite (.raise _ _ _) (.pure _)))

theorem Act.Strikes.fillDisplayBody (c : Color) : Act.Strikes (fillDisplayBody c) :=
  .look fun _ => .look fun _ => .ite (.raise _ _ _) (Act.Strikes.select.bind fun _ =>
    (Act.Strikes.setAddressInternal _ _ _ _).bind fun _ => (Act.Strikes.sendRepeated _ _).bind fun _ => .unselect)

theorem Act.Strikes.drawOperands (c : Color) (src : PixelSource) : Act.Strikes (drawOperands c src) :=
  .look fun _ => .look fun _ => .look fun _ => .look fun _ => .drawBitmapCore _ _ _ _ _ _

theorem Act.Strikes.setFontBody : Act.Strikes setFontBody :=
  .look fun _ => (Act.Strikes.readHeader _).bind fun _ => .look fun _ =>
    .ite (.raise _ _ _) (.ite (.raise _ _ _) (.pure _))

theorem Act.Strikes.getTextWidthBody : Act.Strikes getTextWidthBody :=
  .look fun _ => .look fun _ => .look fun _ => (Act.Strikes.memRead _ _).bind fun _ => (Act.Strikes.memRead _ _).bind fun _ =>
    Act.Strikes.textWidthFrom _ _ _ _ _ _ _

theorem Act.Strikes.drawTextBody (c : Color) (align : Align) : Act.Strikes (drawTextBody c align) := by
  refine .look fun _ => .ite ?_ (.raise _ _ _)
  refine .look fun _ => .look fun _ => .look fun _ => .look fun _ => .look fun _ => .look fun _ => .look fun _ => ?_
  refine (Act.Strikes.readHeader _).bind fun _ => .ite (.pure _) ?_
  exact (Act.Strikes.startColumn _ _ _ _ _ _ _).bind fun _ => .drawGlyphs _ _ _ _ _ _ _ _ _

/-- Every command can be struck at its steps. -/
theorem exec_struck (i : Instr) : ∃ run, (∀ s, exec i s = .next (run s)) ∧ StruckOrNot (writeTurns i) run := by
  have plain {body : Act Unit} {own needs : Bool} (hb : Act.Strikes body) :
      StruckOrNot 0 (runCommand own needs body noWrites) := runCommand_struck hb fun a => ⟨noWrites_writes a, rfl⟩
  cases i with
  | nop => exact ⟨_, fun _ => rfl, plain (.pure _)⟩
  | start =>
    refine ⟨_, fun _ => rfl, runCommand_struck .startBody fun _ => ⟨fun f hf => ?_, rfl⟩⟩
    simp only [List.mem_cons, List.not_mem_nil, or_false] at hf
    subst hf
    exact ⟨fun _ _ => rfl, fun _ _ => rfl⟩
  | stop =>
    refine ⟨_, fun _ => rfl, runCommand_struck .stopBody fun _ => ⟨fun f hf => ?_, rfl⟩⟩
    simp only [List.mem_cons, List.not_mem_nil, or_false] at hf
    subst hf
    exact ⟨fun _ _ => rfl, fun _ _ => rfl⟩
  | update =>
    exact ⟨_, fun _ => rfl, afterPoll_struck ((Act.Strikes.acceptance _ _).bind fun _ => Act.Strikes.updateBody.bind fun _ =>
      Act.Strikes.bind (.update (f := fun t => { t with poll := true }) (fun _ => rfl) (fun s => { Grows.refl s with })
        (fun _ => rfl) fun _ _ => rfl) fun _ => .pollOnce)⟩
  | select => exact ⟨_, fun _ => rfl, plain (.look fun _ => .ite (.raise _ _ _) .select)⟩
  | unselect => exact ⟨_, fun _ => rfl, plain (.look fun _ => .ite .unselect (.raise _ _ _))⟩
  | sendCmd => exact ⟨_, fun _ => rfl, plain (.look fun _ => Act.Strikes.needBracket.bind fun _ => .emit _)⟩
  | sendData => exact ⟨_, fun _ => rfl, plain (.look fun _ => Act.Strikes.needBracket.bind fun _ => .emit _)⟩
  | setAddress => exact ⟨_, fun _ => rfl, plain .setAddressBody⟩
  | panelInit =>
    refine ⟨_, fun _ => rfl, runCommand_struck .panelInitBody fun _ => ⟨fun f hf => ?_, rfl⟩⟩
    simp only [List.mem_cons, List.not_mem_nil, or_false] at hf
    rcases hf with rfl | rfl | rfl <;> exact ⟨fun _ _ => rfl, fun _ _ => rfl⟩
  | setBg c =>
    refine ⟨_, fun _ => rfl, runCommand_struck (.pure _) fun _ => ⟨fun f hf => ?_, rfl⟩⟩
    simp only [List.mem_cons, List.not_mem_nil, or_false] at hf
    rcases hf with rfl | rfl <;> exact ⟨fun _ _ => rfl, fun _ _ => rfl⟩
  | fillDisplay c => exact ⟨_, fun _ => rfl, plain (.fillDisplayBody c)⟩
  | drawBitmap c src =>
    cases src with
    | solid => exact ⟨_, fun _ => rfl, plain (.drawOperands c .solid)⟩
    | mem => exact ⟨_, fun _ => rfl, fun s h rest k hq hs => plain (.drawOperands c (.mem (addrOperand s 4))) s h rest k hq hs⟩
    | host => exact ⟨_, fun _ => rfl, plain (.drawOperands c .host)⟩
    | reserved => exact ⟨_, fun _ => rfl, endOf_struck (.raiseIllegal _)⟩
  | drawFilledRect c => exact ⟨_, fun _ => rfl, plain (.drawOperands c .solid)⟩
  | setFont =>
    refine ⟨_, fun _ => rfl, runCommand_struck .setFontBody fun _ => ⟨fun f hf => ?_, rfl⟩⟩
    simp only [List.mem_cons, List.not_mem_nil, or_false] at hf
    rcases hf with rfl | rfl <;> exact ⟨fun _ _ => rfl, fun _ _ => rfl⟩
  | getTextWidth =>
    refine ⟨_, fun _ => rfl, runCommand_struck .getTextWidthBody fun _ => ⟨fun f hf => ?_, rfl⟩⟩
    simp only [List.mem_cons, List.not_mem_nil, or_false] at hf
    subst hf
    exact ⟨fun _ _ => rfl, fun _ _ => rfl⟩
  | drawText c align =>
    by_cases ha : align = .reserved
    · exact ⟨_, fun s => by rw [exec, execDrawText, if_pos ha], endOf_struck (.raiseIllegal .reservedAlign)⟩
    · exact ⟨_, fun s => by rw [exec, execDrawText, if_neg ha], plain (.drawTextBody c align)⟩

/-- A pass of the poll loop can be struck. -/
theorem pollTurn_struck : StruckOrNot 0 pollTurn := afterPoll_struck .pollOnce

end Sys2Proof.Machine
end

