-- ==== Sys2Proof/Tests/Slice0.lean ====
section
/-! SUPPORT. The tests: the fixtures of spec/95_test_vectors.md section 0 and one-step vectors of its section 2, the checks
of WellFormed.lean, the decoding of words written out by the fields of R83, and for each obligation with hypotheses a
state and operands that meet them. -/

namespace Sys2Proof.Tests

open Sys2Proof Sys2Proof.Machine

/-! ### Fixtures (95_test_vectors.md section 0) -/

/-- Variant TV. -/
def variantTV : Variant where
  kRamX := 0x44
  kRamY := 0x45
  kXCnt := 0x4E
  kYCnt := 0x4F
  kWRam := 0x24
  fDem := [⟨0x11, [0x01]⟩]
  fVcom := [⟨0x2C, [0xA0]⟩]
  fBorder := [⟨0x3C, [0x64]⟩]
  fEnable := [⟨0x21, [0x03]⟩]
  fLut := [⟨0x32, [0x00]⟩]
  fDisable := [⟨0x22, [0x03]⟩]
  fSleep := [⟨0x10, [0x01]⟩]
  fActivate := [⟨0x22, [0xC4]⟩, ⟨0x20, []⟩]

/-- Instance S with TV; host memory is admitted where FAB and the text lie, `0x1000` to `0x1017` and `0x2000` to `0x200F`. -/
def instS : Params where
  sources := 16
  gates := 8
  variant := variantTV
  tRstLow := 10000
  tRstHigh := 10000
  pollInterval := 5
  busyActiveLevel := true
  dcCmdLevel := false
  sharedBus := false
  admitRows := [⟨1, 0x1000, 0x1017⟩, ⟨2, 0x1000, 0x1016⟩, ⟨4, 0x1000, 0x1014⟩, ⟨1, 0x2000, 0x200F⟩]
  regBase := 0x40000000

/-- Font FAB at `0x1000` and the text `41 42` at `0x2000`, the bytes that are not 0. -/
def memS : Memory :=
  [(0x1001, 0x07), (0x1002, 0x41), (0x1004, 0x42), (0x1006, 0x04), (0x1008, 0x03), (0x1009, 0x10), (0x100C, 0x02),
   (0x100D, 0x14), (0x1010, 0x02), (0x1011, 0x05), (0x1012, 0x07), (0x1013, 0x05), (0x1014, 0x03), (0x1015, 0x01),
   (0x1016, 0x03), (0x1017, 0x01), (0x2000, 0x41), (0x2001, 0x42)]

/-- Instance S after reset. -/
def idle : State := { State.reset with params := instS, mem := memS }

/-- Instance S with the host's bracket open (K-9). -/
def selected : State := { idle with sel := true }

/-- Instance S after PANEL_INIT 8×16 and START. -/
def panelled : State := { idle with panelInit := true, panelW := 8, panelH := 16, cstate := .started }

/-- The same after `SET_BG color=WHITE` and SET_FONT of FAB. -/
def fonted : State := { panelled with bgValid := true, bg := 3, fontValid := true, fontBase := 0x1000 }

/-- A state with operands latched. -/
def ops (s : State) (a0 a1 a2 a3 a4 a5 a6 : Word) : State := { s with opL := #v[a0, a1, a2, a3, a4, a5, a6] }

/-- The state a command answers. -/
def ran (i : Instr) (s : State) : State :=
  match exec i s with
  | .next t => t
  | .fault _ => s
  | .refused _ => s

/-- `ADDR(xs,xe,ys,ye)` on instance S with TV. -/
def addr (xs xe ys ye : Byte) : List Event :=
  [.cmd 0x44, .dat xs, .dat xe, .cmd 0x45, .dat ys, .dat ye, .cmd 0x4E, .dat xs, .cmd 0x4F, .dat ys, .cmd 0x24]

/-- `START_T`. -/
def startT : List Event :=
  [.xon, .bgn, .rst false, .dly 10000, .rst true, .dly 10000, .cmd 0x11, .dat 0x01, .cmd 0x2C, .dat 0xA0, .cmd 0x3C,
   .dat 0x64, .cmd 0x21, .dat 0x03, .cmd 0x32, .dat 0x00, .fin]

/-! ### WellFormed: an ill-formed term for each check -/

theorem test_reserved_src_is_ill_formed : Instr.wellFormed (.drawBitmap 1 .reserved) = false := by decide
theorem test_reserved_align_is_ill_formed : Instr.wellFormed (.drawText 1 .reserved) = false := by decide
theorem test_commands_are_well_formed :
    Instr.wellFormed (.drawBitmap 1 .host) = true ∧ Instr.wellFormed (.drawText 1 .right) = true := by decide

/-- R7: instance S is legal, and each bound is checked. -/
theorem test_params_bounds :
    instS.wellFormed = true ∧ Params.wellFormed { instS with sources := 3 } = false ∧
    Params.wellFormed { instS with sources := 1025 } = false ∧ Params.wellFormed { instS with gates := 0 } = false ∧
    Params.wellFormed { instS with gates := 65537 } = false ∧ Params.wellFormed { instS with tRstLow := 9999 } = false ∧
    Params.wellFormed { instS with tRstHigh := 9999 } = false ∧ Params.wellFormed { instS with pollInterval := 0 } = false := by
  decide

/-- R100: a repeated addressing byte, and an addressing byte as the command of a frame, are refused. -/
theorem test_variant_bounds :
    Variant.wellFormed { variantTV with kRamY := 0x44 } = false ∧
    Params.wellFormed { instS with variant := { variantTV with fLut := [⟨0x24, []⟩] } } = false := by decide

/-! ### Decoding: words by the fields of R83, `RSVD_SRC_ALIGN_COLOR_OPC` -/

theorem test_decode_plain :
    decode 0b000000000000000000_00_00_00_00000000 = .ok .nop ∧ decode 0b000000000000000000_00_00_00_00010000 = .ok .start ∧
    decode 0b000000000000000000_00_00_00_00010001 = .ok .stop ∧ decode 0b000000000000000000_00_00_00_00010010 = .ok .update ∧
    decode 0b000000000000000000_00_00_00_00010011 = .ok .select ∧
    decode 0b000000000000000000_00_00_00_00010100 = .ok .unselect := by decide

theorem test_decode_operands :
    decode 0b000000000000000000_00_00_00_00010101 = .ok .sendCmd ∧ decode 0b000000000000000000_00_00_00_00010110 = .ok .sendData ∧
    decode 0b000000000000000000_00_00_00_00010111 = .ok .setAddress ∧
    decode 0b000000000000000000_00_00_00_00100000 = .ok .panelInit ∧
    decode 0b000000000000000000_00_00_00_00100101 = .ok .setFont ∧
    decode 0b000000000000000000_00_00_00_00100110 = .ok .getTextWidth := by decide

theorem test_decode_fields :
    decode 0b000000000000000000_00_00_01_00100001 = .ok (.setBg 1) ∧
    decode 0b000000000000000000_00_00_10_00100010 = .ok (.fillDisplay 2) ∧
    decode 0b000000000000000000_01_00_11_00100011 = .ok (.drawBitmap 3 .mem) ∧
    decode 0b000000000000000000_10_00_01_00100011 = .ok (.drawBitmap 1 .host) ∧
    decode 0b000000000000000000_00_00_01_00100100 = .ok (.drawFilledRect 1) ∧
    decode 0b000000000000000000_00_01_11_00100111 = .ok (.drawText 3 .center) ∧
    decode 0b000000000000000000_00_10_01_00100111 = .ok (.drawText 1 .right) := by decide

/-- R90: E-19, E-20, E-21. -/
theorem test_decode_ignored_fields :
    decode 0b000000000000000000_11_00_00_00010000 = .ok .start ∧ decode 0b000000000000000000_00_11_00_00100011 = .ok (.drawBitmap 0 .solid) ∧
    decode 0b000000000000000000_11_00_00_00100111 = .ok (.drawText 0 .left) := by decide

/-- R89: E-14 to E-18, E-22, E-23. -/
theorem test_decode_illegal :
    decode 0x00000001 = .error .unassignedOpcode ∧ decode 0x00004010 = .error .reservedBits ∧
    decode 0x00003023 = .error .reservedSrc ∧ decode 0x00000C27 = .error .reservedAlign ∧
    decode 0xFFFFFFFF = .error .unassignedOpcode ∧ decode 0x00000018 = .error .unassignedOpcode ∧
    decode 0x00010000 = .error .reservedBits := by decide

/-- R88: the number of a word in spec/opcode_table.json is the word. -/
theorem test_table_word :
    decodeTableWord 32 0x2323 = some (.drawBitmap 3 .host) ∧ decodeTableWord 32 0x827 = some (.drawText 0 .right) ∧
    decodeTableWord 32 0x1 = none := by decide

/-- The example of R95: `DRAW_FILLED_RECT color=DARK A0=2 A1=1 A2=2 A3=2`. -/
theorem test_command_line :
    commandLine (.drawFilledRect 1) [some 2, some 1, some 2, some 2] =
      [.write 0x40 4 2, .write 0x44 4 1, .write 0x48 4 2, .write 0x4C 4 2, .write 0 4 0x00000124, .waitIdle] := by decide

/-- R80: the register block is the 128 bytes at `REG_BASE`. -/
theorem test_register_block :
    instS.regOffset 0x40000004 = some 0x04 ∧ instS.regOffset 0x4000007C = some 0x7C ∧ instS.regOffset 0x40000080 = none ∧
    instS.regOffset 0x3FFFFFFF = none := by decide

/-! ### The controller commands (95_test_vectors.md section 2.2) -/

/-- K-24. -/
theorem test_nop : (ran .nop idle).trace = [] ∧ statusWord (ran .nop idle) = 0 := by decide +kernel

/-- K-1. -/
theorem test_start : (ran .start idle).trace = startT ∧ statusWord (ran .start idle) = 0x10 := by decide +kernel

/-- K-2: a shared bus is acquired and released. -/
theorem test_start_shared :
    (ran .start { idle with params := { instS with sharedBus := true } }).trace =
      [.xon, .acq, .bgn] ++ (startT.drop 2).dropLast ++ [.fin, .rel] := by decide +kernel

/-- K-6. -/
theorem test_stop :
    (ran .stop { idle with cstate := .started }).trace =
      [.bgn, .cmd 0x22, .dat 0x03, .cmd 0x10, .dat 0x01, .fin, .xoff] ∧
    statusWord (ran .stop { idle with cstate := .started }) = 0x20 := by decide +kernel

/-- K-4: the line reads "not busy" at once. -/
theorem test_update :
    (ran .update { idle with busyLine := [false] }).trace =
      [.bgn, .cmd 0x22, .dat 0xC4, .cmd 0x20, .fin, .busy false] ∧
    (ran .update { idle with busyLine := [false] }).poll = false := by decide +kernel

/-- K-3, up to the first wait: UPDATE is in its poll loop. -/
theorem test_update_polls :
    (ran .update { idle with busy := true, busyLine := [true, true, false] }).trace =
      [.bgn, .cmd 0x22, .dat 0xC4, .cmd 0x20, .fin, .busy true, .dly 5] ∧
    (ran .update { idle with busy := true, busyLine := [true, true, false] }).poll = true := by decide +kernel

/-- K-9. -/
theorem test_select : (ran .select idle).trace = [.bgn] ∧ statusWord (ran .select idle) = 0x04 := by decide +kernel

/-- K-19, K-21: a second SELECT faults and the bracket is closed, with `REL` on a shared bus. -/
theorem test_select_twice :
    (ran .select { selected with cmdL := 0x13 }).faultInfo = 0x13000000 ∧ (ran .select selected).trace = [.fin] ∧
    (ran .select { selected with params := { instS with sharedBus := true } }).trace = [.fin, .rel] := by decide +kernel

/-- R110. -/
theorem test_unselect : (ran .unselect selected).trace = [.fin] ∧ statusWord (ran .unselect selected) = 0 := by decide +kernel

/-- K-18. -/
theorem test_unselect_closed :
    (ran .unselect { idle with cmdL := 0x14 }).faultInfo = 0x14010000 ∧ (ran .unselect idle).trace = [] := by decide +kernel

/-- K-16. -/
theorem test_send_cmd : (ran .sendCmd (ops selected 0x1FF 0 0 0 0 0 0)).trace = [.cmd 0xFF] := by decide +kernel

/-- R118. -/
theorem test_send_data : (ran .sendData (ops selected 0x1FF 0 0 0 0 0 0)).trace = [.dat 0xFF] := by decide +kernel

/-- K-17. -/
theorem test_send_data_closed :
    statusWord (ran .sendData { idle with cmdL := 0x16 }) = 0x00050002 ∧
    (ran .sendData { idle with cmdL := 0x16 }).faultInfo = 0x16020000 := by decide +kernel

/-- K-12: start and end need no order. -/
theorem test_set_address : (ran .setAddress (ops selected 3 0 0 7 0 0 0)).trace = addr 3 0 0 7 := by decide +kernel

/-- K-14: 296 gates, y addresses of two bytes, the low one first. -/
theorem test_set_address_wide :
    (ran .setAddress (ops { selected with params := { instS with gates := 296 } } 0 0 295 0 0 0 0)).trace =
      [.cmd 0x44, .dat 0, .dat 0, .cmd 0x45, .dat 0x27, .dat 0x01, .dat 0, .dat 0, .cmd 0x4E, .dat 0, .cmd 0x4F, .dat 0x27,
       .dat 0x01, .cmd 0x24] := by decide +kernel

/-! ### The packetizer (95_test_vectors.md section 2.3) -/

/-- P-1, P-2. -/
theorem test_packed_byte :
    [colorByte 0, colorByte 1, colorByte 2, colorByte 3] = [0x00, 0x55, 0xAA, 0xFF] ∧
    [slotColor 0xD8 0, slotColor 0xD8 1, slotColor 0xD8 2, slotColor 0xD8 3] = [3, 1, 2, 0] := by decide

/-- P-3. -/
theorem test_window_of :
    windowOf 8 0 0 8 16 = ⟨0, 3, 7, 0⟩ ∧ windowOf 8 7 15 1 1 = ⟨3, 3, 0, 0⟩ ∧ windowOf 8 2 1 2 2 = ⟨0, 0, 5, 4⟩ ∧
    windowOf 8 7 0 2 1 = ⟨0, 0, 0, -1⟩ := by decide

/-- P-18. -/
theorem test_panel_init :
    (ran .panelInit (ops idle 8 16 0 0 0 0 0)).panelW = 8 ∧ (ran .panelInit (ops idle 8 16 0 0 0 0 0)).panelH = 16 ∧
    statusWord (ran .panelInit (ops idle 8 16 0 0 0 0 0)) = 0x40 := by decide +kernel

/-- P-18: both extents, and a second PANEL_INIT. -/
theorem test_panel_init_faults :
    (ran .panelInit (ops { idle with cmdL := 0x20 } 9 16 0 0 0 0 0)).faultInfo = 0x20000009 ∧
    (ran .panelInit (ops { idle with cmdL := 0x20 } 8 17 0 0 0 0 0)).faultInfo = 0x20010011 ∧
    (ran .panelInit (ops { panelled with cmdL := 0x20 } 8 16 0 0 0 0 0)).faultInfo = 0x20010000 := by decide +kernel

/-- R141's example. -/
theorem test_set_bg : (ran (.setBg 3) idle).bg = 3 ∧ statusWord (ran (.setBg 3) idle) = 0x80 := by decide +kernel

/-- P-4. -/
theorem test_fill_display :
    (ran (.fillDisplay 2) panelled).trace = .bgn :: addr 0 3 7 0 ++ List.replicate 32 (.dat 0xAA) ++ [.fin] := by
  decide +kernel

/-- P-5. -/
theorem test_fill_display_unspecified :
    (ran (.fillDisplay 3) { panelled with panelH := 14, cmdL := 0x322 }).faultInfo = 0x2200000E ∧
    (ran (.fillDisplay 3) { panelled with panelH := 14 }).cause = .unspecified ∧
    (ran (.fillDisplay 3) { panelled with panelH := 14 }).trace = [] := by decide +kernel

/-- P-7: the glyph 'A' of FAB as a bitmap. -/
theorem test_draw_bitmap_mem :
    (ran (.drawBitmap 0 .mem) (ops fonted 0 0 3 4 0x1010 0 0)).trace =
      .bgn :: addr 0 0 7 5 ++ [.dat 0xC0, .dat 0x33, .dat 0xC0, .fin] := by decide +kernel

/-- P-12: two samples, asked column by column. -/
theorem test_draw_bitmap_host :
    (ran (.drawBitmap 3 .host) (ops { panelled with bgValid := true, samples := [true, false] } 0 0 2 1 0 0 0)).trace =
      .bgn :: addr 0 0 7 6 ++ [.dat 0xC0, .dat 0x00, .fin] ∧
    (ran (.drawBitmap 3 .host) (ops { panelled with bgValid := true, samples := [true, false] } 0 0 2 1 0 0 0)).sampleLog =
      [⟨2, 1, 0, 0⟩, ⟨2, 1, 1, 0⟩] := by decide +kernel

/-- P-10: a partly filled first and last byte. -/
theorem test_filled_rect :
    (ran (.drawFilledRect 3) (ops panelled 0 1 1 6 0 0 0)).trace =
      .bgn :: addr 0 1 7 7 ++ [.dat 0x3F, .dat 0xFC, .fin] := by decide +kernel

/-- P-20: past the right edge. -/
theorem test_filled_rect_right_edge :
    (ran (.drawFilledRect 0) (ops { panelled with cmdL := 0x24 } 7 0 2 1 0 0 0)).trace = [.bgn, .fin] ∧
    (ran (.drawFilledRect 0) (ops { panelled with cmdL := 0x24 } 7 0 2 1 0 0 0)).faultInfo = 0x2403FFFF := by decide +kernel

/-- O-2, with a filled rectangle: what the observer sees of P-8. A pixel beside the panel has no colour (R73). -/
theorem test_observer :
    let t := ran (.drawFilledRect 1) (ops panelled 2 1 2 2 0 0 0);
    let o := ({ Observer.init with powered := true } : Observer).follow (ops panelled 2 1 2 2 0 0 0) t;
    o.byteAt 5 0 = some 0x14 ∧ o.byteAt 4 0 = some 0x14 ∧ o.byteAt 3 0 = none ∧ o.pixel 8 16 2 1 = some 1 ∧
    o.pixel 8 16 3 2 = some 1 ∧ o.pixel 8 16 2 0 = some 0 ∧ o.pixel 8 2 2 2 = none := by decide +kernel

/-- The observer of a started, powered controller after events of the host's own. -/
def watched (es : List Event) : Observer := es.foldl (Observer.see instS true) { Observer.init with powered := true }

/-- R71: a data byte after `END` is still an address, and the RAM is forgotten. R72: the counters move while `Wr` is set
and the RAM is forgotten; with an unknown window end they become unknown (log 15). A two-byte y address of which one byte
came is unknown (log 15). -/
theorem test_observer_data :
    ([Event.cmd 0x4F, .dat 7, .dat 0, .cmd 0x4F, .dat 5].foldl (Observer.see { instS with gates := 300 } true) Observer.init).yc = none ∧
    (watched [.cmd 0x4E, .fin, .bgn, .dat 2]).xc = some 2 ∧
    (watched (addr 0 3 7 0 ++ [.dat 0xAA, .fin, .dat 0x55])).ram = [] ∧
    (watched (addr 0 3 7 0 ++ [.dat 0xAA, .fin, .dat 0x55])).xc = some 2 ∧
    (watched [.cmd 0x4E, .dat 0, .cmd 0x4F, .dat 7, .cmd 0x24, .dat 0xAA]).xc = none := by decide +kernel

/-- R203: a reset of the block makes the RAM unknown. -/
theorem test_observer_reset :
    ((watched (addr 0 3 7 0 ++ [.dat 0xAA])).follow panelled (applyReset panelled)).byteAt 7 0 = none ∧
    (watched (addr 0 3 7 0 ++ [.dat 0xAA])).byteAt 7 0 = some 0xAA := by decide +kernel

/-! ### Text (95_test_vectors.md section 2.4) -/

/-- T-1. -/
theorem test_set_font :
    (ran .setFont (ops panelled 0 0 0 0 0x1000 0 0)).fontBase = 0x1000 ∧
    statusWord (ran .setFont (ops panelled 0 0 0 0 0x1000 0 0)) = 0x150 := by decide +kernel

/-- T-2: header bytes 2 to 5 are `42 00 41 00`. -/
theorem test_set_font_header :
    (ran .setFont (ops { panelled with cmdL := 0x25, mem := Memory.write (Memory.write memS 0x1002 0x42) 0x1004 0x41 }
      0 0 0 0 0x1000 0 0)).faultInfo = 0x25000042 := by decide +kernel

/-- T-4: the text `41 20 42`. -/
theorem test_get_text_width :
    (ran .getTextWidth (ops { idle with mem := Memory.write (Memory.write memS 0x2001 0x20) 0x2002 0x42 }
      0 0 0 0 0x1000 0x2000 3)).result = 5 := by decide +kernel

/-- R13: a read that is not admitted, with the width and the address recorded. -/
theorem test_get_text_width_mem_error :
    (ran .getTextWidth (ops { idle with cmdL := 0x26 } 0 0 0 0 0x1000 0x3000 1)).faultInfo = 0x26000001 ∧
    (ran .getTextWidth (ops { idle with cmdL := 0x26 } 0 0 0 0 0x1000 0x3000 1)).faultAddr = 0x3000 := by decide +kernel

/-- T-5. -/
theorem test_draw_text :
    (ran (.drawText 0 .left) (ops fonted 0 0 0 0 0 0x2000 2)).trace =
      .bgn :: addr 0 0 7 5 ++ [.dat 0xC0, .dat 0x33, .dat 0xC0, .fin, .bgn] ++ addr 0 0 4 3 ++
        [.dat 0x00, .dat 0x33, .fin] := by decide +kernel

/-- T-6 and T-7: centred at 4 the text starts at 2; from 4 on, 'B' does not fit. -/
theorem test_draw_text_align :
    (ran (.drawText 0 .center) (ops fonted 4 0 0 0 0 0x2000 2)).trace =
      .bgn :: addr 0 0 5 3 ++ [.dat 0xC0, .dat 0x33, .dat 0xC0, .fin, .bgn] ++ addr 0 0 2 1 ++
        [.dat 0x00, .dat 0x33, .fin] ∧
    (ran (.drawText 0 .left) (ops fonted 4 0 0 0 0 0x2000 2)).trace =
      .bgn :: addr 0 0 3 1 ++ [.dat 0xC0, .dat 0x33, .dat 0xC0, .fin] := by decide +kernel

/-! ### Acceptance, the step, reset (95_test_vectors.md sections 2.5 and 2.6) -/

/-- The state a step answers. -/
def stepped (s : State) : State :=
  match step s with
  | .next t => t
  | .fault _ => s
  | .refused _ => s

/-- X-6. -/
theorem test_illegal :
    statusWord (stepped { idle with host := [.write 0 4 0x00000001] }) = 0x00010002 ∧
    (stepped { idle with host := [.write 0 4 0x00000001] }).faultInfo = 0x01000001 := by decide +kernel

/-- X-1, X-2: a halted block ignores `CMD` and takes an argument. -/
theorem test_halted :
    (stepped { idle with fault := true, host := [.write 0 4 0x10] }).trace = [] ∧
    (stepped { idle with fault := true, host := [.write 0x40 4 5] }).args[(0 : Fin 7)] = 5 := by decide +kernel

/-- X-3: a `CMD` write under a running START, taken after its third event; the turn after `BEGIN` is one of its own. -/
theorem test_overrun :
    (stepped { idle with host := [.write 0 4 0x10, .pause, .pause, .pause, .pause, .write 0 4 0x4010] }).trace =
      [.xon, .bgn, .rst false, .fin] ∧
    (stepped { idle with host := [.write 0 4 0x10, .pause, .pause, .pause, .pause, .write 0 4 0x4010] }).faultInfo =
      0x10004010 := by decide +kernel

/-- R17, R183 on a shared bus: a `CMD` write between `ACQ` and `BEGIN`, where no bracket is open yet, and one between `END`
and `REL`, where `Sel` is still set. -/
theorem test_overrun_in_bracket_events :
    (ran .select { idle with params := { instS with sharedBus := true }, host := [.pause, .write 0 4 0] }).trace = [.acq] ∧
    (ran .unselect { selected with params := { instS with sharedBus := true }, host := [.pause, .write 0 4 0] }).trace =
      [.fin, .fin, .rel] := by decide +kernel

/-- R122, R183: a `CMD` write between `BEGIN` and `Sel <- true`: fault entry closes the bracket. -/
theorem test_overrun_after_begin :
    (ran .select { idle with host := [.pause, .write 0 4 0] }).trace = [.bgn, .fin] ∧
    statusWord (ran .select { idle with host := [.pause, .write 0 4 0] }) = 0x00090002 := by decide +kernel

/-- A SET_BG with the host's read of `BG` and a `CMD` write after the first of its two register writes. -/
def overrunAmongWrites : State :=
  ran (.setBg 3) { idle with busy := true, cmdL := 0x321, host := [.pause, .read 0x24 4, .write 0 4 0x10] }

/-- R183, R204: while `BUSY` = 1 the write raises `CMD_OVERRUN`. R185: the faulted command leaves `BG` and `BGV` as they were. -/
theorem test_overrun_among_register_writes :
    overrunAmongWrites.regReads = [3] ∧ overrunAmongWrites.bg = 0 ∧ statusWord overrunAmongWrites = 0x00090002 ∧
    overrunAmongWrites.faultInfo = 0x21000010 ∧ overrunAmongWrites.host = [] := by decide +kernel

/-- R185, in order: a second SELECT has recorded `FAULT_INFO` before its `END`; an UNSELECT with no bracket open has
`FAULT` = 1 before `BUSY` falls, and a `CMD` write then waits and is ignored (R182). -/
theorem test_fault_entry_order :
    (let t := ran .select { selected with cmdL := 0x13, host := [.pause, .pause, .read 0x08 4, .reset] };
      t.regReads = [0x13000000] ∧ t.trace = []) ∧
    (let s := { idle with busy := true, cmdL := 0x14, host := [.pause, .pause, .read 0x04 4, .pause, .read 0x04 4] };
      (ran .unselect s).regReads = [0x1, 0x00050003]) ∧
    (let t := ran .unselect { idle with busy := true, cmdL := 0x14, host := [.pause, .write 0 4 0x10] };
      t.cause = .bracket ∧ t.host = [.write 0 4 0x10] ∧ (stepped t).host = [] ∧ (stepped t).trace = []) := by decide +kernel

/-- I-4: a reset during START, after `RST(0)`. -/
theorem test_reset_during_start :
    (stepped { idle with host := [.write 0 4 0x10, .pause, .pause, .pause, .pause, .reset] }).trace =
      [.xon, .bgn, .rst false] ∧
    statusWord (stepped { idle with host := [.write 0 4 0x10, .pause, .pause, .pause, .pause, .reset] }) = 0 := by
  decide +kernel

/-- A rectangle past the right edge, with a reset at its third turn: the first is before `BEGIN`, the second before `Sel` is set. -/
def resetBeforeFault : State := ran (.drawFilledRect 0) (ops { panelled with host := [.pause, .pause, .reset] } 7 0 2 1 0 0 0)

/-- R200: a reset between `ACQ` and `BEGIN` on a shared bus, and one between `BEGIN` and the fault of a window out of range. -/
theorem test_reset_in_bracket_events :
    (ran .select { idle with params := { instS with sharedBus := true }, host := [.pause, .reset] }).trace = [.acq] ∧
    resetBeforeFault.trace = [.bgn] ∧ resetBeforeFault.fault = false := by decide +kernel

/-- R17, R217: `STATUS` before SET_BG writes `BGV`: only `BUSY`. R35, R204: a `CMD` write that comes later finds the command
complete, `BGV` = 1 and `BUSY` = 0. -/
theorem test_last_write_completes :
    (ran (.setBg 3) { idle with busy := true, host := [.pause, .read 0x04 4] }).regReads = [0x1] ∧
    (let t := ran (.setBg 3) { idle with busy := true, host := [.pause, .pause, .write 0 4 0x10] };
      statusWord t = 0x80 ∧ t.host = [.write 0 4 0x10] ∧ statusWord (stepped t) = 0x90) := by decide +kernel

/-- K-23: a `CMD` write ends the poll of an UPDATE. -/
theorem test_poll_overrun :
    statusWord (stepped { idle with poll := true, busy := true, cmdL := 0x12, cstate := .started, host := [.write 0 4 0] }) =
      0x00090012 := by decide +kernel

/-- I-1. -/
theorem test_read_registers :
    (stepped { idle with host := [.read 0x14 4] }).regReads = [16] ∧ (stepped { idle with host := [.read 0x18 4] }).regReads = [8] ∧
    (stepped { idle with host := [.read 0x2C 4] }).regReads = [0] := by decide +kernel

/-- The fetch: from reset, with no host action pending, the next step latches the word. -/
theorem test_with_fetch_word : (stepped (idle.withFetchWord 32 0x13)).cmdL = 0x13 ∧ (stepped (idle.withFetchWord 32 0x13)).sel = true := by
  decide +kernel

/-! ### Witnesses: for each obligation with hypotheses, a state and operands that meet them, each clause at a boundary -/

theorem witness_DecodeInvertsEncode :
    Instr.wellFormed (.drawText 3 .right) = true ∧ Instr.wellFormed (.drawBitmap 3 .host) = true := by decide

theorem witness_DecodedWordMatchesOpcode :
    decode 0x3F10 = .ok .start ∧ decode 0x3F21 = .ok (.setBg 3) ∧ decode 0x3D22 = .ok (.fillDisplay 1) ∧
    decode 0x3E24 = .ok (.drawFilledRect 2) ∧ decode 0x2F23 = .ok (.drawBitmap 3 .host) ∧
    decode 0x3B27 = .ok (.drawText 3 .right) := by decide

/-- One word for each clause: no assigned opcode, reserved bits (bit 14 alone), `SRC` 3, `ALIGN` 3, legal. -/
theorem witness_IllegalWordsInOrder :
    (0x00000028#32 &&& 0xFF#32).toNat ∉ [0x00, 0x10, 0x11, 0x12, 0x13, 0x14, 0x15, 0x16, 0x17, 0x20, 0x21, 0x22, 0x23, 0x24, 0x25, 0x26, 0x27] ∧
    (0x00004027#32) >>> 14 ≠ 0#32 ∧ ((0x00003023#32) >>> 12) &&& 3#32 = 3#32 ∧ (0x00003023#32) >>> 14 = 0#32 ∧
    ((0x00000C27#32) >>> 10) &&& 3#32 = 3#32 ∧ (0x00000C27#32) >>> 14 = 0#32 ∧ (0x00003F26#32) >>> 14 = 0#32 := by decide

/-- Words that differ in the fields their opcode ignores, one pair for each clause. -/
theorem witness_UnusedFieldsAreIgnored :
    ((0x3F10#32).extractLsb' 0 8 = (0x0010#32).extractLsb' 0 8 ∧ (0x3F10#32).extractLsb' 14 18 = (0x0010#32).extractLsb' 14 18) ∧
    ((0x3D21#32).extractLsb' 0 8 = (0x0121#32).extractLsb' 0 8 ∧ (0x3D21#32).extractLsb' 14 18 = (0x0121#32).extractLsb' 14 18) ∧
    ((0x2F23#32).extractLsb' 0 8 = (0x2323#32).extractLsb' 0 8 ∧ (0x2F23#32).extractLsb' 14 18 = (0x2323#32).extractLsb' 14 18) ∧
    ((0x3B27#32).extractLsb' 0 8 = (0x0B27#32).extractLsb' 0 8 ∧ (0x3B27#32).extractLsb' 14 18 = (0x0B27#32).extractLsb' 14 18) ∧
    (0x3D21#32).extractLsb' 8 2 = (0x0121#32).extractLsb' 8 2 ∧ (0x2F23#32).extractLsb' 8 2 = (0x2323#32).extractLsb' 8 2 ∧
    (0x2F23#32).extractLsb' 12 2 = (0x2323#32).extractLsb' 12 2 ∧ (0x3B27#32).extractLsb' 8 2 = (0x0B27#32).extractLsb' 8 2 ∧
    (0x3B27#32).extractLsb' 10 2 = (0x0B27#32).extractLsb' 10 2 := by decide

/-- A block with the host's actions `h` to come. -/
def hosted (s : State) (h : List HostAction) : State := { s with host := h }

/-- An UPDATE in its poll loop. -/
def polling : State := { idle with busy := true, poll := true, cmdL := 0x12, cstate := .started }

/-- A halted block. -/
def halted : State := { idle with fault := true, cause := .bracket, faultInfo := 0x14010000 }

theorem witness_StepRunsTheDecodedCommand :
    (hosted idle [.write 0 4 0x3F10, .waitIdle]).poll = false ∧ (hosted idle [.write 0 4 0x3F10, .waitIdle]).fault = false ∧
    (hosted idle [.write 0 4 0x3F10, .waitIdle]).busy = false ∧ decode 0x3F10 = .ok .start := by decide

theorem witness_StepRaisesIllegal :
    (hosted idle [.write 0 4 0xFFFFFFFF]).poll = false ∧ (hosted idle [.write 0 4 0xFFFFFFFF]).fault = false ∧
    (hosted idle [.write 0 4 0xFFFFFFFF]).busy = false ∧ decode 0xFFFFFFFF = .error .unassignedOpcode ∧
    (hosted idle []).quiet = true := by decide

theorem witness_WaitIdleWaitsOrStops :
    ((hosted idle [.waitIdle]).host = [.waitIdle] ∧ (hosted idle [.waitIdle]).poll = false ∧
      (hosted idle [.waitIdle]).busy = false ∧ (hosted idle [.waitIdle]).fault = false) ∧
    ((hosted halted [.waitIdle, .pause, .reset]).poll = false ∧ (hosted halted [.waitIdle, .pause, .reset]).busy = false ∧
      (hosted halted [.waitIdle, .pause, .reset]).fault = true) ∧
    (hosted polling [.waitIdle]).poll = true := by decide

theorem witness_HaltedBlockIgnoresCommands :
    (hosted halted [.write 0 4 0x10]).poll = false ∧ (hosted halted [.write 0 4 0x10]).fault = true := by decide

/-- Without and with an open bracket, and under a poll; after the write the host waits. -/
theorem witness_CommandWriteEndsTheRunningCommand :
    (hosted idle [.write 0 4 0]).fault = false ∧ (hosted idle []).quiet = true ∧
    (hosted selected [.write 0 4 0, .waitIdle]).fault = false ∧ (hosted selected [.waitIdle]).quiet = true ∧
    (hosted polling [.write 0 4 0]).poll = true ∧ (hosted polling [.write 0 4 0]).fault = false := by decide

/-- A NOP, whose turn before completion takes the write at once but not after one pause; a SET_BG, whose two register writes
take it between them, after one pause, but not after two; a pass of a poll loop. -/
theorem witness_CommandWriteStopsACommandAtAnyStep :
    idle.fault = false ∧ exec .nop (hosted idle []) = .next (ran .nop idle) ∧
    (ran .nop (hosted idle [.write 0 4 0])).cause = .cmdOverrun ∧
    ran .nop (hosted idle [.pause, .write 0 4 0]) = hosted (ran .nop idle) [.write 0 4 0] ∧
    writeTurns (.setBg 3) = 1 ∧ (ran (.setBg 3) (hosted idle [.pause, .write 0 4 0])).cause = .cmdOverrun ∧
    (ran (.setBg 3) (hosted idle [.pause, .pause, .write 0 4 0])).cause = .none ∧
    polling.fault = false ∧ polling.poll = true ∧ ∃ u, step (hosted polling []) = .next u :=
  ⟨by decide, rfl, by decide +kernel, by decide +kernel, rfl, by decide +kernel, by decide +kernel, by decide, by decide, _, rfl⟩

theorem witness_AcceptanceChecksInOrder :
    selected.sel = true ∧ selected.quiet = true ∧ idle.sel = false ∧ idle.panelInit = false ∧ idle.quiet = true ∧
    Instr.wellFormed (.drawText 0 .right) = true ∧ Instr.wellFormed (.drawBitmap 0 .host) = true := by decide

/-- The first and last argument register, and the offsets next to them; idle, halted and polling. -/
theorem witness_RegisterWritesStoreOrAreIgnored :
    BitVec.ofNat 7 (0x40 + 4 * (0 : Fin 7).val) = 0x40#7 ∧ BitVec.ofNat 7 (0x40 + 4 * (6 : Fin 7).val) = 0x58#7 ∧
    (∀ off ∈ [0x04#7, 0x3C#7, 0x5C#7, 0x7C#7], off.toNat % 4 = 0 ∧ off ≠ 0 ∧ (off.toNat < 0x40 ∨ 0x58 < off.toNat)) ∧
    (hosted halted [.write 0x40 4 5]).poll = false ∧ (hosted polling [.write 0x58 4 5, .waitIdle]).poll = true := by decide

theorem witness_RegisterReadsReturnTheRegisters :
    (∀ off ∈ [0x00#7, 0x04#7, 0x28#7, 0x2C#7, 0x40#7, 0x58#7, 0x5C#7, 0x7C#7], off.toNat % 4 = 0) ∧
    (hosted idle [.read 0x58 4]).poll = false ∧ (hosted polling [.read 0x04 4]).poll = true := by decide

theorem witness_BadAccessesAreRefused :
    ((2 : Nat) ≠ 4 ∨ (0x40#7).toNat % 4 ≠ 0) ∧ ((4 : Nat) ≠ 4 ∨ (0x42#7).toNat % 4 ≠ 0) ∧
    (hosted idle [.read 0x42 4]).poll = false := by decide

theorem witness_ResetActionResetsTheBlock :
    (hosted polling [.reset]).host = [.reset] ∧ (hosted halted [.reset, .pause]).host = [.reset, .pause] := by decide

/-- A reset of a NOP before its completion, one that comes after it, and one under a pass of a poll loop. -/
theorem witness_ResetStopsACommandAtAnyStep :
    exec .nop (hosted idle []) = .next (ran .nop idle) ∧
    (ran .nop { hosted idle [.reset] with bg := 3 }).bg = 0 ∧
    (ran .nop { hosted idle [.pause, .reset] with bg := 3 }).bg = 3 ∧
    polling.poll = true ∧ ∃ u, step (hosted polling []) = .next u :=
  ⟨rfl, by decide +kernel, by decide +kernel, by decide, _, rfl⟩

/-- In an open bracket and outside one, with an address and without one; a host that waits, one that acts, and the hosts
that read and reset. -/
theorem witness_FaultEntryRecordsAndHalts :
    (hosted selected [.pause, .read 0x08 4, .reset]).host = [.pause, .read 0x08 4, .reset] ∧
    (hosted selected [.pause, .pause, .read 0x0C 4, .reset]).host = [.pause, .pause, .read 0x0C 4, .reset] ∧
    (let s := hosted { idle with busy := true } [.pause, .pause, .read 0x04 4];
      s.sel = false ∧ s.busy = true ∧ s.host = [.pause, .pause, .read 0x04 4]) ∧
    (hosted selected [.read 0x04 4, .write 0x40 4 5]).noReset = true ∧ selected.noReset = true ∧ idle.noReset = true ∧
    selected.quiet = true ∧ (some 0x1000 : Option Nat) = some 0x1000 ∧ (none : Option Nat) = none := by decide

theorem witness_FaultIsKeptUntilReset :
    (hosted halted [.write 0 4 0x10]).fault = true ∧ (hosted halted [.write 0 4 0x10]).poll = false ∧
    (hosted halted [.write 0 4 0x10]).host.head? ≠ some .reset ∧
    ∃ t, step (hosted halted [.write 0 4 0x10]) = .next t := ⟨by decide, by decide, by decide, _, rfl⟩

/-- Out of the 32-bit space by one byte; not admitted by one byte; the last admitted pair of FAB; one byte of it changed. -/
theorem witness_MemoryReadOutcomes :
    idle.quiet = true ∧ 0xFFFFFFFF + 2 > 2 ^ 32 ∧ idle.params.admits 0x1017 2 = false ∧
    0x1016 + 2 ≤ 2 ^ 32 ∧ idle.params.admits 0x1016 2 = true ∧ (∀ b ∈ idle.racy, b < 0x1016 ∨ 0x1016 + 2 ≤ b) ∧
    (∀ b ∈ [0x1015, 0x1018], b < 0x1016 ∨ 0x1016 + 2 ≤ b) ∧ (∃ b ∈ [0x1017], 0x1016 ≤ b ∧ b < 0x1016 + 2) := by decide

theorem witness_NopCompletes : idle.quiet = true ∧ (hosted selected [.waitIdle]).quiet = true := by decide

theorem witness_StartCompletes : (hosted idle [.waitIdle, .reset]).quiet = true ∧ idle.sel = false ∧ selected.sel = true := by decide

theorem witness_StopCompletes : (hosted panelled [.waitIdle]).quiet = true ∧ panelled.sel = false ∧ selected.sel = true := by decide

/-- A line that reads "not busy", and one that reads "busy". -/
theorem witness_UpdateCompletesOrPolls :
    idle.quiet = true ∧ idle.sel = false ∧
    State.levelAt { idle with busyLine := [false] } 0 ≠ idle.params.busyActiveLevel ∧
    State.levelAt { idle with busyLine := [true, false] } 0 = idle.params.busyActiveLevel := by decide

/-- A line that reads "busy" twice and then clears. -/
theorem witness_PollEndsWhenTheLineClears :
    let s := { polling with busyLine := [true, true, false] };
    s.poll = true ∧ s.quiet = true ∧ (∀ k < 2, s.levelAt k = s.params.busyActiveLevel) ∧
    s.levelAt 2 ≠ s.params.busyActiveLevel ∧ BusyEventuallyClears s :=
  ⟨by decide, by decide, by decide, by decide, 2, by decide⟩

theorem witness_HostBracketOpensAndCloses :
    idle.quiet = true ∧ idle.sel = false ∧ selected.quiet = true ∧ selected.sel = true := by decide

theorem witness_RawBytesAreSent : selected.quiet = true ∧ selected.sel = true ∧ idle.sel = false ∧ idle.quiet = true := by decide

/-- The largest legal addresses. -/
theorem witness_SetAddressSendsTheWindow :
    let s := ops selected 3 3 7 7 0 0 0;
    s.quiet = true ∧ s.sel = true ∧ coord s 0 < s.params.sources / 4 ∧ coord s 1 < s.params.sources / 4 ∧
    coord s 2 < s.params.gates ∧ coord s 3 < s.params.gates := by decide

theorem witness_BracketMisuseFaults :
    selected.sel = true ∧ selected.quiet = true ∧ idle.sel = false ∧ idle.quiet = true := by decide

/-- For each clause the smallest value out of range, after the largest ones in range. -/
theorem witness_WindowCheckReportsTheFirstBadValue :
    selected.sel = true ∧ selected.quiet = true ∧ instS.sources / 4 = 4 ∧ instS.gates = 8 ∧
    coord (ops selected 4 9 9 9 0 0 0) 0 = 4 ∧
    (coord (ops selected 3 4 9 9 0 0 0) 0 = 3 ∧ coord (ops selected 3 4 9 9 0 0 0) 1 = 4) ∧
    (coord (ops selected 3 3 8 9 0 0 0) 1 = 3 ∧ coord (ops selected 3 3 8 9 0 0 0) 2 = 8) ∧
    (coord (ops selected 3 3 7 8 0 0 0) 2 = 7 ∧ coord (ops selected 3 3 7 8 0 0 0) 3 = 8) := by decide

/-- The largest panel, and the empty one; a second PANEL_INIT, and the smallest extents out of range. -/
theorem witness_PanelInitSetsThePanelOrFaults :
    (let s := ops idle 8 16 0 0 0 0 0;
      s.quiet = true ∧ s.panelInit = false ∧ coord s 0 ≤ s.params.gates ∧ coord s 1 ≤ s.params.sources) ∧
    (let s := ops idle 0 0 0 0 0 0 0;
      s.quiet = true ∧ s.panelInit = false ∧ coord s 0 ≤ s.params.gates ∧ coord s 1 ≤ s.params.sources) ∧
    (panelled.quiet = true ∧ panelled.panelInit = true) ∧
    (let s := ops idle 9 17 0 0 0 0 0;
      s.panelInit = false ∧ s.params.gates < coord s 0) ∧
    (let s := ops idle 8 17 0 0 0 0 0;
      s.panelInit = false ∧ coord s 0 ≤ s.params.gates ∧ s.params.sources < coord s 1) := by decide

theorem witness_SetBgSetsTheBackground : selected.quiet = true := by decide

/-- The largest and the smallest panel; a height of 15; a height of 0, with a width; a width of 0. -/
theorem witness_FillDisplayFillsThePanelOrFaults :
    (panelled.quiet = true ∧ panelled.sel = false ∧ panelled.panelInit = true ∧ 0 < panelled.panelW.toNat ∧
      panelled.panelW.toNat ≤ panelled.params.gates ∧ 0 < panelled.panelH.toNat ∧
      panelled.panelH.toNat ≤ panelled.params.sources ∧ panelled.panelH.toNat % 4 = 0) ∧
    (let s := { panelled with panelW := 1, panelH := 4 };
      s.quiet = true ∧ s.sel = false ∧ s.panelInit = true ∧ 0 < s.panelW.toNat ∧ s.panelW.toNat ≤ s.params.gates ∧
      0 < s.panelH.toNat ∧ s.panelH.toNat ≤ s.params.sources ∧ s.panelH.toNat % 4 = 0) ∧
    ({ panelled with panelH := 15 } : State).panelH.toNat % 4 ≠ 0 ∧
    (let s := { panelled with panelH := 0 };
      s.quiet = true ∧ 4 ≤ s.params.sources ∧ s.panelH = 0) ∧
    (let s := { panelled with panelW := 0 };
      s.quiet = true ∧ s.panelH.toNat % 4 = 0 ∧ 0 < s.panelH.toNat ∧ s.panelH.toNat ≤ s.params.sources ∧ s.panelW = 0) := by
  decide

/-- The last pixel of the panel; P-15, a width of 0; P-17, a height of 0. -/
theorem witness_FilledRectDrawsPackedColumns :
    panelled.quiet = true ∧ panelled.sel = false ∧ panelled.panelInit = true ∧
    (panelled.window 7 15 1 1).inRange instS = true ∧ (panelled.window 2 0 0 4).inRange instS = true ∧
    (panelled.window 0 5 1 0).inRange instS = true ∧
    coord (ops panelled 7 15 1 1 0 0 0) 1 = 15 := by decide

/-- P-7 with a background; a bitmap of 1 bits alone without one. -/
theorem witness_BitmapFromMemoryIsDrawn :
    (let s := ops fonted 0 0 3 4 0x1010 0 0;
      s.quiet = true ∧ s.sel = false ∧ s.panelInit = true ∧ s.racy = [] ∧
      (s.window (coord s 0) (coord s 1) (coord s 2) (coord s 3)).inRange s.params = true ∧
      (∀ r ∈ bitmapReads (addrOperand s 4) (coord s 2) (coord s 3), s.params.readable r.addr r.width = true) ∧
      bitmapDrawable s (addrOperand s 4) (coord s 2) (coord s 3) = true) ∧
    (let s := ops panelled 0 0 1 4 0x1014 0 0;
      s.bgValid = false ∧ (s.window (coord s 0) (coord s 1) (coord s 2) (coord s 3)).inRange s.params = true ∧
      (∀ r ∈ bitmapReads (addrOperand s 4) (coord s 2) (coord s 3), s.params.readable r.addr r.width = true) ∧
      bitmapDrawable s (addrOperand s 4) (coord s 2) (coord s 3) = true) := by decide +kernel

/-- P-12 with a background; the answers all true without one. -/
theorem witness_BitmapFromHostSamplesIsDrawn :
    (let s := ops { panelled with bgValid := true, samples := [true, false] } 0 0 2 1 0 0 0;
      s.quiet = true ∧ s.sel = false ∧ s.panelInit = true ∧
      (s.window (coord s 0) (coord s 1) (coord s 2) (coord s 3)).inRange s.params = true ∧ s.bgValid = true) ∧
    (let s := ops { panelled with samples := [true, true] } 0 0 2 1 0 0 0;
      s.bgValid = false ∧ ∀ k < coord s 2 * coord s 3, s.answerAt k = true) := by decide +kernel

/-- P-8, with the observer after an `XON`. -/
theorem witness_FilledRectPaintsItsPixels :
    ∃ t, instS.wellFormed = true ∧ (ops panelled 2 1 2 2 0 0 0).quiet = true ∧ panelled.sel = false ∧
      panelled.panelInit = true ∧ panelled.cstate = .started ∧
      (Observer.see instS true Observer.init .xon).powered = true ∧ (panelled.window 2 1 2 2).inRange instS = true ∧
      exec (.drawFilledRect 1) (ops panelled 2 1 2 2 0 0 0) = .next t ∧ 1 < coord (ops panelled 2 1 2 2 0 0 0) 2 ∧
      1 < coord (ops panelled 2 1 2 2 0 0 0) 3 :=
  ⟨_, by decide, by decide, by decide, by decide, by decide, by decide, by decide, rfl, by decide, by decide⟩

/-- A DRAW_TEXT of the text `41 42` of FAB at `(x, y)`. -/
def texted (s : State) (x y : Word) : State := ops s x y 0 0 0 0x2000 2

/-- Each `DETAIL` of a draw: P-14, `y` at the last row and beyond the RAM; a last row beyond it; P-16, a height of 0 at
`y` = 0; a panel of no width; P-20; T-12, a glyph of height 0 at `y` = 0. -/
theorem witness_DrawWindowFaultsReportTheFirstBadValue :
    panelled.quiet = true ∧ panelled.sel = false ∧ panelled.panelInit = true ∧
    (panelled.window 0 16 1 1).firstBad instS = some (0, 4) ∧ (panelled.window 0 15 1 2).firstBad instS = some (1, 4) ∧
    (panelled.window 0 0 1 0).firstBad instS = some (1, -1) ∧ (panelled.window 8 0 1 1).firstBad instS = some (2, -1) ∧
    (panelled.window 7 0 2 1).firstBad instS = some (3, -1) ∧ (panelled.window 1 0 8 16).firstBad instS = some (3, -1) ∧
    (let s := texted { fonted with mem := Memory.write memS 0x1006 0 } 0 0;
      GlyphReaches s .left 0 ∧ (s.glyphWindow .left 0).firstBad instS = some (1, -1)) := by
  refine ⟨by decide, by decide, by decide, by decide, by decide, by decide, by decide, by decide, by decide, ?_, by decide +kernel⟩
  exact ⟨⟨by decide, by decide, by decide, by decide, by decide, by decide, by decide +kernel, by decide +kernel,
    by unfold glyphsFit; decide, by decide +kernel, by decide +kernel, by decide +kernel⟩, by decide +kernel, by decide +kernel,
    by decide +kernel⟩

/-- P-13, where the first sample is false; from column 1 on, where the sixth is; T-11, the glyph 'A', whose first is. -/
theorem witness_FirstFalseSampleWithoutBackgroundFaults :
    (let s := ops panelled 0 0 3 4 0x1010 0 0;
      s.quiet = true ∧ s.sel = false ∧ s.panelInit = true ∧ s.racy = [] ∧ s.bgValid = false ∧
      (s.window (coord s 0) (coord s 1) (coord s 2) (coord s 3)).inRange s.params = true ∧
      0 < coord s 2 * coord s 3 ∧
      (∀ r ∈ bitmapReads (addrOperand s 4) (coord s 2) (coord s 3), s.params.readable r.addr r.width = true) ∧
      bitmapBit s.mem 0x1010 3 0 0 = false) ∧
    (let s := ops panelled 0 0 2 4 0x1014 0 0;
      (s.window (coord s 0) (coord s 1) (coord s 2) (coord s 3)).inRange s.params = true ∧
      5 < coord s 2 * coord s 3 ∧ (∀ j < 5, bitmapBit s.mem 0x1014 2 (j / 4) (j % 4) = true) ∧
      bitmapBit s.mem 0x1014 2 (5 / 4) (5 % 4) = false) ∧
    (let s := ops { panelled with samples := [true, true, false] } 0 0 2 4 0 0 0;
      s.bgValid = false ∧ 2 < coord s 2 * coord s 3 ∧ (∀ j < 2, s.answerAt j = true) ∧ s.answerAt 2 = false) ∧
    (let s := texted { fonted with bgValid := false } 0 0;
      GlyphReaches s .left 0 ∧ s.bgValid = false ∧ (s.glyphWindow .left 0).inRange s.params = true ∧
      0 < s.glyphWidth 0 * s.font.gh ∧
      (∀ r ∈ (bitmapReads (s.glyphBase 0) (s.glyphWidth 0) s.font.gh).take 1, s.params.readable r.addr r.width = true) ∧
      bitmapBit s.mem (s.glyphBase 0) (s.glyphWidth 0) 0 0 = false) := by
  refine ⟨by decide +kernel, by decide +kernel, by decide +kernel, ?_, by decide +kernel⟩
  exact ⟨⟨by decide, by decide, by decide, by decide, by decide, by decide, by decide +kernel, by decide +kernel,
    by unfold glyphsFit; decide, by decide +kernel, by decide +kernel, by decide +kernel⟩, by decide +kernel, by decide +kernel,
    by decide +kernel⟩

theorem witness_DrawSendsTheWindowsByteCount : (1 : Nat) ≤ 1 ∧ (windowOf 8 0 3 1 1).xe = 0 := by decide

/-- FAB; FAB with `first` = `last` and a glyph height that is the panel's; T-2 and T-3. -/
theorem witness_SetFontAcceptsAValidHeaderOrFaults :
    (let s := ops panelled 0 0 0 0 0x1000 0 0;
      s.quiet = true ∧ s.panelInit = true ∧ s.racy = [] ∧
      (∀ r ∈ headerReads (addrOperand s 4), s.params.readable r.addr r.width = true) ∧
      (headerAt s.mem 0x1000).first ≤ (headerAt s.mem 0x1000).last ∧ (headerAt s.mem 0x1000).gh ≤ s.panelH.toNat) ∧
    (let m := Memory.write (Memory.write memS 0x1004 0x41) 0x1006 16;
      (headerAt m 0x1000).first = (headerAt m 0x1000).last ∧ (headerAt m 0x1000).gh = panelled.panelH.toNat) ∧
    (let m := Memory.write memS 0x1004 0x40;
      (headerAt m 0x1000).last < (headerAt m 0x1000).first) ∧
    (let m := Memory.write memS 0x1006 17;
      (headerAt m 0x1000).first ≤ (headerAt m 0x1000).last ∧ panelled.panelH.toNat < (headerAt m 0x1000).gh) := by
  decide +kernel

/-- The text `41 42`, and the empty one. -/
theorem witness_GetTextWidthSumsTheWidths :
    (let s := ops idle 0 0 0 0 0x1000 0x2000 2;
      s.quiet = true ∧ s.racy = [] ∧
      ∀ r ∈ [⟨0x1002, 2⟩, ⟨0x1004, 2⟩] ++ widthReads s.mem 0x1000 0x41 0x42 0x2000 (lengthOperand s),
        s.params.readable r.addr r.width = true) ∧
    lengthOperand (ops idle 0 0 0 0 0x1000 0x2000 0) = 0 := by decide +kernel

/-- The codes next to the font's first and last one. -/
theorem witness_TextWidthIsAdditive :
    (0x41 ≤ textCode memS 0x2000 0 ∧ textCode memS 0x2000 0 ≤ 0x42) ∧
    (0x41 ≤ textCode memS 0x2001 0 ∧ textCode memS 0x2001 0 ≤ 0x42) ∧
    (textCode [(0x2000, 0x40)] 0x2000 0 < 0x41 ∨ 0x42 < textCode [(0x2000, 0x40)] 0x2000 0) ∧
    (textCode [(0x2000, 0x43)] 0x2000 0 < 0x41 ∨ 0x42 < textCode [(0x2000, 0x43)] 0x2000 0) := by decide +kernel

/-- T-5 at the lowest row that holds the glyphs, and T-6, aligned. -/
theorem witness_DrawTextDrawsTheGlyphs :
    fonted.quiet = true ∧ fonted.sel = false ∧ fonted.panelInit = true ∧ fonted.fontValid = true ∧ fonted.racy = [] ∧
    12 + (headerAt memS 0x1000).gh ≤ fonted.panelH.toNat ∧
    (let pass := glyphPass memS 0x1000 0x2000 8 (headerAt memS 0x1000) 2 0 0;
      pass.1.length = 2 ∧
      (∀ r ∈ headerReads 0x1000 ++ alignReads memS .left 0x1000 0x41 0x42 0x2000 2 ++ pass.2,
        instS.readable r.addr r.width = true) ∧
      ∀ g ∈ pass.1, (fonted.window g.cx 12 g.gw 4).inRange instS = true ∧ bitmapDrawable fonted g.base g.gw 4 = true) ∧
    (let pass := glyphPass memS 0x1000 0x2000 8 (headerAt memS 0x1000) 2 0 (alignedColumn memS .right 8 0x1000 0x41 0x42 0x2000 2);
      pass.1.length = 2 ∧
      (∀ r ∈ headerReads 0x1000 ++ alignReads memS .right 0x1000 0x41 0x42 0x2000 2 ++ pass.2,
        instS.readable r.addr r.width = true) ∧
      ∀ g ∈ pass.1, (fonted.window g.cx 12 g.gw 4).inRange instS = true ∧ bitmapDrawable fonted g.base g.gw 4 = true) := by
  decide +kernel

/-- T-8, the highest row that does not hold the glyphs. -/
theorem witness_DrawTextBelowThePanelIsANoOp :
    let s := ops fonted 0 13 0 0 0 0x2000 2;
    s.quiet = true ∧ s.sel = false ∧ s.panelInit = true ∧ s.fontValid = true ∧ s.racy = [] ∧
    (∀ r ∈ headerReads s.fontBase.toNat, s.params.readable r.addr r.width = true) ∧
    s.panelH.toNat < coord s 1 + (headerAt s.mem s.fontBase.toNat).gh := by decide +kernel

/-- No font. -/
theorem witness_RefusedReadsRaiseMemError :
    panelled.quiet = true ∧ panelled.sel = false ∧ panelled.panelInit = true ∧ panelled.fontValid = false := by decide

/-- Rows under which the reads up to `a` alone are admitted. -/
def cut (a : Nat) : Params := { instS with admitRows := [⟨1, 0x1000, a⟩, ⟨2, 0x1000, a⟩, ⟨4, 0x1000, a⟩] }

/-- P-22, T-14, X-8: refused reads of the header's `last` and `gh`, and of a text byte after the two reads of
GET_TEXT_WIDTH and in the width pass of DRAW_TEXT. -/
theorem witness_RefusedReadsRaiseMemError_pass :
    (let s := { ops panelled 0 0 0 0 0x1000 0 0 with params := cut 0x1002 };
      headerReads 0x1000 = [⟨0x1002, 2⟩] ++ ⟨0x1004, 2⟩ :: [⟨0x1006, 1⟩] ∧ s.racy = [] ∧ s.params.readable 0x1002 2 = true ∧
      s.params.readable 0x1004 2 = false) ∧
    ((cut 0x1004).readable 0x1004 2 = true ∧ (cut 0x1004).readable 0x1006 1 = false) ∧
    ([⟨0x1002, 2⟩, ⟨0x1004, 2⟩] ++ widthReads memS 0x1000 0x41 0x42 0x2000 1 =
        [⟨0x1002, 2⟩, ⟨0x1004, 2⟩] ++ ⟨0x2000, 1⟩ :: [⟨0x1008, 4⟩] ∧ (cut 0x1017).readable 0x2000 1 = false) ∧
    (headerReads 0x1000 ++ alignReads memS .right 0x1000 0x41 0x42 0x2000 1 =
        headerReads 0x1000 ++ ⟨0x2000, 1⟩ :: [⟨0x1008, 4⟩] ∧
      ∀ q ∈ headerReads 0x1000, (cut 0x1017).readable q.addr q.width = true) := by decide +kernel

/-- Refused reads in the draw pass: a char-table entry after its text byte, and the fourth bit of the glyph 'A'; the second
bit of a bitmap. -/
theorem witness_RefusedReadsRaiseMemError_draw :
    (let s := { texted fonted 0 0 with params := { instS with admitRows := [⟨1, 0, 0x2000⟩, ⟨2, 0, 0x2000⟩] } };
      TextReaches s .left 0 ∧ s.readsOf 0 = [⟨0x2000, 1⟩] ++ ⟨0x1008, 4⟩ :: [] ∧ s.params.readable 0x2000 1 = true ∧
      s.params.readable 0x1008 4 = false) ∧
    (let s := { texted fonted 0 0 with
        params := { instS with admitRows := [⟨1, 0, 0x1012⟩, ⟨1, 0x2000, 0x2000⟩, ⟨2, 0, 0x2000⟩, ⟨4, 0, 0x2000⟩] } };
      GlyphReaches s .left 0 ∧ (s.glyphWindow .left 0).inRange s.params = true ∧ 3 < s.glyphWidth 0 * s.font.gh ∧
      (∀ r ∈ (bitmapReads (s.glyphBase 0) (s.glyphWidth 0) s.font.gh).take 3, s.params.readable r.addr r.width = true) ∧
      s.bgValid = true ∧ s.params.readable (bitmapAddr (s.glyphBase 0) (s.glyphWidth 0) (3 / 4) (3 % 4)) 1 = false) ∧
    (let s := { ops fonted 0 0 3 4 0x1010 0 0 with params := cut 0x1010 };
      (s.window 0 0 3 4).inRange s.params = true ∧ 1 < coord s 2 * coord s 3 ∧
      (∀ r ∈ (bitmapReads 0x1010 3 4).take 1, s.params.readable r.addr r.width = true) ∧ s.bgValid = true ∧
      s.params.readable (bitmapAddr 0x1010 3 (1 / 4) (1 % 4)) 1 = false) := by
  refine ⟨⟨?_, by decide +kernel⟩, ⟨?_, by decide +kernel⟩, by decide +kernel⟩
  · exact ⟨by decide, by decide, by decide, by decide, by decide, by decide, by decide +kernel, by decide +kernel,
      by unfold glyphsFit; decide, by decide +kernel, by decide +kernel, by decide +kernel⟩
  · exact ⟨⟨by decide, by decide, by decide, by decide, by decide, by decide, by decide +kernel, by decide +kernel,
      by unfold glyphsFit; decide, by decide +kernel, by decide +kernel, by decide +kernel⟩, by decide +kernel,
      by decide +kernel, by decide +kernel⟩

/-- The invariant, on a block with a panel, and on an UPDATE in its poll loop; each has a next step. -/
theorem witness_EveryStepKeepsTheInvariant :
    (Inv fonted ∧ ∃ t, step (hosted fonted [.write 0 4 0x10]) = .next t) ∧ (Inv polling ∧ ∃ t, step polling = .next t) := by
  refine ⟨⟨?_, _, rfl⟩, ⟨?_, _, rfl⟩⟩ <;> constructor <;> decide

/-- A START, a second SELECT, which faults, and a pass of a poll loop; no fault, and a fault in an open bracket. -/
theorem witness_StepsKeepTheBracketDiscipline :
    (Inv (hosted fonted [.write 0 4 0x10]) ∧ (hosted fonted [.write 0 4 0x10]).noReset = true ∧
      ∃ t, step (hosted fonted [.write 0 4 0x10]) = .next t ∧ t.fault = false) ∧
    (Inv (hosted selected [.write 0 4 0x13]) ∧ ∃ t, step (hosted selected [.write 0 4 0x13]) = .next t ∧ t.fault = true) ∧
    (Inv polling ∧ polling.noReset = true ∧ ∃ t, step polling = .next t) := by
  refine ⟨⟨?_, by decide, _, rfl, by decide +kernel⟩, ⟨?_, _, rfl, by decide +kernel⟩, ⟨?_, by decide, _, rfl⟩⟩ <;>
    constructor <;> decide

theorem witness_OnlyItsCommandWritesARegister :
    (hosted idle [.waitIdle]).noReset = true ∧ (∃ t, exec .nop (hosted idle [.waitIdle]) = .next t) ∧
    polling.noReset = true ∧ polling.poll = true ∧ polling.sel = false ∧ ∃ t, step polling = .next t :=
  ⟨by decide, ⟨_, rfl⟩, by decide, by decide, by decide, _, rfl⟩

theorem witness_FaultedCommandWritesNoRegister :
    idle.fault = false ∧ (∃ t, exec .setFont idle = .next t ∧ t.fault = true) ∧
    (hosted polling [.write 0 4 0]).poll = true ∧ (hosted polling [.write 0 4 0]).sel = false ∧
    ∃ t, step (hosted polling [.write 0 4 0]) = .next t ∧ t.fault = true :=
  ⟨by decide, ⟨_, rfl, by decide +kernel⟩, by decide, by decide, _, rfl, by decide +kernel⟩

theorem witness_CommandsUseTheLatchedOperands :
    selected.quiet = true ∧ ∃ t, exec .sendCmd selected = .next t := ⟨by decide, _, rfl⟩

theorem witness_TraceOnlyGrows : ∃ t, step (hosted idle [.write 0 4 0x13]) = .next t := ⟨_, rfl⟩

theorem witness_BlockNeverWritesHostMemory :
    (∀ a v, HostAction.poke a v ∉ (hosted fonted [.write 0 4 0x727]).host) ∧
    ∃ t, step (hosted fonted [.write 0 4 0x727]) = .next t := ⟨by simp [hosted], _, rfl⟩

/-- A byte that is listed, one that is not, and the last byte of host memory. -/
theorem witness_HostMemoryWriteIsLocal :
    (hosted idle [.poke 0x1001 0]).poll = false ∧ (hosted idle [.poke 0x1000 7]).busy = false ∧
    Memory.wf (hosted idle [.poke 0xFFFFFFFF 7]).mem = true := by decide

end Sys2Proof.Tests
end

section
/-! Proofs of the statements of the family `00_scope.md`: what an event does to the output lines (R12), and how a read of
host memory ends (R13). -/

namespace Sys2Proof.Machine

/-! ### Events and the output lines -/

/-- A run of events is its first event and then the others. -/
theorem emitted_cons (s : State) (e : Event) (es : List Event) : s.emitted (e :: es) = (pushEvent e s).emitted es :=
  (emitted_append s [e] es).symm

/-- The bus mutex, a delay and a busy sample move no output line (R12). -/
theorem Pins.drive_undriven (p : Params) (q : Pins) {e : Event}
    (he : e = .acq ∨ e = .rel ∨ (∃ d, e = .dly d) ∨ ∃ v, e = .busy v) : q.drive p e = q := by
  obtain rfl | rfl | ⟨d, rfl⟩ | ⟨v, rfl⟩ := he <;> rfl

/-- Settles O20: each driving event by `Pins.drive`, the others by `Pins.drive_undriven`, a run by `emitted_cons`. -/
theorem eventsDriveTheLines : Obligations.EventsDriveTheLines := by
  intro s
  refine ⟨fun _ => rfl, fun _ => rfl, fun _ => rfl, rfl, rfl, rfl, rfl, ?undriven, fun _ => rfl, ?run, fun _ => rfl⟩
  case undriven => exact fun _ he => Pins.drive_undriven s.params s.pins he
  case run => exact fun e es => ⟨emitted_nil s, emitted_cons s e es⟩

/-! ### Reads of host memory -/

/-- A read is admitted exactly when it stays in the address range and `HostMemAdmits` allows it (R13). -/
theorem Params.readable_iff (p : Params) (a n : Nat) : p.readable a n = true ↔ a + n ≤ 2 ^ 32 ∧ p.admits a n = true := by
  rw [Params.readable, Bool.and_eq_true, decide_eq_true_eq]

/-- Bytes the host left alone under the command are read as they stand (R63). -/
theorem performRead_settled {s : State} {a n : Nat} (h : ∀ b ∈ s.racy, b < a ∨ a + n ≤ b) :
    performRead a n s = .ok (Memory.readLE s.mem a n) { s with memReads := s.memReads ++ [⟨a, n⟩] } := by
  have hnone : ¬ (s.racy.any fun b => decide (a ≤ b) && decide (b < a + n)) = true := by
    intro hany
    obtain ⟨b, hb, hlo, hhi⟩ : ∃ b ∈ s.racy, a ≤ b ∧ b < a + n := by simpa using hany
    have hout := h b hb
    omega
  exact if_neg hnone

/-- A byte the host changed under the command makes the read a free value of its width (R63, log 7). -/
theorem performRead_racy {s : State} {a n : Nat} (h : ∃ b ∈ s.racy, a ≤ b ∧ b < a + n) :
    performRead a n s = .ok ((Config.freeRead s.draws).toNat % 256 ^ n)
      { s with memReads := s.memReads ++ [⟨a, n⟩], draws := s.draws + 1 } := by
  have hany : (s.racy.any fun b => decide (a ≤ b) && decide (b < a + n)) = true := by simpa using h
  exact if_pos hany

/-- Settles O23: `memRead_eq` splits a read by `Params.readable`, and an admitted one by the bytes the host changed. -/
theorem memoryReadOutcomes : Obligations.MemoryReadOutcomes := by
  intro s a n hq
  rw [memRead_eq hq]
  refine ⟨fun hbad => ?refused, fun hrange hadm hleft => ?settled, fun hrange hadm hchanged => ?racy⟩
  case refused =>
    have hn : ¬ s.params.readable a n = true := by
      rw [Params.readable_iff, not_and_or, Nat.not_le, Bool.not_eq_true]
      exact hbad
    exact if_neg hn
  case settled =>
    rw [if_pos ((Params.readable_iff ..).2 ⟨hrange, hadm⟩), performRead_settled hleft]
  case racy =>
    rw [if_pos ((Params.readable_iff ..).2 ⟨hrange, hadm⟩), performRead_racy hchanged]
    exact ⟨_, Nat.mod_lt _ (Nat.pow_pos (by decide)), rfl⟩

end Sys2Proof.Machine
end

section
/-! Proofs of the statements of the family `10_state.md`: what a step can do, the invariant of the block,
its registers, and what a command reads and writes of them. -/

namespace Sys2Proof.Machine

/-! ### What a step can do -/

/-- An access with a meaning is a 32-bit one at an aligned offset (R81). -/
theorem accessOk_iff (off : BitVec 7) (size : Nat) : accessOk off size = true ↔ size = 4 ∧ off.toNat % 4 = 0 := by
  rw [accessOk, Bool.and_eq_true, beq_iff_eq, beq_iff_eq]

/-- Everything a step can do, with what it found: a pass of the poll loop, an action of the host that runs no command, the
reset of the block, an overrun, an illegal command word, or a whole command. -/
inductive Stepped (s : State) : State → Prop
  | poll : s.poll = true → Stepped s (pollTurn s)
  | host {t : State} : s.poll = false → Still s t → (s.busy = false → t.racy = s.racy) → Stepped s t
  | reset {rest : List HostAction} : s.poll = false → s.host = .reset :: rest →
      Stepped s (applyReset { s with host := rest })
  | overrun {w : Word} : s.poll = false → s.fault = false → s.busy = true → Stepped s (endOf (overrun w) s)
  | illegal {w : Word} {rest : List HostAction} {k : Illegal} : s.poll = false → s.fault = false → s.busy = false →
      s.host = .write 0 4 w :: rest → decode w = .error k →
      Stepped s (endOf (raiseIllegal k) (latch w { s with host := rest }))
  | command {w : Word} {rest : List HostAction} {i : Instr} {t : State} : s.poll = false → s.fault = false →
      s.busy = false → s.host = .write 0 4 w :: rest → decode w = .ok i →
      exec i (latch w { s with host := rest }) = .next t → Stepped s t

/-- An action of the host is used up. -/
theorem Still.used {s : State} {a : HostAction} {rest : List HostAction} (h : s.host = a :: rest) :
    Still s { s with host := rest } :=
  (Still.refl s).behind (h ▸ List.suffix_cons a rest)

/-- A `CMD` write on a block that is not in a poll loop (R183). -/
theorem acceptCommand_stepped {s t : State} {w : Word} {rest : List HostAction} (hp : s.poll = false)
    (hh : s.host = .write 0 4 w :: rest) (h : acceptCommand w { s with host := rest } = .next t) : Stepped s t := by
  rw [acceptCommand] at h
  split at h
  case isTrue =>
    injection h with h
    exact h ▸ .host hp (.used hh) fun _ => rfl
  case isFalse hf =>
    have hf : s.fault = false := by simpa using hf
    split at h
    case isTrue hb =>
      injection h with h
      have hs : ({ s with host := .write 0 4 w :: rest } : State) = s := by rw [← hh]
      exact h ▸ hs.symm ▸ .overrun hp hf hb
    case isFalse hb =>
      have hb : s.busy = false := by simpa using hb
      split at h
      case h_1 hd =>
        injection h with h
        exact h ▸ .illegal hp hf hb hh hd
      case h_2 hd => exact .command hp hf hb hh hd h

/-- The host's next action on a block that is not in a poll loop (R82, R94, R200). -/
theorem takeAction_stepped {s t : State} {a : HostAction} {rest : List HostAction} (hp : s.poll = false)
    (hh : s.host = a :: rest) (h : takeAction a { s with host := rest } = .next t) : Stepped s t := by
  have hused := Still.used hh
  cases a with
  | write off size value =>
    rw [takeAction] at h
    split at h
    case isFalse => cases h
    case isTrue hok =>
      split at h
      case isTrue ho =>
        obtain ⟨rfl, -⟩ := (accessOk_iff off size).1 hok
        subst ho
        exact acceptCommand_stepped hp hh h
      case isFalse =>
        injection h with h
        exact h ▸ .host hp (hused.trans { Still.refl _ with eq := rfl }) fun _ => rfl
  | read off size =>
    rw [takeAction] at h
    split at h
    case isFalse => cases h
    case isTrue =>
      injection h with h
      exact h ▸ .host hp (hused.trans { Still.refl _ with eq := rfl }) fun _ => rfl
  | waitIdle =>
    rw [takeAction] at h
    split at h
    case isTrue =>
      injection h with h
      exact h ▸ .host hp ((Still.refl s).behind (hh ▸ List.suffix_rfl)) fun _ => rfl
    case isFalse =>
      split at h
      case isTrue =>
        injection h with h
        have hdrop : afterStop rest <:+ s.host := (List.dropWhile_suffix _).trans hused.host
        exact h ▸ .host hp ((Still.refl s).behind hdrop) fun _ => rfl
      case isFalse =>
        injection h with h
        exact h ▸ .host hp hused fun _ => rfl
  | pause =>
    injection h with h
    exact h ▸ .host hp hused fun _ => rfl
  | poke addr v =>
    injection h with h
    have hpoke : .poke addr v ∈ s.host := hh ▸ List.mem_cons_self
    subst h
    refine .host hp ?_ fun hb => by simp [hb]
    exact { eq := rfl, host := hused.host, memory := fun hm => hostPoke_wf (s := { s with host := rest }) hm addr v,
            unwritten := fun hn => absurd hpoke (hn addr v) }
  | reset =>
    injection h with h
    exact h ▸ .reset hp hh

/-- Every step does one of the things of `Stepped`. -/
theorem step_stepped {s t : State} (h : step s = .next t) : Stepped s t := by
  rw [step] at h
  split at h
  case isTrue hp =>
    injection h with h
    exact h ▸ .poll hp
  case isFalse hp =>
    have hp : s.poll = false := by simpa using hp
    rw [takeHost] at h
    split at h
    case h_1 =>
      injection h with h
      exact h ▸ .host hp (.refl s) fun _ => rfl
    case h_2 hh => exact takeAction_stepped hp hh h

/-! ### How a poll pass and an overrun end -/

/-- A pass of the poll loop at any place but between `BEGIN` and `Sel <- true`: it sends events of no bracket. -/
theorem Act.Keeps.pollOnce_at {sh : Bool} {p : Place} (hp : p ≠ .begun) : Act.Keeps sh p p Machine.pollOnce := by
  refine .peek fun _ => Act.Keeps.bind (q := p) ?_ fun busy => ?_
  · exact (Act.Keeps.hostTurn hp).bind fun _ => Act.Keeps.readBusyLevel.bind fun _ => .peek fun _ => .pure _
  · exact Act.Keeps.ite (fun _ => (Act.Keeps.emit_neutral (fun b => by cases b <;> rfl) hp).bind fun _ => .pure _)
      fun _ => .pure _

/-- A pass of the poll loop, wherever `Sel` stands: it has ended in a fault or by a reset, or the loop goes on or
completes in a state that follows (R106). -/
theorem pollTurn_outcome (s : State) :
    Ended (.of s.sel) s (pollTurn s) ∨
      ∃ u, Reaches (.of s.sel) (.of s.sel) s u ∧ (pollTurn s = u ∨ pollTurn s = endCommand u) := by
  have hne := Place.of_ne_begun s.sel
  have hk := Act.Keeps.pollOnce_at hne s rfl (Place.of_sel s.sel).symm
  rw [pollTurn]
  cases hx : pollOnce s with
  | error e t => rw [hx] at hk; exact .inl hk
  | ok more t =>
    rw [hx] at hk
    cases more with
    | true => exact .inr ⟨t, hk, .inl rfl⟩
    | false =>
      have ht := hostTurn_outcome hne hk.sel
      rw [afterPoll]
      cases hy : hostTurn t with
      | error e u => rw [hy] at ht; exact .inl (ht.after hk)
      | ok e u => rw [hy] at ht; exact .inr ⟨u, hk.trans (ht.reaches hk.sel), .inr rfl⟩

/-- An overrun ends the command (R183). -/
theorem overrun_ended (w : Word) (s : State) : Ended (.of s.sel) s (endOf (overrun w) s) := by
  obtain ⟨t, ht⟩ := overrun_error w s
  rw [endOf, ht]
  exact overrun_outcome (Place.of_ne_begun _) w (Place.of_sel _).symm ht

/-! ### The invariant -/

/-- What holds of a block inside a command: `Inv` without the clauses on `BUSY`, `Sel` and the transient state, which a
command changes, for a block that is not halted. -/
structure Running (s : State) : Prop where
  memory : Memory.wf s.mem = true
  fault : s.fault = false
  cause : s.cause = .none
  faultInfo : s.faultInfo = 0
  faultAddr : s.faultAddr = 0
  panelFits : s.panelW.toNat ≤ s.params.gates ∧ s.panelH.toNat ≤ s.params.sources
  panelUnset : s.panelInit = false → s.panelW = 0 ∧ s.panelH = 0
  bgUnset : s.bgValid = false → s.bg = 0
  fontUnset : s.fontValid = false → s.fontBase = 0
  fontNeedsPanel : s.fontValid = true → s.panelInit = true
  noRequest : s.sampleReq = none

/-- A block that is not halted has no fault record. -/
theorem Inv.running {s : State} (h : Inv s) (hf : s.fault = false) : Running s := by
  have hc : s.cause = .none := by simpa [hf] using h.causeSet
  exact { h with fault := hf, cause := hc, faultInfo := h.recordSet hf, faultAddr := h.addrSet (by simp [hc]) }

/-- Latching a command changes only the latches and `BUSY`. -/
theorem Running.latch {s : State} (h : Running s) (w : Word) (rest : List HostAction) :
    Running (latch w { s with host := rest }) := { h with }

theorem Running.follows {s t : State} (h : Running s) (hf : Follows s t) : Running t where
  memory := hf.memory h.memory
  fault := hf.fault.trans h.fault
  cause := hf.cause.trans h.cause
  faultInfo := hf.faultInfo.trans h.faultInfo
  faultAddr := hf.faultAddr.trans h.faultAddr
  panelFits := by rw [hf.panelW, hf.panelH, hf.params]; exact h.panelFits
  panelUnset := by rw [hf.panelInit, hf.panelW, hf.panelH]; exact h.panelUnset
  bgUnset := by rw [hf.bgValid, hf.bg]; exact h.bgUnset
  fontUnset := by rw [hf.fontValid, hf.fontBase]; exact h.fontUnset
  fontNeedsPanel := by rw [hf.fontValid, hf.panelInit]; exact h.fontNeedsPanel
  noRequest := hf.request h.noRequest

/-- A command that completes leaves the block in the invariant. -/
theorem Running.completed {s : State} (h : Running s) : Inv (endCommand s) :=
  { h with
    inPoll := rfl
    pollBracket := by simp
    halted := by simp [h.fault]
    causeSet := by simp [h.fault, h.cause]
    recordSet := fun _ => h.faultInfo
    addrSet := fun _ => h.faultAddr
    noRequest := rfl
    noRace := fun _ => rfl }

/-- An UPDATE in its poll loop, its bracket closed. -/
theorem Running.polling {s : State} (h : Running s) (hb : s.busy = true) (hp : s.poll = true) (hs : s.sel = false) : Inv s :=
  { h with
    inPoll := hb.trans hp.symm
    pollBracket := fun _ => hs
    halted := by simp [h.fault]
    causeSet := by simp [h.fault, h.cause]
    recordSet := fun _ => h.faultInfo
    addrSet := fun _ => h.faultAddr
    noRace := by simp [hb] }

/-- Fault entry leaves the block in the invariant (R185): only a failed read records an address. -/
theorem Running.faulted {s : State} (h : Running s) {c : Cause} (hc : c ≠ .none) (d : Nat) (v : Int) {a : Option Nat}
    (ha : a = none ∨ c = .memError) : Inv (faultRegisters c d v a s) :=
  { h with
    inPoll := rfl
    pollBracket := by simp
    halted := by simp
    causeSet := by simp [hc]
    recordSet := by simp
    addrSet := fun hm => by
      obtain rfl := ha.resolve_right hm
      exact h.faultAddr
    noRequest := rfl
    noRace := fun _ => rfl }

/-- A reset leaves the block in the invariant, whatever it was before: only host memory stays (R200). -/
theorem inv_applyReset {s : State} (hm : Memory.wf s.mem = true) : Inv (applyReset s) where
  memory := hm
  inPoll := rfl
  pollBracket := by simp
  halted := by simp
  causeSet := by simp
  recordSet := by simp
  addrSet := by simp
  panelFits := by simp
  panelUnset := by simp
  bgUnset := by simp
  fontUnset := by simp
  fontNeedsPanel := by simp
  noRequest := rfl
  noRace := by simp

/-- A command that does not complete ends in the invariant. -/
theorem Ended.inv {p : Place} {s t : State} (h : Running s) (he : Ended p s t) : Inv t := by
  cases he with
  | fault q c d v a _ hf _ _ hc ha => exact (h.follows hf).faulted hc d v ha
  | reset _ hf _ => exact inv_applyReset (hf.memory h.memory)

/-- What the host does on a block that runs no command keeps the invariant. -/
theorem Inv.still {s t : State} (h : Inv s) (hs : Still s t) (hr : s.busy = false → t.racy = s.racy) : Inv t := by
  have hm := hs.memory h.memory
  have he := hs.eq
  generalize ht : t = u at he hm hr
  rw [he]
  exact { h with memory := hm, noRace := fun hb => (hr hb).trans (h.noRace hb) }

/-- A command that completes ends in the invariant: its register writes keep `Running`, whose clauses on the panel are
those that PANEL_INIT checks (R140). -/
theorem Completes.inv {i : Instr} {s u t : State} (hs : Running s) (hb : s.busy = true) (hf : Follows s u)
    (hc : Completes i s u t) : Inv t := by
  have h := hs.follows hf
  cases i with
  | start => obtain ⟨-, rfl⟩ := hc; exact Running.completed { h with }
  | stop => obtain ⟨-, rfl⟩ := hc; exact Running.completed { h with }
  | update =>
    obtain ⟨hsel, rfl | rfl⟩ := hc
    · exact h.completed
    · exact Running.polling { h with } (hf.busy.trans hb) rfl hsel
  | panelInit =>
    obtain ⟨-, -, hw, hh, rfl⟩ := hc
    have hfits : (coordBits u 0).toNat ≤ u.params.gates ∧ (coordBits u 1).toNat ≤ u.params.sources := by
      rw [coordBits, coordBits, hf.opL, hf.params]
      exact ⟨hw, hh⟩
    exact Running.completed { h with panelFits := hfits, panelUnset := nofun, fontNeedsPanel := fun _ => rfl }
  | setBg c => obtain ⟨-, rfl⟩ := hc; exact Running.completed { h with bgUnset := nofun }
  | setFont =>
    obtain ⟨-, hp, rfl⟩ := hc
    exact Running.completed { h with fontUnset := nofun, fontNeedsPanel := fun _ => hf.panelInit.trans hp }
  | getTextWidth => obtain ⟨-, n, rfl⟩ := hc; exact Running.completed { h with }
  | nop | select | unselect | sendCmd | sendData | setAddress | fillDisplay _ | drawBitmap _ _ | drawFilledRect _
  | drawText _ _ => obtain ⟨-, rfl⟩ := hc; exact h.completed

/-- A pass of the poll loop keeps the invariant. -/
theorem Inv.pollTurn {s : State} (h : Inv s) (hp : s.poll = true) : Inv (pollTurn s) := by
  have hb : s.busy = true := h.inPoll.trans hp
  have hs : s.sel = false := h.pollBracket hp
  have hr : Running s := h.running (by_contra fun hf => by simp [(h.halted (by simpa using hf)).1] at hb)
  rcases pollTurn_outcome s with he | ⟨u, hu, ht | ht⟩
  · exact he.inv hr
  · rw [ht]
    exact (hr.follows hu.follows).polling (hu.follows.busy.trans hb) (hu.follows.poll.trans hp)
      (hu.sel.trans ((Place.of_sel _).trans hs))
  · rw [ht]
    exact (hr.follows hu.follows).completed

/-- Settles O52: a command starts in `Running`, which everything inside it keeps and each of its ends leaves for `Inv`. -/
theorem everyStepKeepsTheInvariant : Obligations.EveryStepKeepsTheInvariant := by
  intro s t h hstep
  cases step_stepped hstep with
  | poll hp => exact h.pollTurn hp
  | host _ hs hr => exact h.still hs hr
  | reset => exact inv_applyReset h.memory
  | overrun _ hf => exact (overrun_ended _ s).inv (h.running hf)
  | illegal _ hf => exact (raiseIllegal_ended _ _).inv ((h.running hf).latch _ _)
  | command _ hf _ _ _ hx =>
    have hr := (h.running hf).latch
    rcases exec_outcome hx with he | ⟨u, hu, hc⟩
    · exact he.inv (hr _ _)
    · exact hc.inv (hr _ _) rfl hu.follows

/-- Settles O53: the state after reset is what a reset leaves of it. -/
theorem resetMeetsTheInvariant : Obligations.ResetMeetsTheInvariant :=
  inv_applyReset (s := State.reset) State.reset_wf

/-! ### The block between its commands -/

/-- Settles O22: on a halted block a step is an action of the host that runs no command, and those change only what is the
host's (`Still`). -/
theorem faultIsKeptUntilReset : Obligations.FaultIsKeptUntilReset := by
  intro s t hf hp hreset hstep
  cases step_stepped hstep with
  | poll hp' => simp [hp] at hp'
  | host _ hs =>
    rw [hs.eq]
    exact ⟨hf, rfl, rfl, rfl, rfl, rfl, rfl, rfl, rfl, rfl, rfl, rfl, rfl, rfl, rfl, rfl, rfl, rfl, rfl, hp⟩
  | reset _ hh => simp [hh] at hreset
  | overrun _ hf' => simp [hf] at hf'
  | illegal _ hf' => simp [hf] at hf'
  | command _ hf' => simp [hf] at hf'

/-- A command that has ended has done nothing to the trace but add events. -/
theorem Ended.grows {p : Place} {s t : State} (h : Ended p s t) :
    (∃ es, t.trace = s.trace ++ es) ∧ t.params = s.params := by
  cases h with
  | fault q c d v a _ hf _ htr => exact ⟨⟨_, htr⟩, hf.params⟩
  | reset _ hf htr => exact ⟨⟨_, htr⟩, hf.params⟩

/-- Nor has a command that goes on done anything else to the trace. -/
theorem Reaches.grows {p q : Place} {s t : State} (h : Reaches p q s t) :
    (∃ es, t.trace = s.trace ++ es) ∧ t.params = s.params := by
  obtain ⟨es, he, -⟩ := h.events
  exact ⟨⟨es, he⟩, h.follows.params⟩

/-- Completing emits nothing. -/
theorem Completes.trace_params {i : Instr} {s u t : State} (h : Completes i s u t) :
    t.trace = u.trace ∧ t.params = u.params := by
  cases i with
  | update => obtain ⟨-, rfl | rfl⟩ := h <;> exact ⟨rfl, rfl⟩
  | panelInit => obtain ⟨-, -, -, -, rfl⟩ := h; exact ⟨rfl, rfl⟩
  | setFont => obtain ⟨-, -, rfl⟩ := h; exact ⟨rfl, rfl⟩
  | getTextWidth => obtain ⟨-, n, rfl⟩ := h; exact ⟨rfl, rfl⟩
  | nop | start | stop | select | unselect | sendCmd | sendData | setAddress | setBg _ | fillDisplay _ | drawBitmap _ _
  | drawFilledRect _ | drawText _ _ => obtain ⟨-, rfl⟩ := h; exact ⟨rfl, rfl⟩

/-- Settles O58: a step is one of `Stepped`, and a command or a poll pass adds events whether it ends or goes on. -/
theorem traceOnlyGrows : Obligations.TraceOnlyGrows := by
  intro s t hstep
  cases step_stepped hstep with
  | poll =>
    rcases pollTurn_outcome s with he | ⟨u, hu, ht | ht⟩
    · exact he.grows
    · rw [ht]; exact hu.grows
    · rw [ht]; exact hu.grows
  | host _ hs => exact ⟨⟨[], by simp [hs.trace]⟩, hs.follows.params⟩
  | reset => exact ⟨⟨[], by simp⟩, rfl⟩
  | overrun => exact (overrun_ended _ s).grows
  | illegal => exact (raiseIllegal_ended _ _).grows
  | command _ _ _ _ _ hx =>
    rcases exec_outcome hx with he | ⟨u, hu, hc⟩
    · exact he.grows
    · rw [hc.trace_params.1, hc.trace_params.2]
      exact hu.grows

/-! ### The host's accesses to the registers -/

/-- Under a poll, two states that the host's turn makes equal have the same step. -/
theorem step_eq_of_hostTurn {s s' : State} (hp : s.poll = true) (hp' : s'.poll = true) (hparams : s'.params = s.params)
    (h : hostTurn s = hostTurn s') : step s = step s' := by
  have hpoll : pollOnce s = pollOnce s' := by
    rw [pollOnce, peek_bind, peek_bind, hparams, act_bind, act_bind, readBusy, act_bind, act_bind, h]
  rw [step, if_pos hp, step, if_pos hp', pollTurn, pollTurn, hpoll]

/-- A register write other than of `CMD`, at an aligned offset: taken at once on an idle or halted block, and before the
next sample under a poll (R47, R82). -/
theorem step_write {s : State} {off : BitVec 7} {v : Word} {rest : List HostAction} (ha : off.toNat % 4 = 0) (h0 : off ≠ 0)
    (hh : s.host = .write off 4 v :: rest) :
    (s.poll = false → step s = .next (writeReg off v { s with host := rest })) ∧
    (s.poll = true → step s = step (writeReg off v { s with host := rest })) := by
  have hok : accessOk off 4 = true := (accessOk_iff off 4).2 ⟨rfl, ha⟩
  refine ⟨fun hp => ?_, fun hp => step_eq_of_hostTurn hp hp rfl ?_⟩
  · rw [step, if_neg (Bool.eq_false_iff.1 hp), takeHost, hh]
    exact (if_pos hok).trans (if_neg h0)
  · rw [hostTurn, hh, turnFrom, if_pos hok, if_neg h0]
    exact (turnFrom_host overrun rest rest (writeReg off v s)).symm

/-- The argument registers stand at `0x40` to `0x58` (R80). -/
theorem argAt_arg (i : Fin 7) : argAt (BitVec.ofNat 7 (0x40 + 4 * i.val)) = some i := by
  revert i
  decide

/-- No argument register stands below `0x40` or above `0x58` (R80). -/
theorem argAt_other {off : BitVec 7} (h : off.toNat < 0x40 ∨ 0x58 < off.toNat) : argAt off = none := by
  rw [argAt]
  split
  case h_8 => rfl
  all_goals omega

/-- Settles O13: the write is taken by `step_write`, and `argAt` says which register it stores in. -/
theorem registerWritesStoreOrAreIgnored : Obligations.RegisterWritesStoreOrAreIgnored := by
  constructor
  · intro s i v rest hh
    have hoff : (BitVec.ofNat 7 (0x40 + 4 * i.val)).toNat = 0x40 + 4 * i.val := by
      rw [BitVec.toNat_ofNat]
      omega
    have hw := step_write (by omega) (fun h0 => by simpa using hoff.symm.trans (congrArg BitVec.toNat h0)) hh
    rwa [writeReg, argAt_arg] at hw
  · intro s off v rest ha h0 hout hh
    have hw := step_write ha h0 hh
    rwa [writeReg, argAt_other hout] at hw

/-- The reset input on an idle, halted or polling block (R200). -/
theorem step_reset {s : State} {rest : List HostAction} (hh : s.host = .reset :: rest) :
    step s = .next (applyReset { s with host := rest }) := by
  rw [step]
  split
  · have ht : hostTurn s = .error () (applyReset { s with host := rest }) := by rw [hostTurn, hh, turnFrom]
    have hread : readBusy s = .error () (applyReset { s with host := rest }) := act_bind_error _ ht
    rw [pollTurn, pollOnce, peek_bind, act_bind_error _ hread, afterPoll]
  · rw [takeHost, hh]
    rfl

/-- After a reset `STATUS` is what it is in `State.reset` (R45). -/
theorem statusWord_applyReset (s : State) : statusWord (applyReset s) = 0 := by
  have h : statusWord (applyReset s) = statusWord State.reset := rfl
  exact h.trans rfl

/-- Settles O18: the step is `applyReset`, which gives each register its reset value. -/
theorem resetActionResetsTheBlock : Obligations.ResetActionResetsTheBlock := by
  intro s rest hh
  exact ⟨_, step_reset hh, rfl, statusWord_applyReset _, rfl, rfl, rfl, rfl, rfl, rfl, rfl, rfl, rfl, rfl, rfl, rfl, rfl,
    rfl, rfl, rfl, rfl⟩

/-- Settles O17: each value is the one `State.reset` writes out. -/
theorem resetValues : Obligations.ResetValues :=
  ⟨rfl, rfl, rfl, rfl, rfl, rfl, rfl, rfl, rfl, rfl, rfl, rfl, rfl, rfl, rfl, rfl, rfl⟩

/-! ### Which command writes which register -/

/-- The registers that commands write, the latches and the parameters are in `t` as they are in `s`. -/
structure KeepsRegisters (s t : State) : Prop where
  panelW : t.panelW = s.panelW
  panelH : t.panelH = s.panelH
  panelInit : t.panelInit = s.panelInit
  bg : t.bg = s.bg
  bgValid : t.bgValid = s.bgValid
  fontBase : t.fontBase = s.fontBase
  fontValid : t.fontValid = s.fontValid
  result : t.result = s.result
  cstate : t.cstate = s.cstate
  cmdL : t.cmdL = s.cmdL
  opL : t.opL = s.opL
  params : t.params = s.params

theorem Follows.keepsRegisters {s t : State} (h : Follows s t) : KeepsRegisters s t := { h with }

/-- Without a reset among the host's actions a command that does not complete writes no register (R185). -/
theorem Ended.keepsRegisters {p : Place} {s t : State} (h : Ended p s t) (hr : s.noReset = true) : KeepsRegisters s t := by
  cases h with
  | fault q c d v a _ hf => exact { hf with }
  | reset hm =>
    have hall := List.all_eq_true.1 hr _ hm
    simp [HostAction.isReset] at hall

/-- The command `i` writes no register but its own (R26, R28, R29, R30, R32), and no latch or parameter. -/
structure WritesOnlyItsOwn (i : Instr) (s t : State) : Prop where
  panel : i ≠ .panelInit → t.panelW = s.panelW ∧ t.panelH = s.panelH ∧ t.panelInit = s.panelInit
  background : (∀ c, i ≠ .setBg c) → t.bg = s.bg ∧ t.bgValid = s.bgValid
  font : i ≠ .setFont → t.fontBase = s.fontBase ∧ t.fontValid = s.fontValid
  result : i ≠ .getTextWidth → t.result = s.result
  power : i ≠ .start → i ≠ .stop → t.cstate = s.cstate
  latches : t.cmdL = s.cmdL ∧ t.opL = s.opL ∧ t.params = s.params

theorem KeepsRegisters.writesOnlyItsOwn {s t : State} (h : KeepsRegisters s t) (i : Instr) : WritesOnlyItsOwn i s t where
  panel _ := ⟨h.panelW, h.panelH, h.panelInit⟩
  background _ := ⟨h.bg, h.bgValid⟩
  font _ := ⟨h.fontBase, h.fontValid⟩
  result _ := h.result
  power _ _ := h.cstate
  latches := ⟨h.cmdL, h.opL, h.params⟩

/-- A command that completes writes its own register, if it has one. -/
theorem Completes.writesOnlyItsOwn {i : Instr} {s u t : State} (h : Completes i s u t) (hk : KeepsRegisters s u) :
    WritesOnlyItsOwn i s t := by
  have hu := hk.writesOnlyItsOwn i
  cases i with
  | start => obtain ⟨-, rfl⟩ := h; exact { hu with power := fun hn => absurd rfl hn }
  | stop => obtain ⟨-, rfl⟩ := h; exact { hu with power := fun _ hn => absurd rfl hn }
  | update => obtain ⟨-, rfl | rfl⟩ := h <;> exact { hu with }
  | panelInit => obtain ⟨-, -, -, -, rfl⟩ := h; exact { hu with panel := fun hn => absurd rfl hn }
  | setBg c => obtain ⟨-, rfl⟩ := h; exact { hu with background := fun hn => absurd rfl (hn c) }
  | setFont => obtain ⟨-, -, rfl⟩ := h; exact { hu with font := fun hn => absurd rfl hn }
  | getTextWidth => obtain ⟨-, n, rfl⟩ := h; exact { hu with result := fun hn => absurd rfl hn }
  | nop | select | unselect | sendCmd | sendData | setAddress | fillDisplay _ | drawBitmap _ _ | drawFilledRect _
  | drawText _ _ => obtain ⟨-, rfl⟩ := h; exact { hu with }

/-- A command writes no register but its own, however it ends short of a reset. -/
theorem exec_writesOnlyItsOwn {i : Instr} {s t : State} (hr : s.noReset = true) (h : exec i s = .next t) :
    WritesOnlyItsOwn i s t := by
  rcases exec_outcome h with he | ⟨u, hu, hc⟩
  · exact (he.keepsRegisters hr).writesOnlyItsOwn i
  · exact hc.writesOnlyItsOwn hu.follows.keepsRegisters

/-- A pass of the poll loop writes no register, however it ends short of a reset. -/
theorem pollTurn_keepsRegisters {s : State} (hr : s.noReset = true) : KeepsRegisters s (pollTurn s) := by
  rcases pollTurn_outcome s with he | ⟨u, hu, ht | ht⟩
  · exact he.keepsRegisters hr
  · rw [ht]; exact hu.follows.keepsRegisters
  · rw [ht]; exact { hu.follows with }

/-- Settles O55: by `exec_writesOnlyItsOwn` for a command and `pollTurn_keepsRegisters` for a pass of the poll loop. -/
theorem onlyItsCommandWritesARegister : Obligations.OnlyItsCommandWritesARegister := by
  intro s t hr
  constructor
  · intro i h
    obtain ⟨hpanel, hbg, hfont, hresult, hpower, hlatches⟩ := exec_writesOnlyItsOwn hr h
    exact ⟨hpanel, hbg, hfont, hresult, hpower, hlatches⟩
  · intro hp _ h
    rw [step, if_pos hp] at h
    injection h with h
    obtain ⟨hw, hh, hi, hbg, hbv, hfb, hfv, hres, hcs, hcmd, hop, hpar⟩ := h ▸ pollTurn_keepsRegisters hr
    exact ⟨hw, hh, hi, hbg, hbv, hfb, hfv, hres, hcs, hcmd, hop, hpar⟩

/-! ### The latched operands -/

/-- Looking at something else than the argument registers, and then going on without seeing them. -/
theorem Act.Latched.look {α β : Type} {g : State → α} {f : α → Act β} (hg : ∀ s a, g { s with args := a } = g s)
    (hf : ∀ r, Act.Latched (f r)) : Act.Latched (Machine.peek g >>= f) :=
  (Act.Latched.peek hg).bind hf

theorem Act.Latched.raiseIllegal (k : Illegal) : Act.Latched (raiseIllegal k) :=
  .look (fun _ _ => rfl) fun _ => .raise _ _ _

theorem Act.Latched.startBody : Act.Latched startBody :=
  .look (fun _ _ => rfl) fun _ => (Act.Latched.emit _).bind fun _ => Act.Latched.select.bind fun _ =>
    (Act.Latched.emit _).bind fun _ => (Act.Latched.emit _).bind fun _ => (Act.Latched.emit _).bind fun _ =>
    (Act.Latched.emit _).bind fun _ => (Act.Latched.sendFrames _).bind fun _ => (Act.Latched.sendFrames _).bind fun _ =>
    (Act.Latched.sendFrames _).bind fun _ => (Act.Latched.sendFrames _).bind fun _ =>
    (Act.Latched.sendFrames _).bind fun _ => .unselect

theorem Act.Latched.stopBody : Act.Latched stopBody :=
  .look (fun _ _ => rfl) fun _ => Act.Latched.select.bind fun _ => (Act.Latched.sendFrames _).bind fun _ =>
    (Act.Latched.sendFrames _).bind fun _ => Act.Latched.unselect.bind fun _ => .emit _

theorem Act.Latched.updateBody : Act.Latched updateBody :=
  .look (fun _ _ => rfl) fun _ => Act.Latched.select.bind fun _ => (Act.Latched.sendFrames _).bind fun _ => .unselect

theorem Act.Latched.selectBody : Act.Latched selectBody :=
  .look (fun _ _ => rfl) fun _ => .ite (.raise _ _ _) .select

theorem Act.Latched.unselectBody : Act.Latched unselectBody :=
  .look (fun _ _ => rfl) fun _ => .ite .unselect (.raise _ _ _)

theorem Act.Latched.sendCmdBody : Act.Latched sendCmdBody :=
  .look (fun _ _ => rfl) fun _ => Act.Latched.needBracket.bind fun _ => .emit _

theorem Act.Latched.sendDataBody : Act.Latched sendDataBody :=
  .look (fun _ _ => rfl) fun _ => Act.Latched.needBracket.bind fun _ => .emit _

theorem Act.Latched.setAddressBody : Act.Latched setAddressBody :=
  .look (fun _ _ => rfl) fun _ => .look (fun _ _ => rfl) fun _ => .look (fun _ _ => rfl) fun _ =>
    .look (fun _ _ => rfl) fun _ => Act.Latched.needBracket.bind fun _ => .setAddressInternal _ _ _ _

theorem Act.Latched.panelInitBody : Act.Latched panelInitBody :=
  .look (fun _ _ => rfl) fun _ => .look (fun _ _ => rfl) fun _ => .look (fun _ _ => rfl) fun _ =>
    .look (fun _ _ => rfl) fun _ => .ite (.raise _ _ _) (.ite (.raise _ _ _) (.ite (.raise _ _ _) (.pure ())))

theorem Act.Latched.fillDisplayBody (c : Color) : Act.Latched (fillDisplayBody c) :=
  .look (fun _ _ => rfl) fun _ => .look (fun _ _ => rfl) fun _ => .ite (.raise _ _ _) <|
    Act.Latched.select.bind fun _ => (Act.Latched.setAddressInternal _ _ _ _).bind fun _ =>
    (Act.Latched.sendRepeated _ _).bind fun _ => .unselect

theorem Act.Latched.drawOperands (c : Color) (src : PixelSource) : Act.Latched (drawOperands c src) :=
  .look (fun _ _ => rfl) fun _ => .look (fun _ _ => rfl) fun _ => .look (fun _ _ => rfl) fun _ =>
    .look (fun _ _ => rfl) fun _ => .drawBitmapCore _ _ _ _ _ _

theorem Act.Latched.setFontBody : Act.Latched setFontBody :=
  .look (fun _ _ => rfl) fun _ => (Act.Latched.readHeader _).bind fun _ => .look (fun _ _ => rfl) fun _ =>
    .ite (.raise _ _ _) (.ite (.raise _ _ _) (.pure ()))

theorem Act.Latched.getTextWidthBody : Act.Latched getTextWidthBody :=
  .look (fun _ _ => rfl) fun _ => .look (fun _ _ => rfl) fun _ => .look (fun _ _ => rfl) fun _ =>
    (Act.Latched.memRead _ _).bind fun _ => (Act.Latched.memRead _ _).bind fun _ => .textWidthFrom _ _ _ _ _ _ _

theorem Act.Latched.drawTextWithFont (c : Color) (align : Align) : Act.Latched (drawTextWithFont c align) :=
  .look (fun _ _ => rfl) fun _ => .look (fun _ _ => rfl) fun _ => .look (fun _ _ => rfl) fun _ =>
    .look (fun _ _ => rfl) fun _ => .look (fun _ _ => rfl) fun _ => .look (fun _ _ => rfl) fun _ =>
    .look (fun _ _ => rfl) fun _ => (Act.Latched.readHeader _).bind fun _ => .ite (.pure ()) <|
      (Act.Latched.startColumn _ _ _ _ _ _ _).bind fun _ => .drawGlyphs _ _ _ _ _ _ _ _ _

theorem Act.Latched.drawTextBody (c : Color) (align : Align) : Act.Latched (drawTextBody c align) :=
  .look (fun _ _ => rfl) fun _ => .ite (.drawTextWithFont c align) (.raise _ _ _)

/-- A command that ends at a fault does not see the argument registers. -/
theorem endOf_latched {x : Act Unit} (hx : Act.Latched x) {s : State} (hq : s.quiet = true) (a : Vector Word 7) :
    endOf x { s with args := a } = { endOf x s with args := a } := by
  have h := hx s a hq
  rw [endOf, endOf]
  cases hs : x s with
  | ok r t => rw [hs] at h; rw [h.1]
  | error e t => rw [hs] at h; rw [h]

/-- Nor does an UPDATE, from its acceptance to its first poll. -/
theorem afterPoll_latched {x : Act Bool} (hx : Act.Latched x) {s : State} (hq : s.quiet = true) (a : Vector Word 7) :
    afterPoll (x { s with args := a }) = { afterPoll (x s) with args := a } := by
  have h := hx s a hq
  cases hs : x s with
  | error e t => rw [hs] at h; rw [h]; rfl
  | ok more t =>
    rw [hs] at h
    obtain ⟨he, hqt⟩ := h
    rw [he]
    cases more with
    | true => rfl
    | false =>
      rw [afterPoll, afterPoll, hostTurn_quiet hqt, hostTurn_quiet (s := { t with args := a }) hqt]
      rfl

/-- A register write that neither sees nor changes the argument registers and the host's actions. -/
def BlindWrite (f : State → State) : Prop :=
  (∀ s a, f { s with args := a } = { f s with args := a }) ∧ ∀ s, (f s).host = s.host

theorem noWrites_blind (r : Unit) : ∀ f ∈ noWrites r, BlindWrite f := nofun

theorem singleton_blind {f : State → State} (hf : BlindWrite f) : ∀ h ∈ [f], BlindWrite h := by
  simpa using hf

theorem cons_blind {f : State → State} {fs : List (State → State)} (hf : BlindWrite f) (hfs : ∀ h ∈ fs, BlindWrite h) :
    ∀ h ∈ f :: fs, BlindWrite h := by
  simpa using ⟨hf, hfs⟩

/-- The run of a command does not see the argument registers under a host that waits, and leaves them alone. -/
def BlindRun (run : State → State) : Prop :=
  ∀ (s : State) (a : Vector Word 7), s.quiet = true → run { s with args := a } = { run s with args := a }

/-- The run of a command whose steps and register writes do not see the argument registers. -/
theorem BlindRun.command {α : Type} {own needs : Bool} {body : Act α} {writes : α → List (State → State)}
    (hb : Act.Latched body) (hw : ∀ r, ∀ f ∈ writes r, BlindWrite f) : BlindRun (runCommand own needs body writes) :=
  fun _ a hq => runCommand_latched hb hw hq a

/-- Every command is a run that does not see the argument registers (R36, R44). -/
theorem exec_latched (i : Instr) : ∃ run, (∀ s, exec i s = .next (run s)) ∧ BlindRun run := by
  have hillegal (k : Illegal) : BlindRun (endOf (Machine.raiseIllegal k)) :=
    fun _ a hq => endOf_latched (.raiseIllegal k) hq a
  cases i with
  | nop => exact ⟨_, fun _ => rfl, .command (.pure ()) noWrites_blind⟩
  | start => exact ⟨_, fun _ => rfl, .command .startBody fun _ => singleton_blind ⟨fun _ _ => rfl, fun _ => rfl⟩⟩
  | stop => exact ⟨_, fun _ => rfl, .command .stopBody fun _ => singleton_blind ⟨fun _ _ => rfl, fun _ => rfl⟩⟩
  | update =>
    have hpoll : Act.Latched (Machine.update fun t => { t with poll := true }) := .update (fun _ _ => rfl) fun _ => rfl
    have hfirst := (Act.Latched.acceptance true false).bind fun _ => Act.Latched.updateBody.bind fun _ =>
      hpoll.bind fun _ => .pollOnce
    exact ⟨_, fun _ => rfl, fun _ a hq => afterPoll_latched hfirst hq a⟩
  | select => exact ⟨_, fun _ => rfl, .command .selectBody noWrites_blind⟩
  | unselect => exact ⟨_, fun _ => rfl, .command .unselectBody noWrites_blind⟩
  | sendCmd => exact ⟨_, fun _ => rfl, .command .sendCmdBody noWrites_blind⟩
  | sendData => exact ⟨_, fun _ => rfl, .command .sendDataBody noWrites_blind⟩
  | setAddress => exact ⟨_, fun _ => rfl, .command .setAddressBody noWrites_blind⟩
  | panelInit =>
    exact ⟨_, fun _ => rfl, .command .panelInitBody fun _ => cons_blind ⟨fun _ _ => rfl, fun _ => rfl⟩ <|
      cons_blind ⟨fun _ _ => rfl, fun _ => rfl⟩ <| singleton_blind ⟨fun _ _ => rfl, fun _ => rfl⟩⟩
  | setBg c =>
    exact ⟨_, fun _ => rfl, .command (.pure ()) fun _ => cons_blind ⟨fun _ _ => rfl, fun _ => rfl⟩ <|
      singleton_blind ⟨fun _ _ => rfl, fun _ => rfl⟩⟩
  | fillDisplay c => exact ⟨_, fun _ => rfl, .command (.fillDisplayBody c) noWrites_blind⟩
  | drawBitmap c src =>
    cases src with
    | solid => exact ⟨_, fun _ => rfl, .command (.drawOperands c .solid) noWrites_blind⟩
    | mem =>
      exact ⟨fun s => runCommand true true (drawOperands c (.mem (addrOperand s 4))) noWrites s, fun _ => rfl,
        fun s a hq => runCommand_latched (.drawOperands c (.mem (addrOperand s 4))) noWrites_blind hq a⟩
    | host => exact ⟨_, fun _ => rfl, .command (.drawOperands c .host) noWrites_blind⟩
    | reserved => exact ⟨_, fun _ => rfl, hillegal .reservedSrc⟩
  | drawFilledRect c => exact ⟨_, fun _ => rfl, .command (.drawOperands c .solid) noWrites_blind⟩
  | setFont =>
    exact ⟨_, fun _ => rfl, .command .setFontBody fun _ => cons_blind ⟨fun _ _ => rfl, fun _ => rfl⟩ <|
      singleton_blind ⟨fun _ _ => rfl, fun _ => rfl⟩⟩
  | getTextWidth =>
    exact ⟨_, fun _ => rfl, .command .getTextWidthBody fun _ => singleton_blind ⟨fun _ _ => rfl, fun _ => rfl⟩⟩
  | drawText c align =>
    by_cases ha : align = .reserved
    · exact ⟨_, fun _ => if_pos ha, hillegal .reservedAlign⟩
    · exact ⟨_, fun _ => if_neg ha, .command (.drawTextBody c align) noWrites_blind⟩

/-- Settles O57: by `exec_latched`. -/
theorem commandsUseTheLatchedOperands : Obligations.CommandsUseTheLatchedOperands := by
  intro i s t a hq h
  obtain ⟨run, hrun, hblind⟩ := exec_latched i
  rw [hrun] at h ⊢
  injection h with h
  rw [hblind s a hq, h]

/-! ### The layout of `STATUS` -/

/-- The fields of `STATUS` of more than one bit (R23). -/
theorem statusWord_fields (s : State) :
    (statusWord s).extractLsb' 4 2 = s.cstate.code ∧ (statusWord s).extractLsb' 9 7 = 0 ∧
    (statusWord s).extractLsb' 16 8 = (if s.fault then s.cause.code else 0) ∧ (statusWord s).extractLsb' 24 8 = 0 := by
  refine ⟨?_, ?_, ?_, ?_⟩ <;>
    simp (disch := decide) only [statusWord, BitVec.extractLsb'_append_eq_of_le, BitVec.extractLsb'_append_eq_of_add_le,
      Nat.reduceSub, BitVec.extractLsb'_eq_self, BitVec.ofNat_eq_ofNat]

/-- The bits of `STATUS` that are fields of their own (R23). -/
theorem statusWord_bits (s : State) :
    (statusWord s).getLsbD 0 = s.busy ∧ (statusWord s).getLsbD 1 = s.fault ∧ (statusWord s).getLsbD 2 = s.sel ∧
    (statusWord s).getLsbD 3 = false ∧ (statusWord s).getLsbD 6 = s.panelInit ∧ (statusWord s).getLsbD 7 = s.bgValid ∧
    (statusWord s).getLsbD 8 = s.fontValid := by
  simp only [statusWord, BitVec.getLsbD_append]
  simp

/-- Settles O16: the bits and fields of `STATUS`, and the numbers of `CState.code` and `Cause.code`. -/
theorem statusLayout : Obligations.StatusLayout := by
  intro s
  obtain ⟨hbusy, hfault, hsel, hzero, hpanel, hbg, hfont⟩ := statusWord_bits s
  obtain ⟨hcstate, hmid, hcause, htop⟩ := statusWord_fields s
  refine ⟨hbusy, hfault, hsel, hzero, ?power, hpanel, hbg, hfont, hmid, ?code, htop⟩
  case power =>
    rw [hcstate]
    cases s.cstate <;> rfl
  case code =>
    rw [hcause]
    cases s.fault with
    | false => rfl
    | true => cases s.cause <;> rfl

end Sys2Proof.Machine
end

section
/-! Proofs of the statements of the family `20_memory.md`: host memory is written by the host alone, and what the observer
of the controller RAM sees of a filled rectangle. -/

namespace Sys2Proof.Machine

/-! ### Host memory -/

/-- A command that has ended early has left memory to the host: neither fault entry nor a reset writes it (R50). -/
theorem Ended.unwritten {p : Place} {s t : State} (h : Ended p s t) (hn : ∀ a v, .poke a v ∉ s.host) : t.mem = s.mem := by
  cases h with
  | fault q c d v a _ hf => exact hf.unwritten hn
  | reset _ hf => exact hf.unwritten hn

/-- Completing writes registers, not memory. -/
theorem Completes.mem {i : Instr} {s u t : State} (h : Completes i s u t) : t.mem = u.mem := by
  cases i with
  | update => obtain ⟨-, rfl | rfl⟩ := h <;> rfl
  | panelInit => obtain ⟨-, -, -, -, rfl⟩ := h; rfl
  | setFont => obtain ⟨-, -, rfl⟩ := h; rfl
  | getTextWidth => obtain ⟨-, n, rfl⟩ := h; rfl
  | nop | start | stop | select | unselect | sendCmd | sendData | setAddress | setBg _ | fillDisplay _ | drawBitmap _ _
  | drawFilledRect _ | drawText _ _ => obtain ⟨-, rfl⟩ := h; rfl

/-- A command leaves memory to the host, however it ends (R50). -/
theorem exec_unwritten {i : Instr} {s t : State} (hn : ∀ a v, .poke a v ∉ s.host) (h : exec i s = .next t) :
    t.mem = s.mem := by
  rcases exec_outcome h with he | ⟨u, hu, hc⟩
  · exact he.unwritten hn
  · exact hc.mem.trans (hu.follows.unwritten hn)

/-- So does a pass of the poll loop. -/
theorem pollTurn_unwritten {s : State} (hn : ∀ a v, .poke a v ∉ s.host) : (pollTurn s).mem = s.mem := by
  rcases pollTurn_outcome s with he | ⟨u, hu, ht | ht⟩
  · exact he.unwritten hn
  · rw [ht]; exact hu.follows.unwritten hn
  · rw [ht]; exact hu.follows.unwritten hn

/-- Settles O59: a step is one of `Stepped`, and inside each of them memory changes by the host's writes only. -/
theorem blockNeverWritesHostMemory : Obligations.BlockNeverWritesHostMemory := by
  intro s t hn hstep
  have hrest {x : HostAction} {rest : List HostAction} (hh : s.host = x :: rest) (a : Word) (v : Byte) : .poke a v ∉ rest :=
    fun hm => hn a v (hh ▸ List.mem_cons_of_mem x hm)
  cases step_stepped hstep with
  | poll => exact pollTurn_unwritten hn
  | host _ hs => exact hs.unwritten hn
  | reset => rfl
  | overrun => exact (overrun_ended _ s).unwritten hn
  | illegal _ _ _ hh => exact (raiseIllegal_ended _ _).unwritten (hrest hh)
  | command _ _ _ hh _ hx => exact (exec_unwritten (hrest hh) hx).trans rfl

/-- Between two commands a host write of memory is a write of that one byte (R50, R63). -/
theorem step_poke {s : State} {a : Word} {v : Byte} {rest : List HostAction} (hp : s.poll = false) (hb : s.busy = false)
    (hh : s.host = .poke a v :: rest) : step s = .next { s with host := rest, mem := Memory.write s.mem a.toNat v } := by
  simp [step, hp, takeHost, hh, takeAction, hostPoke, hb]

/-- Settles O60: the byte written and the others, by the laws of `Memory.write`. -/
theorem hostMemoryWriteIsLocal : Obligations.HostMemoryWriteIsLocal := by
  intro s a v rest hp hb hm hh
  exact ⟨_, step_poke hp hb hh, Memory.write_wf hm a.isLt v, Memory.read_write_eq a.toNat v s.mem hm,
    fun b hne => Memory.read_write_ne hne v s.mem⟩

/-! ### The bytes the observer knows -/

/-- What was stored is known. -/
theorem Observer.byteAt_store_eq (o : Observer) (ya xa : Nat) (b : Byte) : (o.store ya xa b).byteAt ya xa = some b := by
  simp [Observer.byteAt, Observer.store]

/-- A store leaves every other byte alone. -/
theorem Observer.byteAt_store_ne (o : Observer) {ya xa y x : Nat} (b : Byte) (h : y ≠ ya ∨ x ≠ xa) :
    (o.store ya xa b).byteAt y x = o.byteAt y x := by
  have hne : (ya, xa) ≠ (y, x) := by
    rintro ⟨⟩
    simp at h
  have hkept : (fun c : (Nat × Nat) × Byte => decide (c.1 ≠ (ya, xa) ∧ c.1 = (y, x))) = fun c => c.1 == (y, x) := by
    funext c
    by_cases hc : c.1 = (y, x)
    · simp [hc, hne.symm]
    · simp [hc]
  simpa [Observer.byteAt, Observer.store, List.find?_filter, hne] using congrArg (Option.map _ <| o.ram.find? ·) hkept

/-- The bytes of one column of a draw, stored in one RAM row from the RAM x address `xa` on. -/
def Observer.storeRow (ya : Nat) : (xa : Nat) → List Byte → Observer → Observer
  | _, [], o => o
  | xa, b :: bs, o => (o.store ya xa b).storeRow ya (xa + 1) bs

/-- Another RAM row, and the bytes before the first one stored, stay as they were. -/
theorem Observer.byteAt_storeRow_ne {ya y x : Nat} : ∀ {xa : Nat} (bs : List Byte) (o : Observer), y ≠ ya ∨ x < xa →
    (o.storeRow ya xa bs).byteAt y x = o.byteAt y x
  | _, [], _, _ => rfl
  | _, b :: bs, o, h => by
    rw [Observer.storeRow, Observer.byteAt_storeRow_ne bs _ (h.imp_right Nat.lt_succ_of_lt),
      o.byteAt_store_ne b (h.imp_right Nat.ne_of_lt)]

/-- The bytes stored are known, each at its RAM x address. -/
theorem Observer.byteAt_storeRow_eq (ya : Nat) (bs : List Byte) : ∀ (xa : Nat) (o : Observer) (j : Nat), j < bs.length →
    (o.storeRow ya xa bs).byteAt ya (xa + j) = bs[j]? := by
  induction bs with
  | nil => exact fun _ _ _ h => absurd h (Nat.not_lt_zero _)
  | cons b bs ih =>
    intro xa o j h
    rw [Observer.storeRow]
    cases j with
    | zero => exact (Observer.byteAt_storeRow_ne bs _ (.inr (Nat.lt_succ_self xa))).trans (o.byteAt_store_eq ya xa b)
    | succ j =>
      rw [show xa + (j + 1) = xa + 1 + j by omega, ih (xa + 1) _ j (Nat.lt_of_succ_lt_succ h), List.getElem?_cons_succ]

/-- Storing does not touch the power. -/
theorem Observer.storeRow_powered (ya : Nat) : ∀ (xa : Nat) (bs : List Byte) (o : Observer),
    (o.storeRow ya xa bs).powered = o.powered
  | _, [], _ => rfl
  | _, b :: bs, o => Observer.storeRow_powered ya _ bs (o.store ya _ b)

/-! ### A legal window as the observer takes it -/

/-- A window in range, value by value (R111). -/
theorem Window.inRange_iff (p : Params) (w : Window) : w.inRange p = true ↔
    (0 ≤ w.xs ∧ w.xs < p.xbytes) ∧ (0 ≤ w.xe ∧ w.xe < p.xbytes) ∧ (0 ≤ w.ys ∧ w.ys < p.gates) ∧
    0 ≤ w.ye ∧ w.ye < p.gates := by
  simp [Window.inRange, and_assoc]

/-- Legal parameters have RAM addresses of one byte in x and of two in y (R7, R8). -/
theorem Params.wellFormed_extents {p : Params} (h : p.wellFormed = true) : p.xbytes ≤ 256 ∧ p.gates ≤ 65536 := by
  simp only [Params.wellFormed, Bool.and_eq_true, decide_eq_true_eq] at h
  rw [Params.xbytes]
  omega

/-- The five addressing command bytes of legal parameters are distinct (R100). -/
theorem Params.wellFormed_distinct {p : Params} (h : p.wellFormed = true) :
    (p.variant.kRamY ≠ p.variant.kRamX ∧ p.variant.kXCnt ≠ p.variant.kRamX ∧ p.variant.kYCnt ≠ p.variant.kRamX) ∧
    (p.variant.kXCnt ≠ p.variant.kRamY ∧ p.variant.kYCnt ≠ p.variant.kRamY ∧ p.variant.kYCnt ≠ p.variant.kXCnt) ∧
    p.variant.kRamX ≠ p.variant.kWRam ∧ p.variant.kRamY ≠ p.variant.kWRam ∧ p.variant.kXCnt ≠ p.variant.kWRam ∧
    p.variant.kYCnt ≠ p.variant.kWRam := by
  simp only [Params.wellFormed, Variant.wellFormed, Bool.and_eq_true, decide_eq_true_eq] at h
  obtain ⟨-, hnodup, -⟩ := h
  simp only [Variant.addressing, List.nodup_cons, List.mem_cons, not_or] at hnodup
  obtain ⟨⟨hxy, hxc, hxn, hxw, -⟩, ⟨hyc, hyn, hyw, -⟩, ⟨hcn, hcw, -⟩, ⟨hnw, -⟩, -⟩ := hnodup
  exact ⟨⟨Ne.symm hxy, Ne.symm hxc, Ne.symm hxn⟩, ⟨Ne.symm hyc, Ne.symm hyn, Ne.symm hcn⟩, hxw, hyw, hcw, hnw⟩

/-- A RAM x address survives its byte. -/
theorem toNat_ofInt_byte {v : Int} (h0 : 0 ≤ v) (h : v < 256) : (BitVec.ofInt 8 v).toNat = v.toNat := by
  rw [BitVec.toNat_ofInt]
  omega

/-- A RAM y address survives its bytes (R71, R113). -/
theorem yValue_yBytes {p : Params} {v : Int} (hg : p.gates ≤ 65536) (h0 : 0 ≤ v) (h : v < p.gates) :
    yValue (yBytes p v) = v.toNat := by
  by_cases hw : p.gates > 255
  · simp only [yBytes, Params.ywide, hw, low8, yValue, decide_true, if_true, BitVec.toNat_ofInt]
    omega
  · simp only [yBytes, Params.ywide, hw, low8, yValue, decide_false, Bool.false_eq_true, if_false, BitVec.toNat_ofInt]
    omega

section Frames

variable {p : Params} {st : Bool} (o : Observer)

/-- The frame of the X range (R71, R112). -/
theorem Observer.see_ramX (hp : p.wellFormed = true) (a b : Byte) :
    [Event.cmd p.variant.kRamX, .dat a, .dat b].foldl (Observer.see p st) o =
      { o with xs := some a.toNat, xe := some b.toNat, wr := false, cmd := some p.variant.kRamX, data := [a, b],
               closed := false } := by
  have hd := Params.wellFormed_distinct hp
  simp [Observer.see, Observer.takeData, Observer.readData, Observer.readAddress, hd]

/-- The frame of the Y range, of one or two bytes a value (R71, R112, R113). -/
theorem Observer.see_ramY (hp : p.wellFormed = true) (v w : Int) :
    (Event.cmd p.variant.kRamY :: (yAddress p v ++ yAddress p w)).foldl (Observer.see p st) o =
      { o with ys := some (yValue (yBytes p v)), ye := some (yValue (yBytes p w)), wr := false,
               cmd := some p.variant.kRamY, data := yBytes p v ++ yBytes p w, closed := false } := by
  have hd := Params.wellFormed_distinct hp
  by_cases hg : p.gates > 255 <;>
    simp [Observer.see, Observer.takeData, Observer.readData, Observer.readAddress, hd, yAddress, yBytes, low8, hg,
      Params.yCount, Params.ywide]

/-- The frame of the X counter (R71, R114). -/
theorem Observer.see_xCnt (hp : p.wellFormed = true) (a : Byte) :
    [Event.cmd p.variant.kXCnt, .dat a].foldl (Observer.see p st) o =
      { o with xc := some a.toNat, wr := false, cmd := some p.variant.kXCnt, data := [a], closed := false } := by
  have hd := Params.wellFormed_distinct hp
  simp [Observer.see, Observer.takeData, Observer.readData, Observer.readAddress, hd]

/-- The frame of the Y counter (R71, R113, R114). -/
theorem Observer.see_yCnt (hp : p.wellFormed = true) (v : Int) :
    (Event.cmd p.variant.kYCnt :: yAddress p v).foldl (Observer.see p st) o =
      { o with yc := some (yValue (yBytes p v)), wr := false, cmd := some p.variant.kYCnt, data := yBytes p v,
               closed := false } := by
  have hd := Params.wellFormed_distinct hp
  by_cases hg : p.gates > 255 <;>
    simp [Observer.see, Observer.takeData, Observer.readData, Observer.readAddress, hd, yAddress, yBytes, low8, hg,
      Params.yCount, Params.ywide]

end Frames

/-- The observer in write mode with a window set and its counters at a place in it. -/
def Observer.writing (p : Params) (win : Window) (xc yc : Nat) (o : Observer) : Observer :=
  { o with
    xs := some win.xs.toNat
    xe := some win.xe.toNat
    ys := some win.ys.toNat
    ye := some win.ye.toNat
    xc := some xc
    yc := some yc
    wr := true
    cmd := some p.variant.kWRam
    data := []
    closed := false }

/-- The addressing of a window puts the observer in write mode at the window's first byte (R71, R112). -/
theorem Observer.see_windowEvents {p : Params} (hp : p.wellFormed = true) {win : Window} (hw : win.inRange p = true)
    (st : Bool) (o : Observer) :
    (windowEvents p win).foldl (Observer.see p st) o = o.writing p win win.xs.toNat win.ys.toNat := by
  obtain ⟨hx, hg⟩ := Params.wellFormed_extents hp
  obtain ⟨⟨hxs0, hxs⟩, ⟨hxe0, hxe⟩, ⟨hys0, hys⟩, hye0, hye⟩ := (Window.inRange_iff p win).1 hw
  rw [windowEvents, List.foldl_append, List.foldl_append, List.foldl_append, List.foldl_append, Observer.see_ramX _ hp,
    Observer.see_ramY _ hp, Observer.see_xCnt _ hp, Observer.see_yCnt _ hp, toNat_ofInt_byte hxs0 (by omega),
    toNat_ofInt_byte hxe0 (by omega), yValue_yBytes hg hys0 hys, yValue_yBytes hg hye0 hye]
  simp [Observer.see, Observer.writing]

/-! ### The bytes of a draw in the controller RAM -/

/-- What is known does not depend on window, counters and mode. -/
theorem Observer.byteAt_writing (p : Params) (win : Window) (xc yc ya xa : Nat) (o : Observer) :
    (o.writing p win xc yc).byteAt ya xa = o.byteAt ya xa := rfl

/-- The RAM row that follows the row `yc` of a window (R72): the one below it, and after the last one the first. -/
def Window.rowAfter (win : Window) (yc : Nat) : Nat := if yc = win.ye.toNat then win.ys.toNat else yc - 1

section Writes

variable {p : Params} {win : Window} {o : Observer} {xc yc : Nat}

/-- The counters run through a row of the window and go on to the row that follows (R72). -/
theorem Observer.advance_writing (hye : win.ye.toNat ≤ yc) :
    (o.writing p win xc yc).advance =
      if xc = win.xe.toNat then o.writing p win win.xs.toNat (win.rowAfter yc) else o.writing p win (xc + 1) yc := by
  have hrow : (o.writing p win xc yc).nextRow = some (win.rowAfter yc) := by
    simp only [Observer.nextRow, Observer.writing, Window.rowAfter]
    split
    · rfl
    · rw [if_neg (by omega)]
  rw [Observer.advance, hrow]
  rfl

/-- A write inside the RAM stores its byte and moves the counters (R72). -/
theorem Observer.see_write (ho : o.powered = true) (hx : xc < p.xbytes) (hy : yc < p.gates) (b : Byte) :
    (o.writing p win xc yc).see p true (.dat b) = ((o.store yc xc b).writing p win xc yc).advance := by
  have hram : (o.writing p win xc yc).writeRam p true b = (o.store yc xc b).writing p win xc yc := by
    simp [Observer.writeRam, Observer.writing, Observer.store, ho, hx, hy]
  rw [← hram]
  rfl

/-- The bytes of one column of a draw, from a place in its RAM row to the row's end, are stored there (R72, R132). -/
theorem Observer.see_column (hx : win.xe.toNat < p.xbytes) (hy : yc < p.gates) (hye : win.ye.toNat ≤ yc) (bs : List Byte) :
    ∀ (xc : Nat) (o : Observer), o.powered = true → xc ≤ win.xe.toNat → xc + bs.length = win.xe.toNat + 1 →
      (bs.map Event.dat).foldl (Observer.see p true) (o.writing p win xc yc) =
        (o.storeRow yc xc bs).writing p win win.xs.toNat (win.rowAfter yc) := by
  induction bs with
  | nil =>
    intro xc o _ hle hlen
    rw [List.length_nil] at hlen
    omega
  | cons b bs ih =>
    intro xc o ho hle hlen
    rw [List.length_cons] at hlen
    rw [List.map_cons, List.foldl_cons, Observer.see_write ho (by omega) hy, Observer.advance_writing hye]
    split
    case isTrue hend =>
      obtain rfl : bs = [] := List.length_eq_zero_iff.1 (by omega)
      rfl
    case isFalse hin => exact ih (xc + 1) (o.store yc xc b) ho (by omega) (by omega)

/-- The columns of a draw, one RAM row each from the window's first row down: after `m` of them the bytes of each are
known (R72, R132, R138). -/
theorem Observer.see_columns (hw : win.inRange p = true) (hxs : win.xs ≤ win.xe) (ho : o.powered = true)
    (col : Nat → List Byte) (hcol : ∀ w, win.xs.toNat + (col w).length = win.xe.toNat + 1) :
    ∀ m : Nat, win.ye + m ≤ win.ys + 1 → ∃ o' : Observer, o'.powered = true ∧
      (((List.range m).flatMap col).map Event.dat).foldl (Observer.see p true) (o.writing p win win.xs.toNat win.ys.toNat) =
        o'.writing p win win.xs.toNat (if win.ye + m = win.ys + 1 then win.ys.toNat else win.ys.toNat - m) ∧
      ∀ w < m, ∀ j < (col w).length, o'.byteAt (win.ys.toNat - w) (win.xs.toNat + j) = (col w)[j]? := by
  obtain ⟨-, ⟨hxe0, hxe⟩, ⟨hys0, hys⟩, hye0, hye⟩ := (Window.inRange_iff p win).1 hw
  intro m
  induction m with
  | zero => exact fun _ => ⟨o, ho, by simp, fun w h => absurd h (Nat.not_lt_zero w)⟩
  | succ m ih =>
    intro hm
    push_cast at hm ⊢
    obtain ⟨o', ho', hfold, hknown⟩ := ih (by omega)
    rw [if_neg (by omega)] at hfold
    have hcolumn := Observer.see_column (p := p) (win := win) (yc := win.ys.toNat - m) (by omega) (by omega) (by omega)
      (col m) win.xs.toNat o' ho' (by omega) (hcol m)
    refine ⟨o'.storeRow (win.ys.toNat - m) win.xs.toNat (col m), ?power, ?fold, ?known⟩
    case power => rw [Observer.storeRow_powered, ho']
    case fold =>
      rw [List.range_succ, List.flatMap_append, List.flatMap_singleton, List.map_append, List.foldl_append, hfold, hcolumn,
        Window.rowAfter]
      congr 1
      split <;> split <;> omega
    case known =>
      intro w hwm j hj
      obtain rfl | hlt : w = m ∨ w < m := by omega
      · exact o'.byteAt_storeRow_eq _ (col w) _ j hj
      · rw [Observer.byteAt_storeRow_ne (col m) o' (.inl (by omega)), hknown w hlt j hj]

end Writes

/-- Closing the bracket leaves the RAM as it was (R71). -/
theorem Observer.see_closeEvents (p : Params) (st : Bool) (o : Observer) (ya xa : Nat) :
    ((closeEvents p).foldl (Observer.see p st) o).byteAt ya xa = o.byteAt ya xa := by
  rw [closeEvents]
  split <;> rfl

/-- Opening a bracket does nothing to the observer. -/
theorem Observer.see_openEvents (p : Params) (st : Bool) (o : Observer) : (openEvents p).foldl (Observer.see p st) o = o := by
  rw [openEvents]
  split <;> rfl

/-- After a draw the observer knows every byte of its window, column `w` of the draw in the RAM row `ys - w` (R72, R138). -/
theorem Observer.see_drawEvents {p : Params} (hp : p.wellFormed = true) {win : Window} (hw : win.inRange p = true)
    (hxs : win.xs ≤ win.xe) {o : Observer} (ho : o.powered = true) {col : Nat → List Byte}
    (hcol : ∀ w, win.xs.toNat + (col w).length = win.xe.toNat + 1) {width : Nat} (hwidth : win.ye + width ≤ win.ys + 1)
    {w j : Nat} (hwlt : w < width) (hj : j < (col w).length) :
    ((drawEvents p win ((List.range width).flatMap col)).foldl (Observer.see p true) o).byteAt (win.ys.toNat - w)
      (win.xs.toNat + j) = (col w)[j]? := by
  obtain ⟨o', -, hfold, hknown⟩ := Observer.see_columns hw hxs ho col hcol width hwidth
  rw [drawEvents, List.foldl_append, List.foldl_append, List.foldl_append, Observer.see_openEvents,
    Observer.see_windowEvents hp hw, hfold, Observer.see_closeEvents, Observer.byteAt_writing]
  exact hknown w hwlt j hj

/-- A command that completes leaves the observer with the events it emitted, where the block was started (R74, R101, R203). -/
theorem Observer.follow_completed {s : State} (hs : s.cstate = .started) (es : List Event) (o : Observer) :
    o.follow s (s.completed es) = es.foldl (Observer.see s.params true) o := by
  have htrace : (s.completed es).trace.drop s.trace.length = es := by simp [State.completed]
  have hup : (s.completed es).cstate ≠ .uninit := by simp [State.completed, hs]
  rw [Observer.follow, htrace, hs]
  exact if_neg hup

/-! ### Packed colours -/

/-- A slot is read bit by bit. -/
theorem slotColor_or (a b : Byte) (r : Nat) : slotColor (a ||| b) r = slotColor a r ||| slotColor b r := by
  simp [slotColor, BitVec.ushiftRight_or_distrib, BitVec.setWidth_or]

theorem slotColor_and (a b : Byte) (r : Nat) : slotColor (a &&& b) r = slotColor a r &&& slotColor b r := by
  simp [slotColor, BitVec.ushiftRight_and_distrib, BitVec.setWidth_and]

/-- The mask of a slot has that slot and no other (R133). -/
theorem slotColor_slotMask : ∀ r r' : Fin 4, slotColor (slotMask r') r = if r = r' then BitVec.allOnes 2 else 0 := by decide

/-- A colour byte has its colour in every slot (R131). -/
theorem slotColor_colorByte : ∀ (c : Color) (r : Fin 4), slotColor (colorByte c) r = c := by decide

/-- The part of a packed byte that one display row fills has that row's colour in its slot and nothing elsewhere (R133). -/
theorem slotColor_slotPart (pick : Nat → Byte) (y height g : Nat) (r r' : Fin 4)
    (h : y ≤ 4 * g + r ∧ 4 * g + r < y + height) :
    slotColor (slotPart pick y height g r') r = if r = r' then slotColor (pick (4 * g + r - y)) r else 0 := by
  by_cases hr : r = r'
  · subst hr
    rw [slotPart, if_pos h, slotColor_and, slotColor_slotMask, if_pos rfl, if_pos rfl, BitVec.and_allOnes]
  · rw [if_neg hr, slotPart]
    split
    · rw [slotColor_and, slotColor_slotMask, if_neg hr]
      exact BitVec.and_zero
    · simp [slotColor]

/-- A packed byte has in the slot of each display row it holds the colour of that row (R133, R146). -/
theorem slotColor_groupByte (pick : Nat → Byte) (y height g : Nat) (r : Fin 4)
    (h : y ≤ 4 * g + r ∧ 4 * g + r < y + height) :
    slotColor (groupByte pick y height g) r = slotColor (pick (4 * g + r - y)) r := by
  have hpart (r' : Fin 4) := slotColor_slotPart pick y height g r r' h
  have h0 : slotColor (slotPart pick y height g 0) r = _ := hpart 0
  have h1 : slotColor (slotPart pick y height g 1) r = _ := hpart 1
  have h2 : slotColor (slotPart pick y height g 2) r = _ := hpart 2
  have h3 : slotColor (slotPart pick y height g 3) r = _ := hpart 3
  rw [groupByte, slotColor_or, slotColor_or, slotColor_or, h0, h1, h2, h3]
  fin_cases r <;> simp

/-- A column's byte is the packed byte of its RAM x address (R139). -/
theorem columnBytes_getElem (pick : Nat → Byte) {y height j : Nat} (hj : j < (columnBytes pick y height).length) :
    (columnBytes pick y height)[j]? = some (groupByte pick y height (y / 4 + j)) := by
  rw [columnBytes_length] at hj
  split at hj
  case isTrue => omega
  case isFalse hh => rw [columnBytes, if_neg hh, List.getElem?_map, List.getElem?_range hj, Option.map_some]

/-- The window of a draw as the RAM addresses of its first and last group and of its first column (R132). -/
theorem windowOf_toNat (panelW x y width : Nat) {height : Nat} (hh : 0 < height) :
    (windowOf panelW x y width height).xs.toNat = y / 4 ∧
    (windowOf panelW x y width height).xe.toNat = (y + height - 1) / 4 ∧
    (windowOf panelW x y width height).ys.toNat = panelW - 1 - x := by
  simp only [windowOf]
  omega

/-- After a draw of a window that passes the check, the RAM byte of each of its pixels is known, and is the packed byte of
its column and group (R73, R132, R134). -/
theorem Observer.byteAt_pixel {p : Params} (hp : p.wellFormed = true) {panelW x y width height : Nat}
    (hw : (windowOf panelW x y width height).inRange p = true) (pick : Nat → Nat → Byte) {o : Observer}
    (ho : o.powered = true) {w h : Nat} (hwlt : w < width) (hhlt : h < height) :
    ((drawEvents p (windowOf panelW x y width height) (drawBytes pick y width height)).foldl (Observer.see p true) o).byteAt
      (panelW - 1 - (x + w)) ((y + h) / 4) = some (groupByte (pick w) y height ((y + h) / 4)) := by
  obtain ⟨hxs, hxe, hys⟩ := windowOf_toNat panelW x y width (Nat.zero_lt_of_lt hhlt)
  have hlen (v : Nat) : (columnBytes (pick v) y height).length = (y + height - 1) / 4 - y / 4 + 1 := by
    rw [columnBytes_length, if_neg (by omega)]
  have hj : (y + h) / 4 - y / 4 < (columnBytes (pick w) y height).length := by
    rw [hlen]
    omega
  have hknown := Observer.see_drawEvents hp hw (by simp only [windowOf]; omega) ho
    (col := fun v => columnBytes (pick v) y height) (fun v => by rw [hlen, hxs, hxe]; omega) (width := width)
    (by simp only [windowOf]; omega) hwlt hj
  have hgroup : y / 4 + ((y + h) / 4 - y / 4) = (y + h) / 4 := by omega
  rw [columnBytes_getElem _ hj, hxs, hys, hgroup, Nat.sub_sub] at hknown
  exact hknown

/-! ### A filled rectangle -/

/-- Pixels that contribute nothing. -/
theorem pixelsBefore_nothing {β : Type} (height w h : Nat) : pixelsBefore (fun _ _ => ([] : List β)) height w h = [] := by
  simp [pixelsBefore, List.flatMap_eq_nil_iff]

/-- A draw of the operands is a draw of their rectangle (R143, R144). -/
theorem drawOperands_eq (c : Color) (src : PixelSource) (s : State) :
    drawOperands c src s = drawBitmapCore c (coord s 0) (coord s 1) (coord s 2) (coord s 3) src s := by
  rw [drawOperands, peek_bind, peek_bind, peek_bind, peek_bind]

/-- The steps of a solid draw whose window passes the check, under a host that waits: one bracket, the window, and the
packed bytes of the drawing colour (R135, R138). -/
theorem drawOperands_solid {s : State} (c : Color) (hq : s.quiet = true) (hs : s.sel = false)
    (hw : (s.window (coord s 0) (coord s 1) (coord s 2) (coord s 3)).inRange s.params = true) :
    drawOperands c .solid s = .ok () (s.emitted (drawEvents s.params
      (s.window (coord s 0) (coord s 1) (coord s 2) (coord s 3))
      (drawBytes (fun _ _ => colorByte c) (coord s 1) (coord s 2) (coord s 3)))) := by
  rw [drawOperands_eq, drawBitmapCore_quiet hq hs hw (picksAs_solid c (coord s 2) (coord s 3) { s with sel := true }),
    pixelsBefore_nothing, pixelsBefore_nothing, ← emitted_drawn]

/-- DRAW_FILLED_RECT of a window that passes the check, under a host that waits, completes with the events of its draw
(R144). -/
theorem exec_drawFilledRect_completed {s : State} (c : Color) (hq : s.quiet = true) (hs : s.sel = false)
    (hi : s.panelInit = true) (hw : (s.window (coord s 0) (coord s 1) (coord s 2) (coord s 3)).inRange s.params = true) :
    exec (.drawFilledRect c) s = .next (s.completed (drawEvents s.params
      (s.window (coord s 0) (coord s 1) (coord s 2) (coord s 3))
      (drawBytes (fun _ _ => colorByte c) (coord s 1) (coord s 2) (coord s 3)))) := by
  have hrun := runCommand_quiet (own := true) (needs := true) (writes := noWrites) (by simp [hs]) (by simp [hi])
    (drawOperands_solid c hq hs hw) hq nofun
  exact congrArg Host.Outcome.next hrun

/-- A packed byte of one colour has that colour in the slot of each display row it holds. -/
theorem slotColor_filled (c : Color) {y height h : Nat} (hh : h < height) :
    slotColor (groupByte (fun _ => colorByte c) y height ((y + h) / 4)) ((y + h) % 4) = c := by
  have hr : (y + h) % 4 < 4 := Nat.mod_lt _ (by decide)
  have hslot := slotColor_groupByte (fun _ => colorByte c) y height ((y + h) / 4) ⟨(y + h) % 4, hr⟩ (by dsimp only; omega)
  exact hslot.trans (slotColor_colorByte c ⟨_, hr⟩)

/-- Settles O41: the RAM byte of a pixel by `Observer.byteAt_pixel`, its slot by `slotColor_filled`. -/
theorem filledRectPaintsItsPixels : Obligations.FilledRectPaintsItsPixels := by
  intro c s t o hp hq hsel hi hstarted ho hw hexec w h hwlt hhlt
  rw [exec_drawFilledRect_completed c hq hsel hi hw] at hexec
  injection hexec with ht
  have hbyte : (o.follow s t).byteAt (s.panelW.toNat - 1 - (coord s 0 + w)) ((coord s 1 + h) / 4) =
      some (groupByte (fun _ => colorByte c) (coord s 1) (coord s 3) ((coord s 1 + h) / 4)) := by
    rw [← ht, Observer.follow_completed hstarted]
    exact Observer.byteAt_pixel hp hw (fun _ _ => colorByte c) ho hwlt hhlt
  refine ⟨⟨_, hbyte, slotColor_filled c hhlt⟩, fun hrow => ?pixel⟩
  obtain ⟨-, -, -, hye, -⟩ := (Window.inRange_iff _ _).1 hw
  simp only [State.window, windowOf] at hye
  rw [Observer.pixel, if_pos ⟨by omega, hrow⟩, hbyte, Option.map_some, slotColor_filled c hhlt]

end Sys2Proof.Machine
end

section
/-! Proofs of the statements of the family `30_encoding.md`: what the decoder answers for a word, by its fields, and what
the host's accesses to the registers and its `WAITIDLE` do. -/

namespace Sys2Proof

/-! ### The fields of a word -/

/-- The fields of the word of four fields (R83, R95). -/
@[simp] theorem fields_commandWord (src align : BitVec 2) (color : Color) (opc : Byte) :
    opcField (commandWord src align color opc) = opc ∧ colorField (commandWord src align color opc) = color ∧
    alignField (commandWord src align color opc) = align ∧ srcField (commandWord src align color opc) = src ∧
    rsvdField (commandWord src align color opc) = 0 := by
  refine ⟨?_, ?_, ?_, ?_, ?_⟩ <;>
    simp (disch := decide) only [opcField, colorField, alignField, srcField, rsvdField, commandWord,
      BitVec.extractLsb'_append_eq_of_le, BitVec.extractLsb'_append_eq_of_add_le, Nat.reduceSub,
      BitVec.extractLsb'_eq_self, BitVec.ofNat_eq_ofNat]

/-- A field of `len` bits is the word moved down to it, under a mask of `len` ones. -/
theorem toNat_extractLsb'_eq_mask (w : Word) (start : Nat) {len m : Nat} (hm : m = 2 ^ len - 1) (h : len ≤ 32) :
    (w.extractLsb' start len).toNat = ((w >>> start) &&& BitVec.ofNat 32 m).toNat := by
  have hpow : 2 ^ len ≤ 2 ^ 32 := Nat.pow_le_pow_right (by decide) h
  have hlt : 2 ^ len - 1 < 2 ^ 32 := by omega
  rw [hm, BitVec.extractLsb'_toNat, BitVec.toNat_and, BitVec.toNat_ushiftRight, BitVec.toNat_ofNat,
    Nat.mod_eq_of_lt hlt, Nat.and_two_pow_sub_one_eq_mod]

/-- The opcode is the word's low byte. -/
theorem opcField_toNat (w : Word) : (opcField w).toNat = (w &&& 0xFF#32).toNat := by
  have h := toNat_extractLsb'_eq_mask w 0 (len := 8) (m := 0xFF) (by decide) (by decide)
  rwa [BitVec.ushiftRight_zero] at h

/-- The reserved bits are those above bit 13. -/
theorem rsvdField_eq_zero_iff (w : Word) : rsvdField w = 0 ↔ w >>> 14 = 0#32 := by
  have hlt : w.toNat >>> 14 < 2 ^ 18 := by
    rw [Nat.shiftRight_eq_div_pow]
    omega
  rw [← BitVec.toNat_inj, ← BitVec.toNat_inj, rsvdField, BitVec.extractLsb'_toNat, BitVec.toNat_ushiftRight,
    Nat.mod_eq_of_lt hlt]
  rfl

/-- The reserved alignment is the field value 3 (R86). -/
theorem Align.ofField_eq_reserved_iff (w : Word) :
    Align.ofField (alignField w) = .reserved ↔ (w >>> 10) &&& 3#32 = 3#32 := by
  rw [← BitVec.toNat_inj, ← toNat_extractLsb'_eq_mask w 10 (len := 2) (by decide) (by decide), ← alignField]
  generalize alignField w = f
  revert f
  decide

/-- The reserved pixel source is the field value 3 (R87). -/
theorem Src.ofField_eq_reserved_iff (w : Word) :
    Src.ofField (srcField w) = .reserved ↔ (w >>> 12) &&& 3#32 = 3#32 := by
  rw [← BitVec.toNat_inj, ← toNat_extractLsb'_eq_mask w 12 (len := 2) (by decide) (by decide), ← srcField]
  generalize srcField w = f
  revert f
  decide

@[simp] theorem Align.ofField_field (a : Align) : Align.ofField a.field = a := by cases a <;> rfl

@[simp] theorem Src.ofField_field (s : Src) : Src.ofField s.field = s := by cases s <;> rfl

@[simp] theorem Align.field_ofField (f : BitVec 2) : (Align.ofField f).field = f := by
  revert f
  decide

@[simp] theorem Src.field_ofField (f : BitVec 2) : (Src.ofField f).field = f := by
  revert f
  decide

/-- A word without reserved bits is the word of its four fields (R83). -/
theorem commandWord_fields {w : Word} (h : rsvdField w = 0) :
    commandWord (srcField w) (alignField w) (colorField w) (opcField w) = w := by
  rw [commandWord, show 0#18 = rsvdField w from h.symm, rsvdField, srcField, alignField, colorField, opcField]
  rw [BitVec.extractLsb'_append_extractLsb'_eq_extractLsb' (show 14 = 12 + 2 from rfl),
    BitVec.extractLsb'_append_extractLsb'_eq_extractLsb' (show 12 = 10 + 2 from rfl),
    BitVec.extractLsb'_append_extractLsb'_eq_extractLsb' (show 10 = 8 + 2 from rfl),
    BitVec.extractLsb'_append_extractLsb'_eq_extractLsb' (show 8 = 0 + 8 from rfl)]
  exact BitVec.extractLsb'_eq_self

/-- Of a word without reserved bits the mask of R88 keeps only the opcode. -/
theorem commandWord_and_mask (src align : BitVec 2) (color : Color) (opc : Byte) :
    commandWord src align color opc &&& 0xFFFFC0FF#32 = opc.setWidth 32 := by
  have h : (0#18 ++ src ++ align ++ color ++ opc) &&& (0x3FFFF#18 ++ 0#2 ++ 0#2 ++ 0#2 ++ BitVec.allOnes 8) =
      (0#18 ++ 0#2 ++ 0#2 ++ 0#2) ++ opc := by
    simp only [BitVec.and_append, BitVec.zero_and, BitVec.and_zero, BitVec.and_allOnes]
  rw [BitVec.setWidth_eq_append (by decide)]
  exact h

/-! ### The command a word names -/

/-- The command that the opcode of a word names, with the word's fields, before the checks of R89. -/
def wordInstr (w : Word) : Option Instr :=
  instrOfOpcode (opcField w) (colorField w) (Align.ofField (alignField w)) (Src.ofField (srcField w))

/-- The fields that a command uses are those of the word (R88). -/
def Instr.FieldsOf (w : Word) : Instr → Prop
  | .setBg color | .fillDisplay color | .drawFilledRect color => color = colorField w
  | .drawBitmap color src => color = colorField w ∧ src = Src.ofField (srcField w)
  | .drawText color align => color = colorField w ∧ align = Align.ofField (alignField w)
  | .nop | .start | .stop | .update | .select | .unselect | .sendCmd | .sendData | .setAddress | .panelInit => True
  | .setFont | .getTextWidth => True

/-- The opcodes of R88. -/
def assignedOpcodes : List Nat :=
  [0x00, 0x10, 0x11, 0x12, 0x13, 0x14, 0x15, 0x16, 0x17, 0x20, 0x21, 0x22, 0x23, 0x24, 0x25, 0x26, 0x27]

/-- An opcode names no command exactly when it is not assigned. -/
theorem wordInstr_eq_none_iff (w : Word) : wordInstr w = none ↔ (opcField w).toNat ∉ assignedOpcodes := by
  rw [wordInstr, instrOfOpcode]
  split
  case h_18 =>
    simp only [assignedOpcodes, List.mem_cons, List.not_mem_nil, or_false, not_or, true_iff]
    trivial
  all_goals simp [assignedOpcodes, *]

/-- A word names the commands of its opcode and its fields. -/
theorem wordInstr_eq_some_iff (w : Word) (i : Instr) : wordInstr w = some i ↔ i.opcode = opcField w ∧ i.FieldsOf w := by
  constructor
  · intro h
    rw [wordInstr, instrOfOpcode] at h
    split at h
    case h_18 => cases h
    all_goals
      rename_i hopc
      injection h with h
      subst h
      refine ⟨BitVec.eq_of_toNat_eq hopc.symm, ?_⟩
      simp [Instr.FieldsOf]
  · rintro ⟨hopc, hf⟩
    rw [wordInstr, ← hopc]
    cases i with
    | setBg color | fillDisplay color | drawFilledRect color => rw [show color = _ from hf]; rfl
    | drawBitmap color src => rw [hf.1, hf.2]; rfl
    | drawText color align => rw [hf.1, hf.2]; rfl
    | _ => rfl

/-! ### The checks of the decoder -/

/-- The fields of a command pass the checks exactly when it is well formed (R89). -/
theorem checkFields_eq_ok_iff (i j : Instr) : checkFields i = .ok j ↔ i = j ∧ i.wellFormed = true := by
  cases i with
  | drawBitmap color src => cases src <;> simp [checkFields, Instr.wellFormed]
  | drawText color align => cases align <;> simp [checkFields, Instr.wellFormed]
  | _ => simp [checkFields, Instr.wellFormed]

/-- R89, item 1. -/
theorem decode_of_wordInstr_none {w : Word} (h : wordInstr w = none) : decode w = .error .unassignedOpcode := by
  rw [decode, ← wordInstr, h]

/-- R89, item 2. -/
theorem decode_of_reserved {w : Word} {i : Instr} (h : wordInstr w = some i) (hr : rsvdField w ≠ 0) :
    decode w = .error .reservedBits := by
  rw [decode, ← wordInstr, h]
  exact if_pos hr

/-- R89, items 3 and 4. -/
theorem decode_of_unreserved {w : Word} {i : Instr} (h : wordInstr w = some i) (hr : rsvdField w = 0) :
    decode w = checkFields i := by
  rw [decode, ← wordInstr, h]
  exact if_neg (not_not.2 hr)

/-- The words that decode to a command (R88, R89). -/
theorem decode_eq_ok_iff (w : Word) (i : Instr) :
    decode w = .ok i ↔ wordInstr w = some i ∧ rsvdField w = 0 ∧ i.wellFormed = true := by
  constructor
  · intro h
    cases hw : wordInstr w with
    | none => simp [decode_of_wordInstr_none hw] at h
    | some j =>
      by_cases hr : rsvdField w = 0
      · rw [decode_of_unreserved hw hr, checkFields_eq_ok_iff] at h
        obtain ⟨rfl, hwf⟩ := h
        exact ⟨rfl, hr, hwf⟩
      · simp [decode_of_reserved hw hr] at h
  · rintro ⟨hw, hr, hwf⟩
    rw [decode_of_unreserved hw hr, checkFields_eq_ok_iff]
    exact ⟨rfl, hwf⟩

/-- The word of a command has its opcode, no reserved bits, and the fields the command uses. -/
theorem encode_fields (i : Instr) :
    opcField (encode i) = i.opcode ∧ rsvdField (encode i) = 0 ∧ i.FieldsOf (encode i) := by
  cases i <;> simp [encode, Instr.FieldsOf]

/-- Settles O2: the word of a command names it by `encode_fields`, and a well-formed command passes the checks. -/
theorem decodeInvertsEncode : Obligations.DecodeInvertsEncode := by
  intro i hwf
  obtain ⟨hopc, hrsvd, hf⟩ := encode_fields i
  exact (decode_eq_ok_iff _ _).2 ⟨(wordInstr_eq_some_iff _ _).2 ⟨hopc.symm, hf⟩, hrsvd, hwf⟩

/-- Settles O3: by `decode_eq_ok_iff` the word has no reserved bits, so that it is the word of its fields. -/
theorem decodedWordMatchesOpcode : Obligations.DecodedWordMatchesOpcode := by
  intro w i h
  obtain ⟨hw, hrsvd, hwf⟩ := (decode_eq_ok_iff w i).1 h
  obtain ⟨hopc, hf⟩ := (wordInstr_eq_some_iff w i).1 hw
  refine ⟨hwf, ?mask, ?color, ?bitmap, ?text⟩
  case mask =>
    rw [← commandWord_fields hrsvd, commandWord_and_mask, hopc]
  case color =>
    rintro c (rfl | rfl | rfl) <;> exact hf
  case bitmap =>
    rintro c src rfl
    obtain ⟨hc, hsrc⟩ := hf
    exact ⟨hc, by rw [hsrc, Src.field_ofField, srcField]⟩
  case text =>
    rintro c align rfl
    obtain ⟨hc, halign⟩ := hf
    exact ⟨hc, by rw [halign, Align.field_ofField, alignField]⟩

/-- The checks of the fields of a word without reserved bits, in their order (R89, items 3 and 4). -/
theorem decode_unreserved_in_order {w : Word} {i : Instr} (hw : wordInstr w = some i) (hr : rsvdField w = 0) :
    if (opcField w).toNat = 0x23 ∧ Src.ofField (srcField w) = .reserved then decode w = .error .reservedSrc
    else if (opcField w).toNat = 0x27 ∧ Align.ofField (alignField w) = .reserved then decode w = .error .reservedAlign
    else ∃ j, decode w = .ok j := by
  obtain ⟨hopc, hf⟩ := (wordInstr_eq_some_iff w i).1 hw
  rw [decode_of_unreserved hw hr, ← hopc]
  cases i with
  | drawBitmap color src =>
    obtain ⟨-, hsrc⟩ := hf
    rw [← hsrc]
    cases src <;> simp [checkFields, Instr.opcode]
  | drawText color align =>
    obtain ⟨-, halign⟩ := hf
    rw [← halign]
    cases align <;> simp [checkFields, Instr.opcode]
  | _ => simp [checkFields, Instr.opcode]

/-- Settles O4: an opcode names a command or none, and the checks of one that it names are those of
`decode_unreserved_in_order`. -/
theorem illegalWordsInOrder : Obligations.IllegalWordsInOrder := by
  refine ⟨fun w => ?_, rfl, rfl, rfl, rfl⟩
  simp only [← opcField_toNat, ← rsvdField_eq_zero_iff, ne_eq, ← Src.ofField_eq_reserved_iff,
    ← Align.ofField_eq_reserved_iff]
  split
  case isTrue hno => exact decode_of_wordInstr_none ((wordInstr_eq_none_iff w).2 hno)
  case isFalse hopc =>
    obtain ⟨i, hw⟩ := Option.ne_none_iff_exists'.1 (mt (wordInstr_eq_none_iff w).1 hopc)
    split
    case isTrue hr => exact decode_of_reserved hw hr
    case isFalse hr => exact decode_unreserved_in_order hw (not_not.1 hr)

/-- The fields of two words that a command uses are the same when those are that its opcode uses (R88). -/
theorem Instr.fieldsOf_congr {w v : Word} (i : Instr)
    (hc : i.opcode.toNat ∈ [0x21, 0x22, 0x23, 0x24, 0x27] → colorField w = colorField v)
    (hs : i.opcode.toNat = 0x23 → srcField w = srcField v)
    (ha : i.opcode.toNat = 0x27 → alignField w = alignField v) : i.FieldsOf w ↔ i.FieldsOf v := by
  cases i with
  | setBg _ | fillDisplay _ | drawFilledRect _ => rw [FieldsOf, FieldsOf, hc (by simp [opcode])]
  | drawBitmap _ _ => rw [FieldsOf, FieldsOf, hc (by simp [opcode]), hs rfl]
  | drawText _ _ => rw [FieldsOf, FieldsOf, hc (by simp [opcode]), ha rfl]
  | _ => exact Iff.rfl

/-- Words of one opcode with the same reserved bits decode alike if the fields that the opcode uses are the same. -/
theorem decode_congr {w v : Word} (hopc : opcField w = opcField v) (hrsvd : rsvdField w = rsvdField v)
    (hc : (opcField w).toNat ∈ [0x21, 0x22, 0x23, 0x24, 0x27] → colorField w = colorField v)
    (hs : (opcField w).toNat = 0x23 → srcField w = srcField v)
    (ha : (opcField w).toNat = 0x27 → alignField w = alignField v) : decode w = decode v := by
  have hi : wordInstr w = wordInstr v := by
    ext i
    rw [wordInstr_eq_some_iff, wordInstr_eq_some_iff, ← hopc]
    refine and_congr_right fun hiopc => i.fieldsOf_congr ?_ ?_ ?_ <;> rwa [hiopc]
  rw [decode, decode, ← wordInstr, ← wordInstr, hi, hrsvd]

/-- Settles O5: each clause by `decode_congr`, whose other fields its opcode rules out. -/
theorem unusedFieldsAreIgnored : Obligations.UnusedFieldsAreIgnored := by
  intro w v hopc hrsvd opc
  have hdec := decode_congr hopc hrsvd
  rw [show (opcField w).toNat = opc from rfl] at hdec
  clear_value opc
  refine ⟨fun hno => ?none, fun hcolor hc => ?color, fun hopc hc hs => ?bitmap, fun hopc hc ha => ?text⟩
  case none => exact hdec (absurd · hno) (by rintro rfl; simp at hno) (by rintro rfl; simp at hno)
  case color => exact hdec (fun _ => hc) (by rintro rfl; simp at hcolor) (by rintro rfl; simp at hcolor)
  case bitmap => exact hdec (fun _ => hc) (fun _ => hs) (by omega)
  case text => exact hdec (fun _ => hc) (by omega) (fun _ => ha)

/-- Settles O1: the decoder computes on each word. -/
theorem opcodeMapWordsDecode : Obligations.OpcodeMapWordsDecode := by
  unfold Obligations.OpcodeMapWordsDecode
  decide

end Sys2Proof

namespace Sys2Proof.Machine

/-! ### The host's next action -/

/-- On a block that is not in a poll loop a step is the host's next action. -/
theorem step_takeAction {s : State} {a : HostAction} {rest : List HostAction} (hp : s.poll = false)
    (hh : s.host = a :: rest) : step s = takeAction a { s with host := rest } := by
  rw [step, if_neg (Bool.eq_false_iff.1 hp), takeHost, hh]

/-! ### `WAITIDLE` -/

/-- Only a reset is the platform's. -/
theorem HostAction.isReset_iff (a : HostAction) : a.isReset = true ↔ a = .reset := by
  cases a <;> simp [HostAction.isReset]

/-- A stopped host program goes on with the next reset, or not at all (R94, log 16). -/
theorem afterStop_head (rest : List HostAction) : afterStop rest = [] ∨ (afterStop rest).head? = some .reset := by
  have hhead := List.head?_dropWhile_not (fun a : HostAction => !a.isReset) rest
  rw [← afterStop] at hhead
  cases h : afterStop rest with
  | nil => exact .inl rfl
  | cons a l =>
    rw [h] at hhead
    exact .inr (congrArg some ((HostAction.isReset_iff a).1 (by simpa using hhead)))

/-- What a stopped host program leaves out has no reset in it. -/
theorem afterStop_dropped (rest : List HostAction) :
    ∃ dropped, rest = dropped ++ afterStop rest ∧ .reset ∉ dropped := by
  refine ⟨_, List.takeWhile_append_dropWhile.symm, fun hmem => ?_⟩
  have hkept := List.mem_takeWhile_imp hmem
  simp [HostAction.isReset] at hkept

/-- A pass of the poll loop leaves a waiting host where it is. -/
theorem pollTurn_host {s : State} (hq : s.quiet = true) : (pollTurn s).host = s.host := by
  rw [pollTurn, pollOnce_quiet hq]
  split
  · rfl
  · rw [afterPoll, hostTurn_quiet (by exact hq)]
    rfl

/-- Settles O8: `takeAction` splits on `BUSY` and `FAULT`; under a poll the step is `pollTurn_host`. -/
theorem waitIdleWaitsOrStops : Obligations.WaitIdleWaitsOrStops := by
  intro s rest hh
  refine ⟨fun hp hb hf => ?idle,
    fun hp hb hf => ⟨afterStop rest, ?halted, afterStop_head rest, afterStop_dropped rest⟩,
    fun hp => ⟨pollTurn s, ?polling, pollTurn_host (by rw [State.quiet, hh])⟩⟩
  case idle =>
    rw [step_takeAction hp hh, takeAction, if_neg (Bool.eq_false_iff.1 hb), if_neg (Bool.eq_false_iff.1 hf)]
  case halted => rw [step_takeAction hp hh, takeAction, if_neg (Bool.eq_false_iff.1 hb), if_pos hf]
  case polling => rw [step, if_pos hp]

/-! ### Register accesses -/

/-- A register read at an aligned offset: taken at once on an idle or halted block, and before the next sample under a
poll (R82). -/
theorem step_read {s : State} {off : BitVec 7} {rest : List HostAction} (ha : off.toNat % 4 = 0)
    (hh : s.host = .read off 4 :: rest) :
    (s.poll = false → step s = .next (hostRead off { s with host := rest })) ∧
    (s.poll = true → step s = step (hostRead off { s with host := rest })) := by
  have hok : accessOk off 4 = true := (accessOk_iff off 4).2 ⟨rfl, ha⟩
  refine ⟨fun hp => ?_, fun hp => step_eq_of_hostTurn hp hp rfl ?_⟩
  · rw [step_takeAction hp hh, takeAction, if_pos hok]
  · rw [hostTurn, hh, turnFrom, if_pos hok]
    exact (turnFrom_host overrun rest rest (hostRead off s)).symm

/-- The argument register `Ai` stands at `0x40 + 4 * i` and nowhere else (R80). -/
theorem argAt_eq_some_iff (off : BitVec 7) (i : Fin 7) : argAt off = some i ↔ off.toNat = 0x40 + 4 * i.val := by
  constructor
  · intro h
    rw [argAt] at h
    split at h
    case h_8 => cases h
    all_goals
      injection h with h
      subst h
      assumption
  · intro h
    rw [← argAt_arg i, ← h, BitVec.ofNat_toNat, BitVec.setWidth_eq]

/-- The register at each offset (R80). -/
theorem readReg_eq (off : BitVec 7) (s : State) : readReg off s =
    if off = 0x04 then statusWord s else if off = 0x08 then s.faultInfo else if off = 0x0C then s.faultAddr
    else if off = 0x10 then s.result else if off = 0x14 then BitVec.ofNat 32 s.params.sources
    else if off = 0x18 then BitVec.ofNat 32 s.params.gates else if off = 0x1C then s.panelW.setWidth 32
    else if off = 0x20 then s.panelH.setWidth 32 else if off = 0x24 then s.bg.setWidth 32
    else if off = 0x28 then s.fontBase else if off = 0x40 then s.args[(0 : Fin 7)]
    else if off = 0x44 then s.args[(1 : Fin 7)] else if off = 0x48 then s.args[(2 : Fin 7)]
    else if off = 0x4C then s.args[(3 : Fin 7)] else if off = 0x50 then s.args[(4 : Fin 7)]
    else if off = 0x54 then s.args[(5 : Fin 7)] else if off = 0x58 then s.args[(6 : Fin 7)] else 0 := by
  have hoff (n : BitVec 7) : off = n ↔ off.toNat = n.toNat := BitVec.toNat_inj.symm
  rw [readReg]
  simp only [hoff]
  split
  case h_12 =>
    cases ha : argAt off with
    | some i =>
      have hi := (argAt_eq_some_iff off i).1 ha
      fin_cases i <;> simp [hi]
    | none =>
      have hno (i : Fin 7) : off.toNat ≠ 0x40 + 4 * i.val := fun h => by simp [(argAt_eq_some_iff off i).2 h] at ha
      simp only [ne_eq, Fin.forall_fin_succ, Fin.isValue, Fin.coe_ofNat_eq_mod, Nat.zero_mod, mul_zero, add_zero,
        Fin.val_succ, zero_add, mul_one, Nat.reduceAdd, Nat.reduceMul, Fin.val_eq_zero, forall_const] at hno
      simp only [imp_false] at *
      simp [*]
  all_goals simp [*]

/-- Settles O14: the read is taken by `step_read`, and the value is that of `readReg` at the offset (R80). -/
theorem registerReadsReturnTheRegisters : Obligations.RegisterReadsReturnTheRegisters := by
  intro s off rest ha hh
  have hread := step_read ha hh
  have hval : readReg off { s with host := rest } = readReg off s := rfl
  rw [hostRead, hval, readReg_eq] at hread
  exact hread

/-- Settles O15: `accessOk` is what `takeAction` asks of a write and of a read. -/
theorem badAccessesAreRefused : Obligations.BadAccessesAreRefused := by
  intro s off size v rest hp hbad
  have hno : ¬accessOk off size = true := by rwa [accessOk_iff, not_and_or]
  refine ⟨fun hh => ?write, fun hh => ?read⟩
  case write => rw [step_takeAction hp hh, takeAction, if_neg hno]
  case read => rw [step_takeAction hp hh, takeAction, if_neg hno]

/-! ### The solid bitmap -/

/-- Settles O40: the pixel source of `SOLID` is the one a filled rectangle has. -/
theorem solidBitmapIsFilledRect : Obligations.SolidBitmapIsFilledRect := by
  intro c s
  rw [exec, exec, execDrawBitmap, execDrawFilledRect, pixelSource]

end Sys2Proof.Machine
end

section
/-! Proofs of the statements of the family `40_controller.md`: the bracket discipline of every step, and what each
controller command does under a host that waits. -/

namespace Sys2Proof.Machine

/-! ### The bracket discipline of a step -/

/-- The events from `s` to `t` keep the bracket discipline from where the bracket stood in `s` (R122): `place` is where it
stands before fault entry, if there was one, sends `close`. -/
def KeepsBrackets (s t : State) : Prop :=
  ∃ es close place, t.trace = s.trace ++ (es ++ close) ∧ brackets s.params.sharedBus s.bracket es = some place ∧
    (t.fault = false → close = [] ∧ place = t.bracket) ∧
    (t.fault = true → t.sel = false ∧
      ((close = [] ∧ (place = .closed ∨ place = .acquired)) ∨
        (close = (if s.params.sharedBus then [.fin, .rel] else [.fin]) ∧ place ≠ .acquired)))

/-- Between two commands the place of a block is where its bracket stands. -/
theorem Place.bracket_of (s : State) : (Place.of s.sel).bracket = s.bracket := by
  rw [State.bracket]
  cases s.sel <;> rfl

/-- Where fault entry finds the bracket, by `Sel`: with `Sel` clear it has not been opened, with `Sel` set it is past `ACQ`. -/
theorem Place.bracket_of_sel {q : Place} (hq : q ≠ .begun) :
    (q.sel = false → q.bracket = .closed ∨ q.bracket = .acquired) ∧ (q.sel = true → q.bracket ≠ .acquired) := by
  cases q with
  | begun => exact absurd rfl hq
  | idle | acquired | opened | ended | released => decide

/-- The host has no reset still to do. -/
theorem State.reset_not_mem {s : State} (h : s.noReset = true) : .reset ∉ s.host := fun hm => by
  have hall := List.all_eq_true.1 h _ hm
  simp [HostAction.isReset] at hall

/-- A command that does not complete, short of a reset: fault entry closes the bracket by `Sel` (R185). -/
theorem Ended.keepsBrackets {s t : State} (h : Ended (.of s.sel) s t) (hr : .reset ∉ s.host) : KeepsBrackets s t := by
  cases h with
  | reset hm => exact absurd hm hr
  | @fault u es q c d v a hq hf hb htr _ _ =>
    rw [Place.bracket_of] at hb
    obtain ⟨hclear, hset⟩ := Place.bracket_of_sel hq
    refine ⟨es, _, q.bracket, htr, hb, nofun, fun _ => ⟨rfl, ?_⟩⟩
    cases hs : q.sel with
    | false => exact .inl ⟨rfl, hclear hs⟩
    | true => exact .inr ⟨rfl, hset hs⟩

/-- A block that is not halted and stands between two commands again. -/
theorem Reaches.keepsBrackets {s u t : State} (h : Reaches (.of s.sel) (.of u.sel) s u) (hf : s.fault = false)
    (htrace : t.trace = u.trace) (hsel : t.sel = u.sel) (hfault : t.fault = u.fault) : KeepsBrackets s t := by
  obtain ⟨es, hes, hb⟩ := h.events
  have hrun : t.fault = false := hfault.trans (h.follows.fault.trans hf)
  have hplace : u.bracket = t.bracket := by rw [State.bracket, State.bracket, hsel]
  rw [Place.bracket_of, Place.bracket_of, hplace] at hb
  exact ⟨es, [], t.bracket, by rw [htrace, hes, List.append_nil], hb, fun _ => ⟨rfl, rfl⟩, by simp [hrun]⟩

/-- The host's actions emit nothing and leave `Sel` alone; a halted block has no bracket open (R185). -/
theorem Still.keepsBrackets {s t : State} (h : Still s t) (hi : Inv s) : KeepsBrackets s t := by
  have hplace : s.bracket = t.bracket := by rw [State.bracket, State.bracket, h.sel]
  refine ⟨[], [], s.bracket, by simp [h.trace], rfl, fun _ => ⟨rfl, hplace⟩, fun hf => ?_⟩
  have hsel : s.sel = false := (hi.halted (h.fault.symm.trans hf)).2
  exact ⟨h.sel.trans hsel, .inl ⟨rfl, .inl (by simp [State.bracket, hsel])⟩⟩

/-- Completing leaves `Sel` and `FAULT` alone. -/
theorem Completes.sel_fault {i : Instr} {s u t : State} (h : Completes i s u t) : t.sel = u.sel ∧ t.fault = u.fault := by
  cases i with
  | update => obtain ⟨-, rfl | rfl⟩ := h <;> exact ⟨rfl, rfl⟩
  | panelInit => obtain ⟨-, -, -, -, rfl⟩ := h; exact ⟨rfl, rfl⟩
  | setFont => obtain ⟨-, -, rfl⟩ := h; exact ⟨rfl, rfl⟩
  | getTextWidth => obtain ⟨-, n, rfl⟩ := h; exact ⟨rfl, rfl⟩
  | nop | start | stop | select | unselect | sendCmd | sendData | setAddress | setBg _ | fillDisplay _ | drawBitmap _ _
  | drawFilledRect _ | drawText _ _ => obtain ⟨-, rfl⟩ := h; exact ⟨rfl, rfl⟩

/-- A command keeps the discipline, however it ends short of a reset. -/
theorem exec_keepsBrackets {i : Instr} {s t : State} (hf : s.fault = false) (hr : .reset ∉ s.host) (h : exec i s = .next t) :
    KeepsBrackets s t := by
  rcases exec_outcome h with he | ⟨u, hu, hc⟩
  · exact he.keepsBrackets hr
  · exact hu.keepsBrackets hf hc.trace_params.1 hc.sel_fault.1 hc.sel_fault.2

/-- A pass of the poll loop keeps the discipline, however it ends short of a reset. -/
theorem pollTurn_keepsBrackets {s : State} (hf : s.fault = false) (hr : .reset ∉ s.host) : KeepsBrackets s (pollTurn s) := by
  rcases pollTurn_outcome s with he | ⟨u, hu, ht⟩
  · exact he.keepsBrackets hr
  · have hsel : u.sel = s.sel := hu.sel.trans (Place.of_sel _)
    have hu : Reaches (.of s.sel) (.of u.sel) s u := hsel.symm ▸ hu
    rcases ht with ht | ht <;> rw [ht] <;> exact hu.keepsBrackets hf rfl rfl rfl

/-- Settles O54: a step is one of `Stepped`, and each of them keeps the discipline from where the bracket stood; latching a
command moves neither the bracket nor the trace. -/
theorem stepsKeepTheBracketDiscipline : Obligations.StepsKeepTheBracketDiscipline := by
  intro s t hi hnr hstep
  have hr := State.reset_not_mem hnr
  have hrest {a : HostAction} {rest : List HostAction} (hh : s.host = a :: rest) : .reset ∉ rest := fun hm =>
    hr (hh ▸ List.mem_cons_of_mem a hm)
  cases step_stepped hstep with
  | poll hp =>
    have hf : s.fault = false := by
      by_contra hf
      have hb := (hi.halted (by simpa using hf)).1
      simp [hi.inPoll, hp] at hb
    exact pollTurn_keepsBrackets hf hr
  | host _ hs => exact hs.keepsBrackets hi
  | reset _ hh => exact absurd (hh ▸ List.mem_cons_self) hr
  | overrun => exact (overrun_ended _ s).keepsBrackets hr
  | @illegal w rest k _ _ _ hh =>
    exact (raiseIllegal_ended k (latch w { s with host := rest })).keepsBrackets (hrest hh)
  | @command w rest i _ _ hf _ hh _ hx =>
    exact exec_keepsBrackets (s := latch w { s with host := rest }) hf (hrest hh) hx

/-! ### Commands under a host that waits -/

/-- A command that sends `es` and writes no register completes (R183). -/
theorem runCommand_sends {own needs : Bool} {body : Act Unit} {s : State} {es : List Event} (hq : s.quiet = true)
    (hown : (own && s.sel) = false) (hneeds : (needs && !s.panelInit) = false) (hbody : body s = .ok () (s.emitted es)) :
    runCommand own needs body noWrites s = s.completed es :=
  runCommand_quiet hown hneeds hbody hq nofun

/-- A command that opens its own bracket is not accepted inside one (R183). -/
theorem runCommand_ownBracket {α : Type} {needs : Bool} {body : Act α} {writes : α → List (State → State)} {s : State}
    (hq : s.quiet = true) (hs : s.sel = true) : runCommand true needs body writes s = faultEntry .bracket 3 0 none s := by
  have hrefused : acceptance true needs s = .error () (faultEntry .bracket 3 0 none s) := by
    rw [acceptance_eq, hs]
    exact raise_quiet hq _ _ _
  rw [runCommand_eq, act_bind_error _ hrefused]

/-- `Emit(e)` after the events `es`. -/
theorem emit_emitted {s : State} (hq : s.quiet = true) (es : List Event) (e : Event) :
    emit e (s.emitted es) = .ok () (s.emitted (es ++ [e])) := by
  rw [emit_quiet (by exact hq), emitted_append]

/-- `Frames(F)` after the events `es` (R93). -/
theorem sendFrames_emitted {s : State} (hq : s.quiet = true) (es : List Event) (fs : List Frame) :
    sendFrames fs (s.emitted es) = .ok () (s.emitted (es ++ frameEvents fs)) := by
  rw [sendFrames_quiet _ (by exact hq), emitted_append]

/-- `Unselect()` after the events `es` of a bracket: `Sel` is clear again (R102, R103). -/
theorem unselect_emitted {s : State} (hq : s.quiet = true) (hs : s.sel = false) (es : List Event) :
    unselect ((openBracket s).emitted es) = .ok () (s.emitted (openEvents s.params ++ es ++ closeEvents s.params)) := by
  rw [unselect_quiet (by exact hq)]
  obtain ⟨_, _, _, sel, _, _, _, _, _, _, _, _, _, _, _, _, _, _, _, _, _, _, _, _, _, _, _, _, _, _, _, _⟩ := s
  obtain rfl : sel = false := hs
  simp [closeBracket, openBracket, State.emitted]

/-! ### START, STOP and UPDATE -/

/-- The steps of START (R105). -/
theorem startBody_quiet {s : State} (hq : s.quiet = true) (hs : s.sel = false) :
    startBody s = .ok () (s.emitted (startEvents s.params)) := by
  have hx : (s.emitted [.xon]).quiet = true := hq
  have hb : (openBracket (s.emitted [.xon])).quiet = true := hq
  have hs' : (s.emitted [.xon]).sel = false := hs
  rw [startBody, peek_bind, act_bind_ok _ (emit_quiet hq _), act_bind_ok _ (select_quiet hx),
    act_bind_ok _ (emit_quiet hb _), wait, act_bind_ok _ (emit_emitted hb _ _), act_bind_ok _ (emit_emitted hb _ _), wait,
    act_bind_ok _ (emit_emitted hb _ _), act_bind_ok _ (sendFrames_emitted hb _ _),
    act_bind_ok _ (sendFrames_emitted hb _ _), act_bind_ok _ (sendFrames_emitted hb _ _),
    act_bind_ok _ (sendFrames_emitted hb _ _), act_bind_ok _ (sendFrames_emitted hb _ _), unselect_emitted hx hs',
    emitted_append]
  simp [startEvents, frameEvents_append]

/-- Settles O25: the steps of START, then its one register write; the acceptance refuses an open bracket. -/
theorem startCompletes : Obligations.StartCompletes := by
  intro s hq
  refine ⟨fun hs => ?closed, fun hs => ?opened⟩
  case closed =>
    have hrun := runCommand_quiet (own := true) (needs := false) (writes := fun _ => [fun t => { t with cstate := .started }])
      (by simp [hs]) (by simp) (startBody_quiet hq hs) hq (by simp)
    exact congrArg Host.Outcome.next hrun
  case opened => exact congrArg Host.Outcome.next (runCommand_ownBracket hq hs)

/-- The steps of STOP (R107). -/
theorem stopBody_quiet {s : State} (hq : s.quiet = true) (hs : s.sel = false) :
    stopBody s = .ok () (s.emitted (stopEvents s.params)) := by
  have hb : (openBracket s).quiet = true := hq
  rw [stopBody, peek_bind, act_bind_ok _ (select_quiet hq), act_bind_ok _ (sendFrames_quiet _ hb),
    act_bind_ok _ (sendFrames_emitted hb _ _), act_bind_ok _ (unselect_emitted hq hs _), emit_emitted hq]
  simp [stopEvents, frameEvents_append]

/-- Settles O26: the steps of STOP, then its one register write; the acceptance refuses an open bracket. -/
theorem stopCompletes : Obligations.StopCompletes := by
  intro s hq
  refine ⟨fun hs => ?closed, fun hs => ?opened⟩
  case closed =>
    have hrun := runCommand_quiet (own := true) (needs := false) (writes := fun _ => [fun t => { t with cstate := .stopped }])
      (by simp [hs]) (by simp) (stopBody_quiet hq hs) hq (by simp)
    exact congrArg Host.Outcome.next hrun
  case opened => exact congrArg Host.Outcome.next (runCommand_ownBracket hq hs)

/-- The steps of UPDATE before its poll loop (R106). -/
theorem updateBody_quiet {s : State} (hq : s.quiet = true) (hs : s.sel = false) :
    updateBody s = .ok () (s.emitted (activateEvents s.params)) := by
  have hb : (openBracket s).quiet = true := hq
  rw [updateBody, peek_bind, act_bind_ok _ (select_quiet hq), act_bind_ok _ (sendFrames_quiet _ hb),
    unselect_emitted hq hs, activateEvents]

/-- UPDATE under a host that waits is its activate frames and then a pass of the poll loop (R106). -/
theorem exec_update_quiet {s : State} (hq : s.quiet = true) (hs : s.sel = false) :
    exec .update s = .next (pollTurn { s.emitted (activateEvents s.params) with poll := true }) := by
  rw [exec, execUpdate, act_bind_ok _ (acceptance_ok (by simp [hs]) (by simp)), act_bind_ok _ (updateBody_quiet hq hs),
    update_bind, pollTurn]

/-- A pass of the poll loop under a host that waits: a busy sample and its wait, or the sample that ends it (R106). -/
theorem pollTurn_quiet {s : State} (hq : s.quiet = true) :
    (s.levelAt 0 = s.params.busyActiveLevel →
      pollTurn s = (s.afterLevels 1).emitted [.busy (s.levelAt 0), .dly s.params.pollInterval]) ∧
    (s.levelAt 0 ≠ s.params.busyActiveLevel → pollTurn s = (s.afterLevels 1).completed [.busy (s.levelAt 0)]) := by
  rw [pollTurn, pollOnce_quiet hq]
  refine ⟨fun h => ?_, fun h => ?_⟩
  · rw [if_pos h, afterPoll]
  · rw [if_neg h, afterPoll, hostTurn_quiet (by exact hq), State.completed]

/-- Settles O27: `exec_update_quiet`, and the first pass of the poll loop by `pollTurn_quiet`. -/
theorem updateCompletesOrPolls : Obligations.UpdateCompletesOrPolls := by
  intro s hq hs
  obtain ⟨hbusy, hidle⟩ := pollTurn_quiet (s := { s.emitted (activateEvents s.params) with poll := true }) hq
  rw [exec_update_quiet hq hs]
  refine ⟨fun h => ?_, fun h => ?_⟩
  · rw [hidle h, State.completed, State.completed, ← emitted_append]
    rfl
  · rw [hbusy h, ← emitted_append]
    rfl

/-! ### The poll loop -/

/-- The levels of the busy line after `n` samples. -/
theorem levelAt_afterLevels (s : State) (n k : Nat) : (s.afterLevels n).levelAt k = s.levelAt (n + k) := by
  have hdraws : s.draws + (n - s.busyLine.length) + (k - (s.busyLine.length - n)) = s.draws + (n + k - s.busyLine.length) := by
    omega
  simp [State.levelAt, State.afterLevels, hdraws]

/-- Samples of the busy line in two runs are one run. -/
theorem afterLevels_afterLevels (s : State) (n m : Nat) : (s.afterLevels n).afterLevels m = s.afterLevels (n + m) := by
  have hdraws : s.draws + (n - s.busyLine.length) + (m - (s.busyLine.length - n)) = s.draws + (n + m - s.busyLine.length) := by
    omega
  simp [State.afterLevels, hdraws]

/-- One step after `n` others. -/
theorem runSteps_succ {n : Nat} {s t : State} (h : runSteps n s = .next t) : runSteps (n + 1) s = step t := by
  induction n generalizing s with
  | zero =>
    obtain rfl : s = t := by injection h
    rw [runSteps]
    cases step s <;> rfl
  | succ n ih =>
    rw [runSteps] at h ⊢
    cases hx : step s with
    | next u => rw [hx] at h; exact ih h
    | fault r => rw [hx] at h; cases h
    | refused r => rw [hx] at h; cases h

/-- After `n` busy samples UPDATE is still in its poll loop (R106). -/
theorem runSteps_polling {s : State} (hp : s.poll = true) (hq : s.quiet = true) :
    ∀ n, (∀ k < n, s.levelAt k = s.params.busyActiveLevel) →
      runSteps n s = .next ((s.afterLevels n).emitted (busyEvents s n))
  | 0, _ => by simp [runSteps, State.afterLevels, busyEvents]
  | n + 1, h => by
    have hlevel : ((s.afterLevels n).emitted (busyEvents s n)).levelAt 0 = s.levelAt n := levelAt_afterLevels s n 0
    have hpass := (pollTurn_quiet (s := (s.afterLevels n).emitted (busyEvents s n)) hq).1 (hlevel.trans (h n n.lt_succ_self))
    rw [runSteps_succ (runSteps_polling hp hq n fun k hk => h k (hk.trans n.lt_succ_self)), step, if_pos (by exact hp), hpass,
      hlevel, ← afterLevels_afterLevels, busyEvents, busyEvents, List.range_succ, List.flatMap_append, ← emitted_append]
    rfl

/-- The first sample that is not busy completes UPDATE in its step (R106). -/
theorem runSteps_polled {s : State} (hp : s.poll = true) (hq : s.quiet = true) {n : Nat}
    (h : ∀ k < n, s.levelAt k = s.params.busyActiveLevel) (hn : s.levelAt n ≠ s.params.busyActiveLevel) :
    runSteps (n + 1) s = .next ((s.afterLevels (n + 1)).completed (busyEvents s n ++ [.busy (s.levelAt n)])) := by
  have hlevel : ((s.afterLevels n).emitted (busyEvents s n)).levelAt 0 = s.levelAt n := levelAt_afterLevels s n 0
  have hpass := (pollTurn_quiet (s := (s.afterLevels n).emitted (busyEvents s n)) hq).2 (hlevel.trans_ne hn)
  rw [runSteps_succ (runSteps_polling hp hq n h), step, if_pos (by exact hp), hpass, hlevel, ← afterLevels_afterLevels,
    State.completed, State.completed, ← emitted_append]
  rfl

/-- Settles O28: by `runSteps_polling` and `runSteps_polled`; a line that clears has a first sample that is not busy. -/
theorem pollEndsWhenTheLineClears : Obligations.PollEndsWhenTheLineClears := by
  intro s hp hq
  refine ⟨fun n h => ⟨runSteps_polling hp hq n h, runSteps_polled hp hq h⟩, fun hclears => ?_⟩
  have hfirst : ∀ k < Nat.find hclears, s.levelAt k = s.params.busyActiveLevel := fun k hk =>
    not_not.1 (Nat.find_min hclears hk)
  exact ⟨_, _, runSteps_polled hp hq hfirst (Nat.find_spec hclears), rfl, rfl, rfl⟩

/-! ### The host's own bracket -/

/-- Settles O24: NOP has no steps and no register writes. -/
theorem nopCompletes : Obligations.NopCompletes := by
  refine ⟨rfl, fun s hq => ?_⟩
  have hrun := runCommand_sends (own := false) (needs := false) (body := pure ()) (es := []) hq rfl rfl (by simp)
  exact congrArg Host.Outcome.next hrun

/-- The steps of SELECT by `Sel` (R109). -/
theorem selectBody_eq (s : State) : selectBody s = if s.sel then raise .bracket 0 0 s else select s := by
  rw [selectBody, peek_bind]
  split <;> rfl

/-- The steps of UNSELECT by `Sel` (R110). -/
theorem unselectBody_eq (s : State) : unselectBody s = if s.sel then unselect s else raise .bracket 1 0 s := by
  rw [unselectBody, peek_bind]
  split <;> rfl

/-- Settles O29: SELECT is `Select()` where no bracket is open, UNSELECT is `Unselect()` where one is. -/
theorem hostBracketOpensAndCloses : Obligations.HostBracketOpensAndCloses := by
  intro s hq
  refine ⟨fun hs => ?select, fun hs => ?unselect⟩
  case select =>
    have hbody : selectBody s = .ok () (openBracket s) := by
      rw [selectBody_eq, if_neg (Bool.eq_false_iff.1 hs), select_quiet hq]
    exact congrArg Host.Outcome.next
      (runCommand_quiet (own := false) (needs := false) (writes := noWrites) rfl rfl hbody hq nofun)
  case unselect =>
    have hbody : unselectBody s = .ok () (closeBracket s) := by
      rw [unselectBody_eq, if_pos hs, unselect_quiet hq]
    exact congrArg Host.Outcome.next
      (runCommand_quiet (own := false) (needs := false) (writes := noWrites) rfl rfl hbody hq nofun)

/-- A command of the host's own traffic by `Sel` (R116, R117, R118). -/
theorem needBracket_bind_eq (x : Act Unit) (s : State) :
    (needBracket >>= fun _ => x) s = if s.sel then x s else raise .bracket 2 0 s := by
  rw [needBracket, act_bind, peek_bind]
  cases s.sel with
  | true => rfl
  | false =>
    obtain ⟨t, ht⟩ := raise_error (α := Unit) .bracket 2 0 s
    simp [ht]

/-- With its bracket closed a command of the host's own traffic raises `BRACKET` 2. -/
theorem needBracket_closed {s : State} (hq : s.quiet = true) (hs : s.sel = false) (x : Act Unit) :
    (needBracket >>= fun _ => x) s = .error () (faultEntry .bracket 2 0 none s) := by
  rw [needBracket_bind_eq, if_neg (Bool.eq_false_iff.1 hs), raise_quiet hq]

/-- With its bracket open it goes on. -/
theorem needBracket_open {s : State} (hs : s.sel = true) (x : Act Unit) : (needBracket >>= fun _ => x) s = x s := by
  rw [needBracket_bind_eq, if_pos hs]

/-- Settles O30: the byte operand is sent as it is where a bracket is open. -/
theorem rawBytesAreSent : Obligations.RawBytesAreSent := by
  intro s hq
  refine ⟨fun hs => ⟨?cmd, ?data⟩, fun hs => ⟨?noCmd, ?noData⟩⟩
  case cmd =>
    have hbody : sendCmdBody s = .ok () (s.emitted [.cmd (byteOperand s)]) :=
      (needBracket_open hs _).trans (emit_quiet hq _)
    exact congrArg Host.Outcome.next (runCommand_sends hq rfl rfl hbody)
  case data =>
    have hbody : sendDataBody s = .ok () (s.emitted [.dat (byteOperand s)]) :=
      (needBracket_open hs _).trans (emit_quiet hq _)
    exact congrArg Host.Outcome.next (runCommand_sends hq rfl rfl hbody)
  case noCmd => exact congrArg Host.Outcome.next (runCommand_error rfl rfl (needBracket_closed hq hs _))
  case noData => exact congrArg Host.Outcome.next (runCommand_error rfl rfl (needBracket_closed hq hs _))

/-- Settles O32: each of the three looks at `Sel` before anything else. -/
theorem bracketMisuseFaults : Obligations.BracketMisuseFaults := by
  intro s hq
  refine ⟨fun hs => ?select, fun hs => ⟨?unselect, ?setAddress⟩⟩
  case select =>
    have hbody : selectBody s = .error () (faultEntry .bracket 0 0 none s) := by
      rw [selectBody_eq, if_pos hs, raise_quiet hq]
    exact congrArg Host.Outcome.next (runCommand_error rfl rfl hbody)
  case unselect =>
    have hbody : unselectBody s = .error () (faultEntry .bracket 1 0 none s) := by
      rw [unselectBody_eq, if_neg (Bool.eq_false_iff.1 hs), raise_quiet hq]
    exact congrArg Host.Outcome.next (runCommand_error rfl rfl hbody)
  case setAddress => exact congrArg Host.Outcome.next (runCommand_error rfl rfl (needBracket_closed hq hs _))

/-! ### SET_ADDRESS -/

/-- The window of the operands of SET_ADDRESS (R116). -/
def operandWindow (s : State) : Window := ⟨coord s 0, coord s 1, coord s 2, coord s 3⟩

/-- Inside the host's bracket the steps of SET_ADDRESS are those of the window of its operands (R116). -/
theorem setAddressBody_open {s : State} (hs : s.sel = true) :
    setAddressBody s = setAddressInternal (operandWindow s).xs (operandWindow s).xe (operandWindow s).ys (operandWindow s).ye s :=
  needBracket_open hs _

/-- Settles O31: operands in range are a window in range, and its frames are the events. -/
theorem setAddressSendsTheWindow : Obligations.SetAddressSendsTheWindow := by
  intro s hq hs hxs hxe hys hye
  have hw : (operandWindow s).inRange s.params = true := by
    have hx : s.params.xbytes = s.params.sources / 4 := rfl
    simp only [Window.inRange_iff, operandWindow, hx]
    omega
  have hbody := (setAddressBody_open hs).trans (setAddressInternal_quiet hq hw)
  exact congrArg Host.Outcome.next (runCommand_sends hq rfl rfl hbody)

/-- The first operand out of range: none of them is negative (R111). -/
theorem firstBad_operandWindow (s : State) :
    (operandWindow s).firstBad s.params =
      if s.params.sources / 4 ≤ coord s 0 then some (0, (coord s 0 : Int))
      else if s.params.sources / 4 ≤ coord s 1 then some (1, (coord s 1 : Int))
      else if s.params.gates ≤ coord s 2 then some (2, (coord s 2 : Int))
      else if s.params.gates ≤ coord s 3 then some (3, (coord s 3 : Int))
      else none := by
  have hbad (a n : Nat) : ((a : Int) < 0 ∨ (n : Int) ≤ a) ↔ n ≤ a := by omega
  simp only [Window.firstBad, operandWindow, hbad]

/-- SET_ADDRESS of a window with a bad value raises it, with its number (R111, R116). -/
theorem exec_setAddress_bad {s : State} (hq : s.quiet = true) (hs : s.sel = true) {d : Nat} {v : Int}
    (h : (operandWindow s).firstBad s.params = some (d, v)) :
    exec .setAddress s = .next (faultEntry .windowRange d v none s) := by
  have hbody := (setAddressBody_open hs).trans (act_bind_error _ (checkWindow_bad hq h))
  exact congrArg Host.Outcome.next (runCommand_error rfl rfl hbody)

/-- Settles O33: by `exec_setAddress_bad`, the first bad value as `firstBad_operandWindow` finds it. -/
theorem windowCheckReportsTheFirstBadValue : Obligations.WindowCheckReportsTheFirstBadValue := by
  intro s hq hs xb
  have hraise {d : Nat} {v : Int} := exec_setAddress_bad hq hs (d := d) (v := v)
  rw [firstBad_operandWindow] at hraise
  refine ⟨fun h0 => hraise ?xs, fun h0 h1 => hraise ?xe, fun h0 h1 h2 => hraise ?ys, fun h0 h1 h2 h3 => hraise ?ye⟩
  case xs => rw [if_pos h0]
  case xe => rw [if_neg (Nat.not_le.2 h0), if_pos h1]
  case ys => rw [if_neg (Nat.not_le.2 h0), if_neg (Nat.not_le.2 h1), if_pos h2]
  case ye => rw [if_neg (Nat.not_le.2 h0), if_neg (Nat.not_le.2 h1), if_neg (Nat.not_le.2 h2), if_pos h3]

end Sys2Proof.Machine
end

section
/-! Proofs of the statements of the family `41_packetizer.md`: the panel and the background, the packed byte, and what a
fill and a draw send, sample and report under a host that waits. -/

namespace Sys2Proof.Machine

/-! ### The panel and the background -/

/-- A command that emits nothing only ends. -/
theorem completed_nil (s : State) : s.completed [] = endCommand s := by
  rw [State.completed, emitted_nil]

/-- The checks of PANEL_INIT, in order (R140). -/
theorem panelInitBody_eq (s : State) :
    panelInitBody s =
      if s.panelInit then raise .config 1 0 s
      else if s.params.gates < coord s 0 then raise .panelExtent 0 (coord s 0) s
      else if s.params.sources < coord s 1 then raise .panelExtent 1 (coord s 1) s
      else .ok () s := by
  simp only [panelInitBody, peek_bind]
  split
  · rfl
  split
  · rfl
  split <;> rfl

/-- Settles O34: the first check of `panelInitBody_eq` that fails is raised; where none does, the three registers follow. -/
theorem panelInitSetsThePanelOrFaults : Obligations.PanelInitSetsThePanelOrFaults := by
  intro s hq
  have hfault {c : Cause} {d : Nat} {v : Int} (h : panelInitBody s = raise c d v s) :
      exec .panelInit s = .next (faultEntry c d v none s) :=
    congrArg Host.Outcome.next (runCommand_error rfl rfl (h.trans (raise_quiet hq c d v)))
  refine ⟨fun hi hw hh => ?sets, fun hi => hfault ?second, fun hi hw => hfault ?width, fun hi hw hh => hfault ?height⟩
  case sets =>
    have hbody : panelInitBody s = .ok () s := by
      rw [panelInitBody_eq, if_neg (Bool.eq_false_iff.1 hi), if_neg (Nat.not_lt.2 hw), if_neg (Nat.not_lt.2 hh)]
    rw [completed_nil]
    exact congrArg Host.Outcome.next (runCommand_quiet (own := false) (needs := false) rfl rfl hbody hq (by simp))
  case second => rw [panelInitBody_eq, if_pos hi]
  case width => rw [panelInitBody_eq, if_neg (Bool.eq_false_iff.1 hi), if_pos hw]
  case height => rw [panelInitBody_eq, if_neg (Bool.eq_false_iff.1 hi), if_neg (Nat.not_lt.2 hw), if_pos hh]

/-- Settles O35: SET_BG has no steps, and its two register writes follow. -/
theorem setBgSetsTheBackground : Obligations.SetBgSetsTheBackground := by
  intro c s hq
  rw [completed_nil]
  exact congrArg Host.Outcome.next
    (runCommand_quiet (own := false) (needs := false) (body := pure ()) rfl rfl (act_pure () s) hq (by simp))

/-! ### The packed byte -/

/-- Settles O44: the four colours are the rows of a packed byte of group 0, which `slotColor_groupByte` reads. -/
theorem packedByteRoundTrip : Obligations.PackedByteRoundTrip := by
  refine ⟨fun c0 c1 c2 c3 r => ?slots, slotColor_colorByte⟩
  have hgroup := slotColor_groupByte (fun h => colorByte ([c0, c1, c2, c3].getD h 0)) 0 4 0 r (by omega)
  rw [slotColor_colorByte] at hgroup
  refine Eq.trans hgroup ?_
  fin_cases r <;> rfl

/-! ### The number of bytes of a draw -/

/-- A draw sends one byte for each column and each RAM x address its rows meet (R139). -/
theorem drawBytes_length (pick : Nat → Nat → Byte) (y width : Nat) {height : Nat} (hh : 0 < height) :
    (drawBytes pick y width height).length = width * ((y + height - 1) / 4 - y / 4 + 1) := by
  simp [drawBytes, List.length_flatMap, columnBytes_length, Nat.ne_of_gt hh]

/-- Settles O45: the window has one RAM x address for each byte of a column (`drawBytes_length`), and `width` columns. -/
theorem drawSendsTheWindowsByteCount : Obligations.DrawSendsTheWindowsByteCount := by
  intro pick panelW x y width height hh win
  have hrows : win.xe - win.xs + 1 = ((y + height - 1) / 4 - y / 4 + 1 : Nat) := by
    simp only [win, windowOf]
    omega
  have hcols : win.ys - win.ye + 1 = width := by
    simp only [win, windowOf]
    omega
  rw [hrows, hcols, drawBytes_length pick y width hh]
  exact ⟨Nat.cast_mul .., Nat.cast_mul ..⟩

/-! ### FILL_DISPLAY -/

/-- The panel's own window (R142). -/
def State.panelWindow (s : State) : Window := ⟨0, (s.panelH.toNat : Int) / 4 - 1, (s.panelW.toNat : Int) - 1, 0⟩

/-- `SetAddressInternal` of a window that fails the check emits nothing (R111). -/
theorem setAddressInternal_bad {s : State} {w : Window} {d : Nat} {v : Int} (hq : s.quiet = true)
    (h : w.firstBad s.params = some (d, v)) :
    setAddressInternal w.xs w.xe w.ys w.ye s = .error () (faultEntry .windowRange d v none s) :=
  act_bind_error _ (checkWindow_bad hq h)

/-- `SendData(b)`, `n` times, after the events `es`. -/
theorem sendRepeated_emitted {s : State} (hq : s.quiet = true) (b : Byte) : ∀ (n : Nat) (es : List Event),
    sendRepeated b n (s.emitted es) = .ok () (s.emitted (es ++ (List.replicate n b).map Event.dat))
  | 0, es => by simp [sendRepeated]
  | n + 1, es => by
    rw [sendRepeated, sendData, act_bind_ok _ (emit_emitted hq es _), sendRepeated_emitted hq b n, List.append_assoc]
    rfl

/-- The steps of FILL_DISPLAY by the panel's height (R142). -/
theorem fillDisplayBody_eq (c : Color) (s : State) :
    fillDisplayBody c s =
      if s.panelH.toNat % 4 ≠ 0 then raise .unspecified 0 s.panelH.toNat s
      else (do
        select
        setAddressInternal s.panelWindow.xs s.panelWindow.xe s.panelWindow.ys s.panelWindow.ye
        sendRepeated (colorByte c) (s.panelW.toNat * (s.panelH.toNat / 4))
        unselect : Act Unit) s := by
  rw [fillDisplayBody, peek_bind, peek_bind]
  split <;> rfl

section
variable {s : State} (c : Color) (hq : s.quiet = true) (hh : s.panelH.toNat % 4 = 0)
include hq hh

/-- The steps of FILL_DISPLAY of a panel whose window passes the check (R142). -/
theorem fillDisplayBody_quiet (hs : s.sel = false) (hw : s.panelWindow.inRange s.params = true) :
    fillDisplayBody c s = .ok () (s.emitted (drawEvents s.params s.panelWindow
      (List.replicate (s.panelW.toNat * (s.panelH.toNat / 4)) (colorByte c)))) := by
  rw [fillDisplayBody_eq, if_neg (not_not.2 hh), act_bind_ok _ (select_quiet hq),
    act_bind_ok _ (setAddressInternal_quiet (s := openBracket s) hq hw), act_bind_ok _ (sendRepeated_emitted (by exact hq) ..),
    unselect_emitted hq hs]
  simp [drawEvents]

/-- The steps of FILL_DISPLAY of a panel whose window fails the check: only the bracket was opened (R142). -/
theorem fillDisplayBody_bad {d : Nat} {v : Int} (hw : s.panelWindow.firstBad s.params = some (d, v)) :
    fillDisplayBody c s = .error () (faultEntry .windowRange d v none (openBracket s)) := by
  rw [fillDisplayBody_eq, if_neg (not_not.2 hh), act_bind_ok _ (select_quiet hq),
    act_bind_error _ (setAddressInternal_bad (s := openBracket s) hq hw)]

end

/-- Settles O36: by the panel's height and then by its window, through the equations of its steps. -/
theorem fillDisplayFillsThePanelOrFaults : Obligations.FillDisplayFillsThePanelOrFaults := by
  intro c s hq hs hi
  have hfault {t : State} (h : fillDisplayBody c s = .error () t) : exec (.fillDisplay c) s = .next t :=
    congrArg Host.Outcome.next (runCommand_error (by simp [hs]) (by simp [hi]) h)
  refine ⟨fun hw0 hw hh0 hh h4 => ?fills, fun h4 => hfault ?rows, fun hx hh => hfault ?noHeight,
    fun h4 hh0 hh hw => hfault ?noWidth⟩
  case fills =>
    have hin : s.panelWindow.inRange s.params = true := by
      rw [Window.inRange_iff]
      simp only [State.panelWindow, Params.xbytes]
      omega
    exact congrArg Host.Outcome.next
      (runCommand_sends hq (by simp [hs]) (by simp [hi]) (fillDisplayBody_quiet c hq h4 hs hin))
  case rows => rw [fillDisplayBody_eq, if_pos h4, raise_quiet hq]
  case noHeight =>
    have hh0 : s.panelH.toNat = 0 := by simp [hh]
    have hbad : s.panelWindow.firstBad s.params = some (1, -1) := by
      simp only [Window.firstBad, State.panelWindow, hh0]
      rw [if_neg (by omega), if_pos (by omega)]
      rfl
    exact fillDisplayBody_bad c hq (by omega) hbad
  case noWidth =>
    have hw0 : s.panelW.toNat = 0 := by simp [hw]
    have hbad : s.panelWindow.firstBad s.params = some (2, -1) := by
      simp only [Window.firstBad, State.panelWindow, hw0]
      rw [if_neg (by omega), if_neg (by omega), if_pos (by omega)]
      rfl
    exact fillDisplayBody_bad c hq h4 hbad

/-! ### Draws that complete -/

/-- A part of a command completes with its events, its reads, its requests, and the answers to them taken (R183). -/
theorem endCommand_drawn (s : State) (es : List Event) (rs : List MemReq) (qs : List SampleReq) :
    endCommand (s.drawn es rs qs) = { (s.afterAnswers qs.length).completed es with
      memReads := s.memReads ++ rs, sampleLog := s.sampleLog ++ qs } := rfl

/-- A draw of the operands that completes (R143, R144). -/
theorem runCommand_draw {c : Color} {src : PixelSource} {s : State} {es : List Event} {rs : List MemReq}
    {qs : List SampleReq} (hq : s.quiet = true) (hs : s.sel = false) (hi : s.panelInit = true)
    (h : drawBitmapCore c (coord s 0) (coord s 1) (coord s 2) (coord s 3) src s = .ok () (s.drawn es rs qs)) :
    runCommand true true (drawOperands c src) noWrites s = { (s.afterAnswers qs.length).completed es with
      memReads := s.memReads ++ rs, sampleLog := s.sampleLog ++ qs } := by
  rw [← endCommand_drawn]
  exact runCommand_quiet (by simp [hs]) (by simp [hi]) ((drawOperands_eq c src s).trans h) hq nofun

/-- Settles O37: `exec_drawFilledRect_completed`. -/
theorem filledRectDrawsPackedColumns : Obligations.FilledRectDrawsPackedColumns :=
  fun c _ hq hs hi hw => exec_drawFilledRect_completed c hq hs hi hw

/-- No answer taken leaves the state as it is. -/
theorem afterAnswers_zero (s : State) : s.afterAnswers 0 = s := by
  simp [State.afterAnswers]

/-- Settles O38: the draw is that of a glyph which nothing comes before. -/
theorem bitmapFromMemoryIsDrawn : Obligations.BitmapFromMemoryIsDrawn := by
  intro c s hq hs hi hr win base hw ha hd
  have hcore := drawGlyph_drawn hq hr hs c (coord s 0) (coord s 1) (coord s 2) (coord s 3) base [] [] hw ha hd
  rw [drawn_nil] at hcore
  refine congrArg Host.Outcome.next ((runCommand_draw hq hs hi hcore).trans ?_)
  rw [List.length_nil, afterAnswers_zero, List.append_nil]
  rfl

/-- A draw asks for one sample a pixel (R136). -/
theorem drawRequests_length (width height : Nat) : (drawRequests width height).length = width * height := by
  rw [drawRequests_eq, pixelsBefore_length _ (fun _ _ => rfl), Nat.add_zero]

/-- Settles O39: `drawBitmapCore_quiet` with the samples of `picksAs_host`. -/
theorem bitmapFromHostSamplesIsDrawn : Obligations.BitmapFromHostSamplesIsDrawn := by
  intro c s hq hs hi win n hw hd
  have hcore := drawBitmapCore_quiet hq hs hw (picksAs_host (s := { s with sel := true }) c (by exact hq) (by exact hd))
  rw [pixelsBefore_nothing, ← drawRequests_eq] at hcore
  refine congrArg Host.Outcome.next ((runCommand_draw hq hs hi hcore).trans ?_)
  rw [drawRequests_length, List.append_nil]
  rfl

/-! ### Draws that end in a fault -/

/-- A draw of the operands that ends in a fault (R16). -/
theorem runCommand_draw_error {c : Color} {src : PixelSource} {s t : State} (hs : s.sel = false) (hi : s.panelInit = true)
    (h : drawBitmapCore c (coord s 0) (coord s 1) (coord s 2) (coord s 3) src s = .error () t) :
    runCommand true true (drawOperands c src) noWrites s = t :=
  runCommand_error (by simp [hs]) (by simp [hi]) ((drawOperands_eq c src s).trans h)

/-- A DRAW_TEXT whose glyph at byte `i` of the text ends in a fault (R167). -/
theorem exec_drawText_glyph {c : Color} {align : Align} {s t : State} {i : Nat} (h : GlyphReaches s align i)
    (hd : drawBitmapCore c (s.textCursor align i) (coord s 1) (s.glyphWidth i) s.font.gh (.mem (s.glyphBase i))
      (s.textTo c align i (s.readsOf i)) = .error () t) :
    exec (.drawText c align) s = .next t := by
  refine (if_neg h.legal).trans (congrArg Host.Outcome.next ?_)
  exact runCommand_error (by simp [h.closed]) (by simp [h.panel]) (drawText_glyph h c hd)

/-- Every draw command is a draw of its operands from some pixel source (R143, R144). -/
theorem exec_draw {i : Instr} {c : Color} (s : State)
    (h : i = .drawFilledRect c ∨ i = .drawBitmap c .solid ∨ i = .drawBitmap c .mem ∨ i = .drawBitmap c .host) :
    ∃ src, exec i s = .next (runCommand true true (drawOperands c src) noWrites s) := by
  obtain rfl | rfl | rfl | rfl := h
  · exact ⟨.solid, rfl⟩
  · exact ⟨.solid, rfl⟩
  · exact ⟨.mem (addrOperand s 4), rfl⟩
  · exact ⟨.host, rfl⟩

/-- Settles O42: `drawBitmapCore_bad`, for a draw of the operands and for a glyph. -/
theorem drawWindowFaultsReportTheFirstBadValue : Obligations.DrawWindowFaultsReportTheFirstBadValue := by
  refine ⟨fun i c s d v hdraw hq hs hi => ?draw, fun c align s i d v h hbad => ?glyph⟩
  case draw =>
    intro win
    refine ⟨?edge, fun hy hh => ?noHeight, fun hbad => ?fault⟩
    case edge =>
      simp only [win, State.window, windowOf]
      omega
    case noHeight =>
      simp only [win, State.window, windowOf]
      omega
    case fault =>
      obtain ⟨src, hexec⟩ := exec_draw s hdraw
      exact hexec.trans (congrArg Host.Outcome.next (runCommand_draw_error hs hi (drawBitmapCore_bad hq hbad)))
  case glyph => exact exec_drawText_glyph h (drawBitmapCore_bad (s := s.textTo c align i (s.readsOf i)) h.quiet hbad)

/-- The reads of a draw that stopped are among those of its text byte. -/
theorem drawnTo_textTo (s : State) (c : Color) (align : Align) (i : Nat) (more rs : List MemReq) (win : Window)
    (bytes : List Byte) (y height k : Nat) :
    { (s.textTo c align i more).drawnTo win bytes y height k with memReads := (s.textTo c align i more).memReads ++ rs } =
      (s.textTo c align i (more ++ rs)).drawnTo win bytes y height k := by
  simp [State.textTo, State.drawnTo, State.emitted]

/-- Settles O43: `drawMem_unset` for a bitmap and for a glyph, `drawHost_unset` for the host's samples. -/
theorem firstFalseSampleWithoutBackgroundFaults : Obligations.FirstFalseSampleWithoutBackgroundFaults := by
  refine ⟨fun c s k hq hs hi hb => ?draw, fun c align s i k h hb => ?glyph⟩
  case draw =>
    intro win base width height hw hk
    refine ⟨fun hr ha hall hbit => ?mem, fun hall hans => ?host⟩
    case mem =>
      exact congrArg Host.Outcome.next (runCommand_draw_error hs hi (drawMem_unset hq hr hw hb hk ha hall hbit))
    case host =>
      exact congrArg Host.Outcome.next (runCommand_draw_error hs hi (drawHost_unset hq hw hb hk hall hans))
  case glyph =>
    intro win base width height hw hk ha hall hbit
    have hcore := drawMem_unset (s := s.textTo c align i (s.readsOf i)) (color := c) h.quiet h.unchanged hw hb hk ha hall hbit
    rw [drawnTo_textTo] at hcore
    exact exec_drawText_glyph h hcore

end Sys2Proof.Machine
end

section
/-! Proofs of the statements of the family `42_text.md`: SET_FONT and GET_TEXT_WIDTH, the width of a text, and what
DRAW_TEXT draws, reads and reports under a host that waits. -/

namespace Sys2Proof.Machine

/-! ### The width of a text -/

/-- The width of a text of `n + k` bytes: the rest starts at byte `n` (R164, R171). -/
theorem widthOf_add (m : Memory) (f first last t n k : Nat) :
    widthOf m f first last t (n + k) = widthOf m f first last t n + widthOf m f first last (t + n) k := by
  simp [widthOf, textCode, List.range_add, Function.comp_def, Nat.add_assoc]

/-- The width of a one-byte text is that of its code (R171). -/
theorem widthOf_one (m : Memory) (f first last t : Nat) :
    widthOf m f first last t 1 = codeWidth m f first last (textCode m t 0) := by
  simp [widthOf]

/-- A code is representable when it lies between the font's first and last one (R163). -/
theorem representable_iff (first last c : Nat) : representable first last c = true ↔ first ≤ c ∧ c ≤ last := by
  simp [representable]

/-- A glyph width has 8 bits (R58). -/
theorem codeWidth_le (m : Memory) (f first last c : Nat) : codeWidth m f first last c ≤ 255 := by
  rw [codeWidth, entryWidth]
  split <;> omega

/-- Each byte of a text adds at most 255 to its width. -/
theorem widthOf_le (m : Memory) (f first last t n : Nat) : widthOf m f first last t n ≤ 255 * n := by
  induction n with
  | zero => simp [widthOf]
  | succ n ih =>
    have hcode := codeWidth_le m f first last (textCode m (t + n) 0)
    rw [widthOf_add, widthOf_one]
    omega

/-- Settles O48: `widthOf_add`, and the width of the one code of a one-byte text. -/
theorem textWidthIsAdditive : Obligations.TextWidthIsAdditive := by
  intro m f first last t n k
  refine ⟨widthOf_add m f first last t n k, fun hc => ?inside, fun hc => ?outside, widthOf_le m f first last t n⟩
  case inside => rw [widthOf_one, codeWidth, if_pos ((representable_iff ..).2 hc), entryWidth]
  case outside => rw [widthOf_one, codeWidth, if_neg (by rw [representable_iff]; omega)]

/-! ### Commands that read before they end -/

/-- A part of a command without samples completes with its events and its reads (R183). -/
theorem endCommand_drawn_reads (s : State) (es : List Event) (rs : List MemReq) :
    endCommand (s.drawn es rs []) = { s.completed es with memReads := s.memReads ++ rs } := by
  rw [endCommand_drawn, List.length_nil, afterAnswers_zero, List.append_nil]
  rfl

/-- Where a member of `xs ++ ys` stands: among `xs`, or among `ys` after all of `xs`. -/
theorem append_eq_append_cons_cases {α : Type} {xs ys pre post : List α} {r : α} (h : xs ++ ys = pre ++ r :: post) :
    (∃ rest, xs = pre ++ r :: rest) ∨ ∃ front, pre = xs ++ front ∧ ys = front ++ r :: post := by
  rcases List.append_eq_append_iff.1 h with h | ⟨rest, hxs, hr⟩
  · exact .inr h
  cases rest with
  | nil => exact .inr ⟨[], by simpa using hxs.symm, hr.symm⟩
  | cons q rest =>
    injection hr with hq _
    exact .inl ⟨rest, hq ▸ hxs⟩

section Reads
variable {s : State} (hq : s.quiet = true) (hr : s.racy = [])
include hq hr

/-- The header reads at the beginning of a command (R160). -/
theorem readHeader_first {f : Nat} (ha : ∀ r ∈ headerReads f, s.params.readable r.addr r.width = true) :
    readHeader f s = .ok (headerAt s.mem f) (s.drawn [] (headerReads f) []) := by
  have h := readHeader_drawn hq hr [] [] ha
  rwa [drawn_nil] at h

/-- A header read refused at the beginning of a command (R160, R182). -/
theorem readHeader_first_refused {f : Nat} {pre post : List MemReq} {r : MemReq} (hf : headerReads f = pre ++ r :: post)
    (ha : ∀ q ∈ pre, s.params.readable q.addr q.width = true) (hn : s.params.readable r.addr r.width = false) :
    readHeader f s = .error () (faultEntry .memError 0 r.width (some r.addr) { s with memReads := s.memReads ++ pre }) := by
  have h := readHeader_refused hq hr [] [] hf ha hn
  rwa [drawn_nil, List.nil_append, drawn_reads] at h

end Reads

/-- The header of the font that the operands name (R165, R166). -/
def State.operandFont (s : State) : FontHeader := headerAt s.mem (addrOperand s 4)

/-! ### SET_FONT -/

/-- The checks of SET_FONT of a readable header, in order, after the header reads (R165). -/
theorem setFontBody_header {s : State} (hq : s.quiet = true) (hr : s.racy = [])
    (ha : ∀ r ∈ headerReads (addrOperand s 4), s.params.readable r.addr r.width = true) :
    setFontBody s =
      if s.operandFont.last < s.operandFont.first then
        raise .fontHeader 0 s.operandFont.first (s.drawn [] (headerReads (addrOperand s 4)) [])
      else if s.panelH.toNat < s.operandFont.gh then
        raise .fontHeader 1 s.operandFont.gh (s.drawn [] (headerReads (addrOperand s 4)) [])
      else .ok () (s.drawn [] (headerReads (addrOperand s 4)) []) := by
  rw [setFontBody, peek_bind, act_bind_ok _ (readHeader_first hq hr ha), peek_bind]
  change (if s.operandFont.first > s.operandFont.last then _
    else if s.operandFont.gh > s.panelH.toNat then _ else _ : Act Unit) _ = _
  split
  · rfl
  split <;> rfl

/-- SET_FONT whose steps end in a fault (R16). -/
theorem exec_setFont_error {s t : State} (hi : s.panelInit = true) (h : setFontBody s = .error () t) :
    exec .setFont s = .next t :=
  congrArg Host.Outcome.next (runCommand_error rfl (by simp [hi]) h)

/-- Settles O46: the header's checks of `setFontBody_header`; where none fails, the two register writes follow. -/
theorem setFontAcceptsAValidHeaderOrFaults : Obligations.SetFontAcceptsAValidHeaderOrFaults := by
  intro s hq hi hr f ha
  have hbody := setFontBody_header hq hr ha
  have hraise {d : Nat} {v : Int} : (raise .fontHeader d v : Act Unit) (s.drawn [] (headerReads f) []) =
      .error () (faultEntry .fontHeader d v none { s with memReads := s.memReads ++ headerReads f }) := by
    rw [raise_quiet (by exact hq), drawn_reads]
  refine ⟨fun hrange hh => ?sets, fun hrange => exec_setFont_error hi ?range,
    fun hrange hh => exec_setFont_error hi ?height⟩
  case sets =>
    have hok := hbody.trans ((if_neg (Nat.not_lt.2 hrange)).trans (if_neg (Nat.not_lt.2 hh)))
    rw [drawn_reads] at hok
    rw [completed_nil]
    exact congrArg Host.Outcome.next (runCommand_quiet rfl (by simp [hi]) hok hq (by simp))
  case range => exact hbody.trans ((if_pos hrange).trans hraise)
  case height => exact hbody.trans ((if_neg (Nat.not_lt.2 hrange)).trans ((if_pos hh).trans hraise))

/-! ### GET_TEXT_WIDTH -/

/-- The reads of the codes' range at the beginning of GET_TEXT_WIDTH: the header's `gh` is not read (R166). -/
def rangeReads (f : Nat) : List MemReq := [⟨f + 2, 2⟩, ⟨f + 4, 2⟩]

section GetTextWidth
variable {s : State} (hq : s.quiet = true) (hr : s.racy = [])
include hq hr

/-- The steps of GET_TEXT_WIDTH once the range is read (R166). -/
theorem getTextWidthBody_range (ha : ∀ r ∈ rangeReads (addrOperand s 4), s.params.readable r.addr r.width = true) :
    getTextWidthBody s = textWidth (addrOperand s 4) s.operandFont.first s.operandFont.last (addrOperand s 5)
      (lengthOperand s) (s.drawn [] (rangeReads (addrOperand s 4)) []) := by
  have hfirst := memRead_drawn hq hr [] [] [] (ha ⟨addrOperand s 4 + 2, 2⟩ (by simp [rangeReads]))
  have hlast := memRead_drawn hq hr [] ([] ++ [⟨addrOperand s 4 + 2, 2⟩]) []
    (ha ⟨addrOperand s 4 + 4, 2⟩ (by simp [rangeReads]))
  rw [drawn_nil] at hfirst
  rw [getTextWidthBody, peek_bind, peek_bind, peek_bind, act_bind_ok _ hfirst, act_bind_ok _ hlast]
  rfl

/-- GET_TEXT_WIDTH whose read of the range is refused (R166, R182). -/
theorem getTextWidthBody_range_refused {pre post : List MemReq} {r : MemReq}
    (hf : rangeReads (addrOperand s 4) = pre ++ r :: post) (ha : ∀ q ∈ pre, s.params.readable q.addr q.width = true)
    (hn : s.params.readable r.addr r.width = false) :
    getTextWidthBody s =
      .error () (faultEntry .memError 0 r.width (some r.addr) { s with memReads := s.memReads ++ pre }) := by
  have hrefused := memRead_refused hq [] pre hn
  rw [drawn_reads] at hrefused
  rw [getTextWidthBody, peek_bind, peek_bind, peek_bind]
  match pre, hf with
  | [], hf =>
    injection hf with h1 _
    subst h1
    rw [List.append_nil] at hrefused ⊢
    exact act_bind_error _ hrefused
  | [_], hf =>
    injection hf with h1 hf
    injection hf with h2 _
    subst h1 h2
    rw [act_bind_ok _ (memRead_quiet hq hr (ha _ List.mem_cons_self)), act_bind_error _ hrefused]
  | _ :: _ :: pre, hf =>
    have hl := congrArg List.length hf
    simp [rangeReads] at hl

/-- GET_TEXT_WIDTH of which one read is refused (R166, R170, R182). -/
theorem getTextWidthBody_refused {pre post : List MemReq} {r : MemReq}
    (hf : rangeReads (addrOperand s 4) ++ widthReads s.mem (addrOperand s 4) s.operandFont.first
      s.operandFont.last (addrOperand s 5) (lengthOperand s) = pre ++ r :: post)
    (ha : ∀ q ∈ pre, s.params.readable q.addr q.width = true) (hn : s.params.readable r.addr r.width = false) :
    getTextWidthBody s =
      .error () (faultEntry .memError 0 r.width (some r.addr) { s with memReads := s.memReads ++ pre }) := by
  rcases append_eq_append_cons_cases hf with ⟨rest, hrange⟩ | ⟨front, rfl, hwidth⟩
  · exact getTextWidthBody_range_refused hq hr hrange ha hn
  · rw [← readsFrom_zero] at hwidth
    rw [getTextWidthBody_range hq hr fun q h => ha q (List.mem_append_left _ h), textWidth,
      textWidthFrom_refused hq hr _ _ _ _ hn _ 0 0 [] _ front hwidth fun q h => ha q (List.mem_append_right _ h),
      drawn_reads]

end GetTextWidth

/-- Settles O47: the range's reads, then the width pass, then the write of `RESULT`. -/
theorem getTextWidthSumsTheWidths : Obligations.GetTextWidthSumsTheWidths := by
  intro s hq hr f t n hdr reads ha
  have hbody : getTextWidthBody s = .ok (widthOf s.mem f hdr.first hdr.last t n) (s.drawn [] reads []) := by
    rw [getTextWidthBody_range hq hr fun r h => ha r (List.mem_append_left _ h)]
    exact textWidth_drawn hq hr f hdr.first hdr.last t n [] _ fun r h => ha r (List.mem_append_right _ h)
  rw [drawn_reads] at hbody
  rw [completed_nil]
  exact congrArg Host.Outcome.next (runCommand_quiet rfl rfl hbody hq (by simp))

/-! ### DRAW_TEXT -/

/-- The steps of DRAW_TEXT with a font (R167). -/
theorem drawTextBody_eq (c : Color) (align : Align) {s : State} (hf : s.fontValid = true) :
    drawTextBody c align s = (readHeader s.fontBase.toNat >>= fun hdr =>
      if s.panelH.toNat < coord s 1 + hdr.gh then pure ()
      else startColumn align (coord s 0) s.fontBase.toNat hdr.first hdr.last (addrOperand s 5) (lengthOperand s) >>=
        drawGlyphs c (coord s 1) s.fontBase.toNat (addrOperand s 5) s.panelW.toNat hdr (lengthOperand s) 0 : Act Unit) s := by
  rw [drawTextBody, peek_bind, if_pos hf]
  rfl

section DrawText
variable {c : Color} {align : Align} {s : State}

section Steps
variable (hq : s.quiet = true) (hr : s.racy = []) (hf : s.fontValid = true)
include hq hr hf

/-- DRAW_TEXT of a text that would pass the panel's lower edge ends after the header reads (R169). -/
theorem drawTextBody_below (ha : ∀ r ∈ headerReads s.fontBase.toNat, s.params.readable r.addr r.width = true)
    (hbelow : s.panelH.toNat < coord s 1 + s.font.gh) :
    drawTextBody c align s = .ok () (s.drawn [] (headerReads s.fontBase.toNat) []) := by
  rw [drawTextBody_eq c align hf, act_bind_ok _ (readHeader_first hq hr ha)]
  exact congrFun (if_pos hbelow) _

/-- DRAW_TEXT of a text within the panel's height: after the header reads come the start column and the draw pass (R167). -/
theorem drawTextBody_within (ha : ∀ r ∈ headerReads s.fontBase.toNat, s.params.readable r.addr r.width = true)
    (hle : coord s 1 + s.font.gh ≤ s.panelH.toNat) :
    drawTextBody c align s =
      (startColumn align (coord s 0) s.fontBase.toNat s.font.first s.font.last (addrOperand s 5) (lengthOperand s) >>=
        drawGlyphs c (coord s 1) s.fontBase.toNat (addrOperand s 5) s.panelW.toNat s.font (lengthOperand s) 0)
      (s.drawn [] (headerReads s.fontBase.toNat) []) := by
  rw [drawTextBody_eq c align hf, act_bind_ok _ (readHeader_first hq hr ha)]
  exact congrFun (if_neg (Nat.not_lt.2 hle)) _

/-- DRAW_TEXT of which a read of the header or of the width pass is refused (R167, R170, R182). -/
theorem drawTextBody_refused {pre post : List MemReq} {r : MemReq}
    (hreads : headerReads s.fontBase.toNat ++ (if coord s 1 + s.font.gh ≤ s.panelH.toNat then
      alignReads s.mem align s.fontBase.toNat s.font.first s.font.last (addrOperand s 5) (lengthOperand s) else []) =
      pre ++ r :: post)
    (ha : ∀ q ∈ pre, s.params.readable q.addr q.width = true) (hn : s.params.readable r.addr r.width = false) :
    drawTextBody c align s =
      .error () (faultEntry .memError 0 r.width (some r.addr) { s with memReads := s.memReads ++ pre }) := by
  rcases append_eq_append_cons_cases hreads with ⟨rest, hheader⟩ | ⟨front, rfl, halign⟩
  · rw [drawTextBody_eq c align hf, act_bind_error _ (readHeader_first_refused hq hr hheader ha hn)]
  · by_cases hle : coord s 1 + s.font.gh ≤ s.panelH.toNat
    · rw [if_pos hle] at halign
      rw [drawTextBody_within hq hr hf (fun q h => ha q (List.mem_append_left _ h)) hle,
        act_bind_error _ (startColumn_refused hq hr align (coord s 0) _ _ _ _ _ [] _ halign
          (fun q h => ha q (List.mem_append_right _ h)) hn), drawn_reads]
    · rw [if_neg hle] at halign
      exact absurd halign (by simp)

end Steps

section Accepted
variable (hlegal : align ≠ .reserved) (hs : s.sel = false) (hi : s.panelInit = true)
include hlegal hs hi

/-- An accepted DRAW_TEXT that completes (R167, R183). -/
theorem exec_drawText_completes {es : List Event} {rs : List MemReq} (hq : s.quiet = true)
    (h : drawTextBody c align s = .ok () (s.drawn es rs [])) :
    exec (.drawText c align) s = .next { s.completed es with memReads := s.memReads ++ rs } := by
  rw [← endCommand_drawn_reads]
  exact (if_neg hlegal).trans (congrArg Host.Outcome.next (runCommand_quiet (by simp [hs]) (by simp [hi]) h hq nofun))

/-- An accepted DRAW_TEXT that ends in a fault (R16, R167). -/
theorem exec_drawText_error {t : State} (h : drawTextBody c align s = .error () t) :
    exec (.drawText c align) s = .next t :=
  (if_neg hlegal).trans (congrArg Host.Outcome.next (runCommand_error (by simp [hs]) (by simp [hi]) h))

end Accepted
end DrawText

/-- Settles O49: the header, the start column, then the draw pass of `drawGlyphs_drawn`. -/
theorem drawTextDrawsTheGlyphs : Obligations.DrawTextDrawsTheGlyphs := by
  intro c align s hlegal hq hs hi hf hr f hdr y t n cx pass reads hle ha hg
  have hheader := fun r h => ha r (List.mem_append_left _ (List.mem_append_left _ h))
  have halign := fun r h => ha r (List.mem_append_left _ (List.mem_append_right _ h))
  have hpass := fun r h => ha r (List.mem_append_right _ h)
  have hstart := startColumn_drawn hq hr align (coord s 0) f hdr.first hdr.last t n [] ([] ++ headerReads f) halign
  refine exec_drawText_completes hlegal hs hi hq ?_
  calc drawTextBody c align s
      = (startColumn align (coord s 0) f hdr.first hdr.last t n >>= drawGlyphs c y f t s.panelW.toNat hdr n 0)
          (s.drawn [] (headerReads f) []) := drawTextBody_within hq hr hf hheader hle
    _ = drawGlyphs c y f t s.panelW.toNat hdr n 0 cx
          (s.drawn [] ([] ++ headerReads f ++ alignReads s.mem align f hdr.first hdr.last t n) []) := act_bind_ok _ hstart
    _ = _ := drawGlyphs_drawn hq hr hs c y f t hdr n 0 cx [] _ hpass hg

/-- Settles O50: the command ends once the header is read (`drawTextBody_below`). -/
theorem drawTextBelowThePanelIsANoOp : Obligations.DrawTextBelowThePanelIsANoOp :=
  fun _ _ _ hlegal hq hs hi hf hr ha hbelow =>
    exec_drawText_completes hlegal hs hi hq (drawTextBody_below hq hr hf ha hbelow)

/-! ### NO_FONT and the refused reads -/

/-- Settles O51: `NO_FONT` is the first check of DRAW_TEXT; a refused read of the passes before any event, of the draw
pass, and of a bitmap each have their lemma. -/
theorem refusedReadsRaiseMemError : Obligations.RefusedReadsRaiseMemError := by
  refine ⟨fun c align s hq hlegal hs hi hf => ?noFont, fun s pre post r hq hr ha hn => ?before,
    fun c align s i pre post r h hreads ha hn => ?textByte, fun c align s i k h => ?glyph,
    fun c s k hq hr hs hi => ?bitmap⟩
  case noFont =>
    refine exec_drawText_error hlegal hs hi ?_
    rw [drawTextBody, peek_bind, if_neg (by simp [hf]), raise_quiet hq]
  case before =>
    intro end_
    refine ⟨fun f hf hi hreads => ?setFont, fun f hdr hf hhdr hreads => ?getTextWidth,
      fun c align f hf hlegal hs hi hfont hreads => ?drawText⟩
    case setFont =>
      subst hf
      refine exec_setFont_error hi ?_
      rw [setFontBody, peek_bind, act_bind_error _ (readHeader_first_refused hq hr hreads ha hn)]
    case getTextWidth =>
      subst hf hhdr
      exact congrArg Host.Outcome.next (runCommand_error rfl rfl (getTextWidthBody_refused hq hr hreads ha hn))
    case drawText =>
      subst hf
      exact exec_drawText_error hlegal hs hi (drawTextBody_refused hq hr hfont hreads ha hn)
  case textByte => exact exec_drawText_error h.legal h.closed h.panel (drawText_refused h c hreads ha hn)
  case glyph =>
    intro win base width height a hw hk ha hd hn
    have hcore := drawMem_refused (s := s.textTo c align i (s.readsOf i)) (color := c) h.quiet h.unchanged hw hk ha hd hn
    rw [drawnTo_textTo] at hcore
    exact exec_drawText_glyph h hcore
  case bitmap =>
    intro win base width height a hw hk ha hd hn
    exact congrArg Host.Outcome.next (runCommand_draw_error hs hi (drawMem_refused hq hr hw hk ha hd hn))

end Sys2Proof.Machine
end

section
/-! Proofs of the statements of the family `60_exceptions.md`: what a `CMD` write does on an idle, a halted and a running
block, and what a fault records and leaves. -/

namespace Sys2Proof.Machine

/-! ### Fault entry -/

/-- Without a reset among the host's actions fault entry ends as `faultEntry` has it, from the state that the host's other
actions make of its start (R185). -/
theorem enterFault_noReset {α : Type} {s : State} (hr : s.noReset = true) (c : Cause) (d : Nat) (v : Int) (a : Option Nat) :
    ∃ u, Still s u ∧ (enterFault c d v a : Act α) s = .error () (faultEntry c d v a u) := by
  have hun := faultSteps_unhosted c d v a s
  have h := inTurn_outcome heldTurn_outcome hun s
  rw [enterFault_eq]
  cases hx : inTurn heldTurn (faultSteps c d v a s) s with
  | ok _ t =>
    rw [hx] at h
    obtain ⟨u, hu, rfl⟩ := h
    refine ⟨u, hu, ?_⟩
    rw [← faultSteps_written, ← hu.faultSteps]
  | error _ t =>
    rw [hx] at h
    obtain ⟨u, gs, hu, hg, _, _, hm, _⟩ := h
    have hgs : Unhosted (written gs) := written_hosted fun f hf => hun f (hg.subset hf)
    exact absurd (hu.host.subset (hgs.host u ▸ hm)) (State.reset_not_mem hr)

/-- The fields of `FAULT_INFO` (R24). -/
theorem faultInfoWord_fields (opc : Byte) (d : Nat) (v : Int) :
    (faultInfoWord opc d v).extractLsb' 24 8 = opc ∧ (faultInfoWord opc d v).extractLsb' 16 8 = BitVec.ofNat 8 d ∧
    (faultInfoWord opc d v).extractLsb' 0 16 = BitVec.ofInt 16 v := by
  refine ⟨?_, ?_, ?_⟩ <;>
    simp (disch := decide) only [faultInfoWord, low16, BitVec.extractLsb'_append_eq_of_le,
      BitVec.extractLsb'_append_eq_of_add_le, Nat.reduceSub, BitVec.extractLsb'_eq_self]

/-- A change of fault entry after which the host lets the block take the next one. -/
theorem inTurn_pause {f : State → State} {fs : List (State → State)} {s : State} {rest : List HostAction}
    (hh : (f s).host = .pause :: rest) : inTurn heldTurn (f :: fs) s = inTurn heldTurn fs { f s with host := rest } := by
  have hturn : heldTurn (f s) = .ok () { f s with host := rest } := by rw [heldTurn, hh, turnFrom]
  rw [inTurn, update_bind, act_bind_ok _ hturn]

/-- A change of fault entry after which the host reads a register and has nothing more to do. -/
theorem inTurn_read {f : State → State} {fs : List (State → State)} {s : State} {off : BitVec 7}
    (hh : (f s).host = [.read off 4]) (ha : off.toNat % 4 = 0) :
    inTurn heldTurn (f :: fs) s = inTurn heldTurn fs { hostRead off (f s) with host := [] } := by
  have hturn : heldTurn (f s) = .ok () { hostRead off (f s) with host := [] } := by
    rw [heldTurn, hh, turnFrom, if_pos ((accessOk_iff off 4).2 ⟨rfl, ha⟩), turnFrom]
  rw [inTurn, update_bind, act_bind_ok _ hturn]

/-- A change of fault entry after which the host reads a register and the block is reset (R200). -/
theorem inTurn_read_reset {f : State → State} {fs : List (State → State)} {s : State} {off : BitVec 7}
    (hh : (f s).host = [.read off 4, .reset]) (ha : off.toNat % 4 = 0) :
    inTurn heldTurn (f :: fs) s = .error () (applyReset { hostRead off (f s) with host := [] }) := by
  have hturn : heldTurn (f s) = .error () (applyReset { hostRead off (f s) with host := [] }) := by
    rw [heldTurn, hh, turnFrom, if_pos ((accessOk_iff off 4).2 ⟨rfl, ha⟩), turnFrom]
  rw [inTurn, update_bind, act_bind_error _ hturn]

/-- Fault entry begins with the record: the cause, `FAULT_INFO`, and for a failed read `FAULT_ADDR` (R185). -/
theorem faultSteps_record (c : Cause) (d : Nat) (v : Int) (s : State) :
    (∀ a, ∃ fs, faultSteps c d v a s = setCause c :: setFaultInfo d v :: fs) ∧
    ∀ b, ∃ fs, faultSteps c d v (some b) s = setCause c :: setFaultInfo d v :: setFaultAddr b :: fs :=
  ⟨fun _ => ⟨_, rfl⟩, fun _ => ⟨_, rfl⟩⟩

/-- The changes of a fault that is no failed read and has no bracket to close (R185). -/
theorem faultSteps_closed (c : Cause) (d : Nat) (v : Int) {s : State} (hs : s.sel = false) :
    faultSteps c d v none s = [setCause c, setFaultInfo d v, setFault] := by
  simp [faultSteps, hs]

/-- Settles O21: the host's turns after the first changes of fault entry show the record and the halt, and the end of
fault entry is that of `enterFault_noReset`. -/
theorem faultEntryRecordsAndHalts : Obligations.FaultEntryRecordsAndHalts := by
  refine ⟨fun s c d v a => ⟨fun hh => ?info, fun b hb hh => ?addr, fun hn hs hbusy hh => ?halt⟩, fun s c d v a hr => ?ends⟩
  case info =>
    obtain ⟨fs, hfs⟩ := (faultSteps_record c d v s).1 a
    rw [enterFault_eq, hfs, (inTurn_pause hh).trans (inTurn_read_reset rfl rfl)]
    exact ⟨_, rfl, rfl, rfl⟩
  case addr =>
    subst hb
    obtain ⟨fs, hfs⟩ := (faultSteps_record c d v s).2 b
    rw [enterFault_eq, hfs, (inTurn_pause hh).trans ((inTurn_pause rfl).trans (inTurn_read_reset rfl rfl))]
    exact ⟨_, rfl, rfl, rfl⟩
  case halt =>
    subst hn
    rw [enterFault_eq, faultSteps_closed c d v hs,
      (inTurn_pause hh).trans ((inTurn_pause rfl).trans (inTurn_read rfl rfl))]
    exact ⟨_, _, rfl, rfl, (statusWord_bits _).1.trans hbusy, (statusWord_bits _).2.1, rfl⟩
  case ends =>
    obtain ⟨u, hu, he⟩ := enterFault_noReset (α := Unit) hr c d v a
    obtain ⟨w, rfl⟩ : ∃ w, u = s.hosted w := ⟨u, hu.eq⟩
    obtain ⟨hopc, hdetail, hvalue⟩ := faultInfoWord_fields (opcField s.cmdL) d v
    refine ⟨_, he, rfl, hopc, hdetail, hvalue, ?some, ?none, rfl, rfl, rfl, rfl, rfl, rfl, rfl, rfl, rfl, rfl, rfl, rfl, rfl, rfl,
      rfl, rfl, rfl, rfl, rfl, rfl, fun hq => ?quiet⟩
    case some => rintro b rfl; rfl
    case none => rintro rfl; rfl
    case quiet =>
      have hsame : faultEntry c d v a (s.hosted w) = faultEntry c d v a s := by
        have h := he.symm.trans (enterFault_quiet hq c d v a)
        injection h
      rw [hsame]
      exact ⟨rfl, rfl, rfl, rfl, rfl⟩

/-! ### A `CMD` write on a block that runs no command -/

/-- On a block that is not in a poll loop a `CMD` write is accepted or refused at once (R183). -/
theorem step_cmdWrite {s : State} {w : Word} {rest : List HostAction} (hp : s.poll = false)
    (hh : s.host = .write 0 4 w :: rest) : step s = acceptCommand w { s with host := rest } := by
  rw [step_takeAction hp hh, takeAction, if_pos ((accessOk_iff 0 4).2 ⟨rfl, rfl⟩), if_pos rfl]

/-- On an idle block that is not halted a word that decodes is latched and its command run (R36, R183). -/
theorem acceptCommand_command {s : State} {w : Word} {i : Instr} (hf : s.fault = false) (hb : s.busy = false)
    (hd : decode w = .ok i) : acceptCommand w s = exec i (latch w s) := by
  rw [acceptCommand, if_neg (Bool.eq_false_iff.1 hf), if_neg (Bool.eq_false_iff.1 hb), hd]

/-- On an idle block that is not halted an illegal word is latched and raised (R89, R183). -/
theorem acceptCommand_illegal {s : State} {w : Word} {k : Illegal} (hf : s.fault = false) (hb : s.busy = false)
    (hd : decode w = .error k) : acceptCommand w s = .next (endOf (raiseIllegal k) (latch w s)) := by
  rw [acceptCommand, if_neg (Bool.eq_false_iff.1 hf), if_neg (Bool.eq_false_iff.1 hb), hd]

/-- Settles O9: `acceptCommand` looks at `FAULT` first. -/
theorem haltedBlockIgnoresCommands : Obligations.HaltedBlockIgnoresCommands := by
  intro s w rest hp hf hh
  rw [step_cmdWrite hp hh, acceptCommand, if_pos hf]

/-- Settles O6: the word decodes, so acceptance runs its command from the latched state. -/
theorem stepRunsTheDecodedCommand : Obligations.StepRunsTheDecodedCommand := by
  intro s w i rest hp hf hb hh hd
  rw [step_cmdWrite hp hh]
  exact acceptCommand_command (s := { s with host := rest }) hf hb hd

/-- An illegal command under a host that waits (R89, R181). -/
theorem endOf_raiseIllegal_quiet {s : State} (hq : s.quiet = true) (k : Illegal) :
    endOf (raiseIllegal k) s = faultEntry .illegal k.detail (s.cmdL.toNat % 65536 : Nat) none s := by
  have hlow : (s.cmdL.extractLsb' 0 16).toNat = s.cmdL.toNat % 65536 := by simp
  rw [endOf, raiseIllegal, peek_bind, raise_quiet hq, hlow]

/-- Settles O7: the word does not decode, so acceptance raises `ILLEGAL` from the latched state. -/
theorem stepRaisesIllegal : Obligations.StepRaisesIllegal := by
  intro s w k rest hp hf hb hh hd hq
  have hraise := endOf_raiseIllegal_quiet (s := latch w { s with host := rest }) hq k
  rw [step_cmdWrite hp hh, acceptCommand_illegal (s := { s with host := rest }) hf hb hd, hraise]
  rfl

/-! ### Acceptance -/

/-- A command that needs a panel is not accepted without one, once its bracket check has passed (R183). -/
theorem runCommand_needsPanel {α : Type} {own : Bool} {body : Act α} {writes : α → List (State → State)} {s : State}
    (hq : s.quiet = true) (hown : (own && s.sel) = false) (hi : s.panelInit = false) :
    runCommand own true body writes s = faultEntry .config 0 0 none s := by
  have hrefused : acceptance own true s = .error () (faultEntry .config 0 0 none s) := by
    rw [acceptance_eq, if_neg (Bool.eq_false_iff.1 hown), hi]
    exact raise_quiet hq _ _ _
  rw [runCommand_eq, act_bind_error _ hrefused]

/-- A well-formed draw is a command that opens its own bracket and needs a panel (R143, R144, R167). -/
theorem exec_ownBracket_panel {i : Instr} (hwf : i.wellFormed = true)
    (hi : (∃ c, i = .fillDisplay c) ∨ (∃ c src, i = .drawBitmap c src) ∨ (∃ c, i = .drawFilledRect c) ∨
      ∃ c align, i = .drawText c align) (s : State) :
    ∃ body : Act Unit, exec i s = .next (runCommand true true body noWrites s) := by
  obtain ⟨c, rfl⟩ | ⟨c, src, rfl⟩ | ⟨c, rfl⟩ | ⟨c, align, rfl⟩ := hi
  · exact ⟨_, rfl⟩
  · cases src with
    | solid | mem | host => exact ⟨_, rfl⟩
    | reserved => cases hwf
  · exact ⟨_, rfl⟩
  · exact ⟨_, if_neg (by rintro rfl; cases hwf)⟩

/-- UPDATE is not accepted inside a bracket (R183). -/
theorem exec_update_ownBracket {s : State} (hq : s.quiet = true) (hs : s.sel = true) :
    exec .update s = .next (faultEntry .bracket 3 0 none s) := by
  have hrefused : acceptance true false s = .error () (faultEntry .bracket 3 0 none s) := by
    rw [acceptance_eq, hs]
    exact raise_quiet hq _ _ _
  rw [exec, execUpdate, act_bind_error _ hrefused, afterPoll]

/-- Settles O12: the two checks of acceptance, each the first thing its commands do. -/
theorem acceptanceChecksInOrder : Obligations.AcceptanceChecksInOrder := by
  intro i s hwf hq
  refine ⟨fun hi hs => ?ownBracket, fun hi hs hp => ?needsPanel, fun hi hp => ?setFont⟩
  case ownBracket =>
    obtain rfl | rfl | rfl | hdraw := hi
    · exact congrArg Host.Outcome.next (runCommand_ownBracket hq hs)
    · exact congrArg Host.Outcome.next (runCommand_ownBracket hq hs)
    · exact exec_update_ownBracket hq hs
    · obtain ⟨body, hbody⟩ := exec_ownBracket_panel hwf hdraw s
      rw [hbody, runCommand_ownBracket hq hs]
  case needsPanel =>
    obtain ⟨body, hbody⟩ := exec_ownBracket_panel hwf hi s
    rw [hbody, runCommand_needsPanel hq (by simp [hs]) hp]
  case setFont =>
    subst hi
    exact congrArg Host.Outcome.next (runCommand_needsPanel hq rfl hp)

/-! ### What a faulted command leaves -/

/-- A command that has ended and left the block halted has ended in a fault (R185): it wrote no register. -/
theorem Ended.faulted {p : Place} {s t : State} (h : Ended p s t) (hf : t.fault = true) :
    KeepsRegisters s t ∧ t.busy = false ∧ t.sel = false := by
  cases h with
  | fault q c d v a _ hu => exact ⟨{ hu with }, rfl, rfl⟩
  | reset => simp at hf

/-- Settles O56: a command, or a pass of the poll loop, that goes on or completes leaves `FAULT` clear; one that has ended
with it set is `Ended.faulted`. -/
theorem faultedCommandWritesNoRegister : Obligations.FaultedCommandWritesNoRegister := by
  intro s t hs hrun hf
  have hfinaled : Ended (.of s.sel) s t := by
    rcases hrun with ⟨i, hx⟩ | ⟨hp, _, hx⟩
    · refine (exec_outcome hx).resolve_right fun ⟨u, hu, hc⟩ => ?_
      have hclear : t.fault = false := hc.sel_fault.2.trans (hu.follows.fault.trans hs)
      simp [hclear] at hf
    · rw [step, if_pos hp] at hx
      injection hx with hx
      subst hx
      refine (pollTurn_outcome s).resolve_right fun ⟨u, hu, ht⟩ => ?_
      have hclear : u.fault = false := hu.follows.fault.trans hs
      rcases ht with ht | ht <;> simp [ht, hclear] at hf
  obtain ⟨hk, hbusy, hsel⟩ := hfinaled.faulted hf
  exact ⟨hk.panelW, hk.panelH, hk.panelInit, hk.bg, hk.bgValid, hk.fontBase, hk.fontValid, hk.result, hk.cstate, hbusy, hsel⟩

/-! ### A `CMD` write before the first step of a command -/

variable {α β : Type}

/-- A piece of a command that begins with the host's turn: where the turn ends the command, the piece does nothing. -/
def Act.BeginsWithTurn (x : Act α) : Prop := ∀ s t, hostTurn s = .error () t → x s = .error () t

/-- A piece that begins with the host's turn, or does nothing at all where that turn would end the command. -/
def Act.WaitsForTurn (x : Act α) : Prop :=
  ∀ s t, hostTurn s = .error () t → x s = .error () t ∨ ∃ a, x s = .ok a s

theorem Act.BeginsWithTurn.waits {x : Act α} (h : Act.BeginsWithTurn x) : Act.WaitsForTurn x :=
  fun s t ht => .inl (h s t ht)

theorem Act.WaitsForTurn.pure (a : α) : Act.WaitsForTurn (pure a) := fun s _ _ => .inr ⟨a, act_pure a s⟩

theorem Act.BeginsWithTurn.hostTurn : Act.BeginsWithTurn hostTurn := fun _ _ ht => ht

/-- What comes after the first turn of a command does not matter. -/
theorem Act.BeginsWithTurn.bind {x : Act α} (hx : Act.BeginsWithTurn x) (f : α → Act β) : Act.BeginsWithTurn (x >>= f) :=
  fun s t ht => act_bind_error f (hx s t ht)

theorem Act.WaitsForTurn.bind {x : Act α} {f : α → Act β} (hx : Act.WaitsForTurn x) (hf : ∀ a, Act.BeginsWithTurn (f a)) :
    Act.BeginsWithTurn (x >>= f) := by
  intro s t ht
  rcases hx s t ht with he | ⟨a, ha⟩
  · exact act_bind_error f he
  · rw [act_bind_ok f ha, hf a s t ht]

/-- Looking at the state is no step. -/
theorem Act.BeginsWithTurn.look {g : State → α} {f : α → Act β} (hf : ∀ a, Act.BeginsWithTurn (f a)) :
    Act.BeginsWithTurn (Machine.peek g >>= f) := fun s t ht => hf (g s) s t ht

theorem Act.WaitsForTurn.look {g : State → α} {f : α → Act β} (hf : ∀ a, Act.WaitsForTurn (f a)) :
    Act.WaitsForTurn (Machine.peek g >>= f) := fun s t ht => hf (g s) s t ht

theorem Act.BeginsWithTurn.ite {p : Prop} [Decidable p] {x y : Act α} (hx : Act.BeginsWithTurn x)
    (hy : Act.BeginsWithTurn y) : Act.BeginsWithTurn (if p then x else y) := by
  split
  · exact hx
  · exact hy

theorem Act.WaitsForTurn.ite {p : Prop} [Decidable p] {x y : Act α} (hx : Act.WaitsForTurn x) (hy : Act.WaitsForTurn y) :
    Act.WaitsForTurn (if p then x else y) := by
  split
  · exact hx
  · exact hy

theorem Act.BeginsWithTurn.raise (c : Cause) (d : Nat) (v : Int) : Act.BeginsWithTurn (raise c d v : Act α) :=
  Act.BeginsWithTurn.hostTurn.bind _

theorem Act.BeginsWithTurn.emit (e : Event) : Act.BeginsWithTurn (emit e) := Act.BeginsWithTurn.hostTurn.bind _

theorem Act.BeginsWithTurn.memRead (a n : Nat) : Act.BeginsWithTurn (memRead a n) :=
  .look fun _ => Act.BeginsWithTurn.hostTurn.bind _

theorem Act.BeginsWithTurn.select : Act.BeginsWithTurn select :=
  Act.WaitsForTurn.bind (.look fun _ => .ite (Act.BeginsWithTurn.emit _).waits (.pure ())) fun _ =>
    (Act.BeginsWithTurn.emit _).bind _

theorem Act.BeginsWithTurn.unselect : Act.BeginsWithTurn unselect := (Act.BeginsWithTurn.emit _).bind _

theorem Act.BeginsWithTurn.readHeader (f : Nat) : Act.BeginsWithTurn (readHeader f) := (Act.BeginsWithTurn.memRead _ _).bind _

theorem Act.BeginsWithTurn.pollOnce : Act.BeginsWithTurn pollOnce :=
  .look fun _ => Act.BeginsWithTurn.bind (Act.BeginsWithTurn.hostTurn.bind _) _

theorem Act.WaitsForTurn.needBracket : Act.WaitsForTurn needBracket :=
  .look fun _ => .ite (.pure ()) (Act.BeginsWithTurn.raise _ _ _).waits

theorem Act.WaitsForTurn.checkWindow (xs xe ys ye : Int) : Act.WaitsForTurn (checkWindow xs xe ys ye) :=
  .look fun _ => .ite (Act.BeginsWithTurn.raise _ _ _).waits <| .ite (Act.BeginsWithTurn.raise _ _ _).waits <|
    .ite (Act.BeginsWithTurn.raise _ _ _).waits <| .ite (Act.BeginsWithTurn.raise _ _ _).waits <| .pure ()

theorem Act.WaitsForTurn.acceptance (own needs : Bool) : Act.WaitsForTurn (acceptance own needs) :=
  .look fun _ => .look fun _ => .ite (Act.BeginsWithTurn.raise _ _ _).waits <|
    .ite (Act.BeginsWithTurn.raise _ _ _).waits <| .pure ()

theorem Act.BeginsWithTurn.setAddressBody : Act.BeginsWithTurn setAddressBody :=
  .look fun _ => .look fun _ => .look fun _ => .look fun _ => Act.WaitsForTurn.needBracket.bind fun _ =>
    (Act.WaitsForTurn.checkWindow _ _ _ _).bind fun _ => .look fun _ =>
    Act.BeginsWithTurn.bind ((Act.BeginsWithTurn.emit _).bind _) _

theorem Act.WaitsForTurn.panelInitBody : Act.WaitsForTurn panelInitBody :=
  .look fun _ => .look fun _ => .look fun _ => .look fun _ => .ite (Act.BeginsWithTurn.raise _ _ _).waits <|
    .ite (Act.BeginsWithTurn.raise _ _ _).waits <| .ite (Act.BeginsWithTurn.raise _ _ _).waits <| .pure ()

theorem Act.BeginsWithTurn.fillDisplayBody (c : Color) : Act.BeginsWithTurn (fillDisplayBody c) :=
  .look fun _ => .look fun _ => .ite (.raise _ _ _) (Act.BeginsWithTurn.select.bind _)

theorem Act.BeginsWithTurn.drawOperands (c : Color) (src : PixelSource) : Act.BeginsWithTurn (drawOperands c src) :=
  .look fun _ => .look fun _ => .look fun _ => .look fun _ => .look fun _ => Act.BeginsWithTurn.select.bind _

theorem Act.BeginsWithTurn.getTextWidthBody : Act.BeginsWithTurn getTextWidthBody :=
  .look fun _ => .look fun _ => .look fun _ => (Act.BeginsWithTurn.memRead _ _).bind _

theorem Act.BeginsWithTurn.drawTextBody (c : Color) (align : Align) : Act.BeginsWithTurn (drawTextBody c align) :=
  .look fun _ => .ite (.look fun _ => .look fun _ => .look fun _ => .look fun _ => .look fun _ => .look fun _ =>
    .look fun _ => (Act.BeginsWithTurn.readHeader _).bind _) (.raise _ _ _)

/-- A command whose first turn ends it has done nothing: its acceptance and its steps wait for that turn, and the turn
before completion is the first where it has no steps (R17, R183). -/
theorem runCommand_turn {own needs : Bool} {body : Act α} {writes : α → List (State → State)} (hb : Act.WaitsForTurn body)
    {s t : State} (ht : hostTurn s = .error () t) : runCommand own needs body writes s = t := by
  have hsteps : Act.BeginsWithTurn (commandSteps body writes) :=
    hb.bind fun _ => Act.BeginsWithTurn.hostTurn.bind _
  rw [runCommand_eq, (Act.WaitsForTurn.acceptance own needs).bind (fun _ => hsteps) s t ht]

/-- An illegal command whose first turn ends it. -/
theorem endOf_raiseIllegal_turn (k : Illegal) {s t : State} (ht : hostTurn s = .error () t) :
    endOf (raiseIllegal k) s = t := by
  have hraise : Act.BeginsWithTurn (raiseIllegal k) := .look fun _ => .raise _ _ _
  rw [endOf, hraise s t ht]

/-- Whatever the command, where the host's turn ends it before its first step nothing else happens. -/
theorem exec_turn (i : Instr) {s t : State} (ht : hostTurn s = .error () t) : exec i s = .next t := by
  have hrun {γ : Type} {own needs : Bool} {body : Act γ} {writes : γ → List (State → State)}
      (hb : Act.WaitsForTurn body) :
      (.next (runCommand own needs body writes s) : Host.Outcome State Fault Refusal) = .next t :=
    congrArg Host.Outcome.next (runCommand_turn hb ht)
  have hbegin {γ : Type} {own needs : Bool} {body : Act γ} {writes : γ → List (State → State)}
      (hb : Act.BeginsWithTurn body) :
      (.next (runCommand own needs body writes s) : Host.Outcome State Fault Refusal) = .next t :=
    hrun hb.waits
  have hillegal (k : Illegal) : (.next (endOf (raiseIllegal k) s) : Host.Outcome State Fault Refusal) = .next t :=
    congrArg Host.Outcome.next (endOf_raiseIllegal_turn k ht)
  cases i with
  | nop => exact hrun (.pure ())
  | start => exact hbegin <| .look fun _ => (Act.BeginsWithTurn.emit _).bind _
  | stop => exact hbegin <| .look fun _ => Act.BeginsWithTurn.select.bind _
  | update =>
    have hbody : Act.BeginsWithTurn updateBody := .look fun _ => Act.BeginsWithTurn.select.bind _
    rw [exec, execUpdate, (Act.WaitsForTurn.acceptance true false).bind (fun _ => hbody.bind _) s t ht, afterPoll]
  | select => exact hbegin <| .look fun _ => .ite (.raise _ _ _) .select
  | unselect => exact hbegin <| .look fun _ => .ite .unselect (.raise _ _ _)
  | sendCmd => exact hbegin <| .look fun _ => Act.WaitsForTurn.needBracket.bind fun _ => .emit _
  | sendData => exact hbegin <| .look fun _ => Act.WaitsForTurn.needBracket.bind fun _ => .emit _
  | setAddress => exact hbegin .setAddressBody
  | panelInit => exact hrun .panelInitBody
  | setBg c => exact hrun (.pure ())
  | fillDisplay c => exact hbegin (.fillDisplayBody c)
  | drawBitmap c src =>
    cases src with
    | solid | mem | host => exact hbegin (.drawOperands c _)
    | reserved => exact hillegal .reservedSrc
  | drawFilledRect c => exact hbegin (.drawOperands c _)
  | setFont => exact hbegin <| .look fun _ => (Act.BeginsWithTurn.readHeader _).bind _
  | getTextWidth => exact hbegin .getTextWidthBody
  | drawText c align =>
    rw [exec, execDrawText]
    split
    · exact hillegal .reservedAlign
    · exact hbegin (.drawTextBody c align)

/-- The host's turn in which it writes `CMD`, and then waits (R183). -/
theorem hostTurn_cmdWrite {s : State} {w : Word} {rest : List HostAction} (hh : s.host = .write 0 4 w :: rest)
    (hq : State.quiet { s with host := rest } = true) :
    hostTurn s = .error () (faultEntry .cmdOverrun 0 (w.toNat % 65536 : Nat) none { s with host := rest }) := by
  rw [hostTurn, hh, turnFrom, if_pos ((accessOk_iff 0 4).2 ⟨rfl, rfl⟩), if_pos rfl]
  exact overrun_quiet (s := { s with host := .write 0 4 w :: rest }) hq w

/-- Settles O10: the write ends the host's turn before the command's first step (`exec_turn`), or before the next sample of
the poll loop. -/
theorem commandWriteEndsTheRunningCommand : Obligations.CommandWriteEndsTheRunningCommand := by
  intro s w rest _ hh hq
  have hturn := hostTurn_cmdWrite hh hq
  refine ⟨fun i => exec_turn i hturn, fun hp => ?poll⟩
  rw [step, if_pos hp, pollTurn, Act.BeginsWithTurn.pollOnce _ _ hturn, afterPoll]

/-! ### A `CMD` write after some turns of the host -/

/-- The record of a `CMD_OVERRUN` has `DETAIL` 0 and the written word's low 16 bits (R181). -/
theorem faultInfoWord_overrun (opc : Byte) (w : Word) :
    faultInfoWord opc 0 (w.toNat % 65536 : Nat) = opc ++ 0#8 ++ w.extractLsb' 0 16 := by
  have hlow : low16 (w.toNat % 65536 : Nat) = w.extractLsb' 0 16 := by
    apply BitVec.eq_of_toNat_eq
    rw [low16, BitVec.ofInt_natCast]
    simp
  rw [faultInfoWord, hlow]

/-- A command struck by a `CMD` write (R183, R185): where it stood it had done a beginning of its undisturbed run, and fault
entry closed its open bracket. -/
theorem Struck.stopped {w : Word} {s u t : State} (h : Struck (.write 0 4 w) [] s u t) :
    ∃ x, Grows s (s.worked x) ∧ Grows (s.worked x) u ∧
      t = faultEntry .cmdOverrun 0 (w.toNat % 65536 : Nat) none (s.worked x) := by
  cases h with
  | overrun w' v hw hv hsv hvu =>
    obtain ⟨x, rfl⟩ : ∃ x, v = s.worked x := ⟨v, hv⟩
    obtain rfl : w = w' := by injection hw
    exact ⟨x, hsv, hvu, rfl⟩
  | reset v hw => cases hw

/-- Settles O11: `exec_struck` and `pollTurn_struck` say that the run is over before the write or struck by it. -/
theorem commandWriteStopsACommandAtAnyStep : Obligations.CommandWriteStopsACommandAtAnyStep := by
  intro run n s u w k hrun _ hu
  obtain ⟨final, hfinal, hstruck⟩ : ∃ final : State → State,
      (∀ l, run { s with host := l } = .next (final { s with host := l })) ∧ StruckOrNot n final := by
    rcases hrun with ⟨i, rfl, rfl⟩ | ⟨rfl, hp, rfl⟩
    · obtain ⟨final, hfinal, hstruck⟩ := exec_struck i
      exact ⟨final, fun l => hfinal _, hstruck⟩
    · exact ⟨pollTurn, fun l => if_pos hp, pollTurn_struck⟩
  obtain rfl : final { s with host := [] } = u := by
    rw [hfinal] at hu
    injection hu
  refine ⟨_, hfinal _, ?_⟩
  obtain ⟨_, ⟨j, hj, hsteps, he⟩ | hx⟩ :=
    hstruck { s with host := [] } (.write 0 4 w) [] k rfl (.inr ⟨⟨w, rfl⟩, rfl⟩)
  · exact .inl ⟨j, hj, hsteps, he⟩
  · obtain ⟨x, ⟨⟨done, hdone⟩, hreads, hsamples, _, _⟩, ⟨⟨left, hleft⟩, hreads', hsamples', _, _⟩, he⟩ := hx.stopped
    have htrace : (final { s with host := [] }).trace = s.trace ++ done ++ left := by rw [← hleft, ← hdone]
    have hclose : (if x.sel then closeEvents s.params else []) = [] ∨
        (if x.sel then closeEvents s.params else []) = if s.params.sharedBus then [.fin, .rel] else [.fin] := by
      cases x.sel with
      | false => exact .inl rfl
      | true => exact .inr rfl
    change final { s with host := List.replicate k .pause ++ [.write 0 4 w] } = _ at he
    rw [he]
    exact .inr ⟨⟨done, left, _, htrace, congrArg (· ++ _) hdone.symm, hclose⟩, hreads, hreads', hsamples, hsamples', rfl, rfl,
      faultInfoWord_overrun _ w, rfl, rfl, rfl, rfl, rfl, rfl, rfl, rfl, rfl, rfl, rfl, rfl, rfl, rfl, rfl, rfl, rfl, rfl, rfl,
      rfl⟩

end Sys2Proof.Machine
end

section
/-! Proofs of the statements of the family `70_reset_and_hazards.md`: a reset in the middle of a command. -/

namespace Sys2Proof.Machine

/-! ### A reset after some turns of the host -/

/-- A command and a pass of the poll loop have one next state whatever the host does, and can be struck at their steps. -/
theorem commandOrPoll_struck {run : State → Host.Outcome State Fault Refusal} {n : Nat} {s : State}
    (hrun : (∃ i, run = exec i ∧ n = writeTurns i) ∨ (run = step ∧ s.poll = true ∧ n = 0)) :
    ∃ final : State → State,
      (∀ l, run { s with host := l } = .next (final { s with host := l })) ∧ StruckOrNot n final := by
  rcases hrun with ⟨i, rfl, rfl⟩ | ⟨rfl, hp, rfl⟩
  · obtain ⟨final, hfinal, hstruck⟩ := exec_struck i
    exact ⟨final, fun l => hfinal _, hstruck⟩
  · exact ⟨pollTurn, fun l => if_pos hp, pollTurn_struck⟩

/-- A command struck by a reset (R200, R201): it had come to a stage `v` of its undisturbed run, and the reset is that of
the block as it stood there. -/
theorem Struck.resetAt {rest : List HostAction} {s u t : State} (h : Struck .reset rest s u t) :
    ∃ v, Grows s v ∧ Grows v u ∧ t = applyReset { v with host := rest } := by
  cases h with
  | overrun w v hw => cases hw
  | reset v _ hsv hvu => exact ⟨v, hsv, hvu, rfl⟩

/-- Settles O19: by `commandOrPoll_struck` the run is over before the reset or struck by it; a struck run ends in
`applyReset` of the stage it had reached, and `Grows` places that stage between the start and the undisturbed end. -/
theorem resetStopsACommandAtAnyStep : Obligations.ResetStopsACommandAtAnyStep := by
  intro run n s u rest k hrun hu
  obtain ⟨final, hfinal, hstruck⟩ := commandOrPoll_struck hrun
  obtain rfl : final { s with host := [] } = u := by
    rw [hfinal] at hu
    injection hu
  refine ⟨_, hfinal _, ?_⟩
  obtain ⟨_, ⟨j, hj, hsteps, he⟩ | hx⟩ := hstruck { s with host := [] } .reset rest k rfl (.inl rfl)
  case inl => exact .inl ⟨j, hj, hsteps, he⟩
  case inr =>
    obtain ⟨v, ⟨⟨done, hdone⟩, hreads, hsamples, hparams, hmem⟩, ⟨⟨left, hleft⟩, hreads', hsamples', _, _⟩, he⟩ := hx.resetAt
    have htrace : (final { s with host := [] }).trace = s.trace ++ done ++ left := by rw [← hleft, ← hdone]
    change final { s with host := List.replicate k .pause ++ .reset :: rest } = _ at he
    rw [he]
    exact .inr ⟨⟨done, left, htrace, hdone.symm⟩, hreads, hreads', hsamples, hsamples', rfl, statusWord_applyReset _, rfl, rfl,
      rfl, rfl, rfl, rfl, rfl, rfl, rfl, rfl, rfl, rfl, hparams, hmem, rfl⟩

end Sys2Proof.Machine
end
